-- ==== Sys2Proof/Word.lean ====
section
/-! DEFINITION. The word and the byte of the visulator subset-x86 core.
`XLEN` = 32 bits for registers, `eip`, `eflags`, operands and addresses (00_scope.md R8, R9); the addressable
unit of memory is the byte (20_memory.md R60). -/

namespace Sys2Proof

/-- A 32-bit word: a register, `eip`, `eflags`, an operand or an address (00_scope.md R8, R9). -/
abbrev Word := BitVec 32

/-- A memory cell and a byte of the instruction stream (20_memory.md R60, 30_encoding.md R100). -/
abbrev Byte := BitVec 8

end Sys2Proof
end

