-- ==== Sys2Proof/Syntax.lean ====
section
/-! DEFINITION. The instructions of the visulator subset-x86 core as syntax: one constructor of `Instr` per row of
spec/opcode_table.json, in the table's order (30_encoding.md R108, R109, R115).
An instruction keeps every bit of its encoding: the `r/m32` operand keeps its ModRM form and the raw displacement,
an immediate or offset keeps its raw bits. Extension and masking (R106) are in Machine/Operands.lean. -/

namespace Sys2Proof

/-- The eight general registers, in the order of their numbers 0 to 7 (10_state.md R20). -/
inductive Reg where
  | eax | ecx | edx | ebx | esp | ebp | esi | edi
  deriving DecidableEq, Repr

/-- The `r/m32` operand as the ModRM byte and displacement give it (30_encoding.md R103): `mod` = 11, 00, 01, 10.
The base of a memory form is never `esp`, and `mem` never has base `ebp`: WellFormed.lean. -/
inductive RM where
  /-- `mod` = 11: the register itself. -/
  | reg (r : Reg)
  /-- `mod` = 00: memory at the base register. -/
  | mem (base : Reg)
  /-- `mod` = 01: memory at the base register plus the sign-extended byte. -/
  | memDisp8 (base : Reg) (disp : Byte)
  /-- `mod` = 10: memory at the base register plus the 32-bit displacement. -/
  | memDisp32 (base : Reg) (disp : Word)
  deriving DecidableEq, Repr

/-- The two-operand ALU operations, in the order of their numbers `n` = 0 to 7 (30_encoding.md R115). -/
inductive AluOp where
  | add | or | adc | sbb | and | sub | xor | cmp
  deriving DecidableEq, Repr

/-- The three shifts: `/4`, `/5`, `/7` of the groups C1, D1, D3 (30_encoding.md R115). -/
inductive ShiftOp where
  | shl | shr | sar
  deriving DecidableEq, Repr

/-- The sixteen conditions, in the order of their numbers `cc` = 0 to 15 (45_control_flow.md R243). -/
inductive Cond where
  | o | no | b | ae | e | ne | be | a | s | ns | p | np | l | ge | le | g
  deriving DecidableEq, Repr

/-- An admitted instruction: one constructor per row of spec/opcode_table.json (30_encoding.md R108, R109, R115).
Every other byte sequence is refused by the decoder (00_scope.md R12). -/
inductive Instr where
  /-- `ADD r/m32, r32`, 01 ModRM disp (R181). -/
  | addRmR (rm : RM) (r : Reg)
  /-- `ADD r32, r/m32`, 03 ModRM disp (R181). -/
  | addRRm (r : Reg) (rm : RM)
  /-- `ADD eax, imm32`, 05 imm32 (R181). -/
  | addEaxImm32 (imm : Word)
  /-- `ADD r/m32, imm32`, 81 /0 ModRM disp imm32 (R181). -/
  | addRmImm32 (rm : RM) (imm : Word)
  /-- `ADD r/m32, imm8`, 83 /0 ModRM disp imm8 (R181). -/
  | addRmImm8 (rm : RM) (imm : Byte)
  /-- `OR r/m32, r32`, 09 ModRM disp (R182). -/
  | orRmR (rm : RM) (r : Reg)
  /-- `OR r32, r/m32`, 0B ModRM disp (R182). -/
  | orRRm (r : Reg) (rm : RM)
  /-- `OR eax, imm32`, 0D imm32 (R182). -/
  | orEaxImm32 (imm : Word)
  /-- `OR r/m32, imm32`, 81 /1 ModRM disp imm32 (R182). -/
  | orRmImm32 (rm : RM) (imm : Word)
  /-- `OR r/m32, imm8`, 83 /1 ModRM disp imm8 (R182). -/
  | orRmImm8 (rm : RM) (imm : Byte)
  /-- `ADC r/m32, r32`, 11 ModRM disp (R183). -/
  | adcRmR (rm : RM) (r : Reg)
  /-- `ADC r32, r/m32`, 13 ModRM disp (R183). -/
  | adcRRm (r : Reg) (rm : RM)
  /-- `ADC eax, imm32`, 15 imm32 (R183). -/
  | adcEaxImm32 (imm : Word)
  /-- `ADC r/m32, imm32`, 81 /2 ModRM disp imm32 (R183). -/
  | adcRmImm32 (rm : RM) (imm : Word)
  /-- `ADC r/m32, imm8`, 83 /2 ModRM disp imm8 (R183). -/
  | adcRmImm8 (rm : RM) (imm : Byte)
  /-- `SBB r/m32, r32`, 19 ModRM disp (R184). -/
  | sbbRmR (rm : RM) (r : Reg)
  /-- `SBB r32, r/m32`, 1B ModRM disp (R184). -/
  | sbbRRm (r : Reg) (rm : RM)
  /-- `SBB eax, imm32`, 1D imm32 (R184). -/
  | sbbEaxImm32 (imm : Word)
  /-- `SBB r/m32, imm32`, 81 /3 ModRM disp imm32 (R184). -/
  | sbbRmImm32 (rm : RM) (imm : Word)
  /-- `SBB r/m32, imm8`, 83 /3 ModRM disp imm8 (R184). -/
  | sbbRmImm8 (rm : RM) (imm : Byte)
  /-- `AND r/m32, r32`, 21 ModRM disp (R185). -/
  | andRmR (rm : RM) (r : Reg)
  /-- `AND r32, r/m32`, 23 ModRM disp (R185). -/
  | andRRm (r : Reg) (rm : RM)
  /-- `AND eax, imm32`, 25 imm32 (R185). -/
  | andEaxImm32 (imm : Word)
  /-- `AND r/m32, imm32`, 81 /4 ModRM disp imm32 (R185). -/
  | andRmImm32 (rm : RM) (imm : Word)
  /-- `AND r/m32, imm8`, 83 /4 ModRM disp imm8 (R185). -/
  | andRmImm8 (rm : RM) (imm : Byte)
  /-- `SUB r/m32, r32`, 29 ModRM disp (R186). -/
  | subRmR (rm : RM) (r : Reg)
  /-- `SUB r32, r/m32`, 2B ModRM disp (R186). -/
  | subRRm (r : Reg) (rm : RM)
  /-- `SUB eax, imm32`, 2D imm32 (R186). -/
  | subEaxImm32 (imm : Word)
  /-- `SUB r/m32, imm32`, 81 /5 ModRM disp imm32 (R186). -/
  | subRmImm32 (rm : RM) (imm : Word)
  /-- `SUB r/m32, imm8`, 83 /5 ModRM disp imm8 (R186). -/
  | subRmImm8 (rm : RM) (imm : Byte)
  /-- `XOR r/m32, r32`, 31 ModRM disp (R187). -/
  | xorRmR (rm : RM) (r : Reg)
  /-- `XOR r32, r/m32`, 33 ModRM disp (R187). -/
  | xorRRm (r : Reg) (rm : RM)
  /-- `XOR eax, imm32`, 35 imm32 (R187). -/
  | xorEaxImm32 (imm : Word)
  /-- `XOR r/m32, imm32`, 81 /6 ModRM disp imm32 (R187). -/
  | xorRmImm32 (rm : RM) (imm : Word)
  /-- `XOR r/m32, imm8`, 83 /6 ModRM disp imm8 (R187). -/
  | xorRmImm8 (rm : RM) (imm : Byte)
  /-- `CMP r/m32, r32`, 39 ModRM disp (R188). -/
  | cmpRmR (rm : RM) (r : Reg)
  /-- `CMP r32, r/m32`, 3B ModRM disp (R188). -/
  | cmpRRm (r : Reg) (rm : RM)
  /-- `CMP eax, imm32`, 3D imm32 (R188). -/
  | cmpEaxImm32 (imm : Word)
  /-- `CMP r/m32, imm32`, 81 /7 ModRM disp imm32 (R188). -/
  | cmpRmImm32 (rm : RM) (imm : Word)
  /-- `CMP r/m32, imm8`, 83 /7 ModRM disp imm8 (R188). -/
  | cmpRmImm8 (rm : RM) (imm : Byte)
  /-- `TEST r/m32, r32`, 85 ModRM disp (R189). -/
  | testRmR (rm : RM) (r : Reg)
  /-- `TEST eax, imm32`, A9 imm32 (R189). -/
  | testEaxImm32 (imm : Word)
  /-- `TEST r/m32, imm32`, F7 /0 ModRM disp imm32 (R189). -/
  | testRmImm32 (rm : RM) (imm : Word)
  /-- `INC r32`, 40+r (R201). -/
  | incR (r : Reg)
  /-- `DEC r32`, 48+r (R202). -/
  | decR (r : Reg)
  /-- `INC r/m32`, FF /0 ModRM disp (R201). -/
  | incRm (rm : RM)
  /-- `DEC r/m32`, FF /1 ModRM disp (R202). -/
  | decRm (rm : RM)
  /-- `NOT r/m32`, F7 /2 ModRM disp (R204). -/
  | notRm (rm : RM)
  /-- `NEG r/m32`, F7 /3 ModRM disp (R203). -/
  | negRm (rm : RM)
  /-- `SHL r/m32, 1`, D1 /4 ModRM disp (R207). -/
  | shlRm1 (rm : RM)
  /-- `SHL r/m32, imm8`, C1 /4 ModRM disp imm8 (R207). -/
  | shlRmImm8 (rm : RM) (imm : Byte)
  /-- `SHL r/m32, cl`, D3 /4 ModRM disp (R207). -/
  | shlRmCl (rm : RM)
  /-- `SHR r/m32, 1`, D1 /5 ModRM disp (R208). -/
  | shrRm1 (rm : RM)
  /-- `SHR r/m32, imm8`, C1 /5 ModRM disp imm8 (R208). -/
  | shrRmImm8 (rm : RM) (imm : Byte)
  /-- `SHR r/m32, cl`, D3 /5 ModRM disp (R208). -/
  | shrRmCl (rm : RM)
  /-- `SAR r/m32, 1`, D1 /7 ModRM disp (R209). -/
  | sarRm1 (rm : RM)
  /-- `SAR r/m32, imm8`, C1 /7 ModRM disp imm8 (R209). -/
  | sarRmImm8 (rm : RM) (imm : Byte)
  /-- `SAR r/m32, cl`, D3 /7 ModRM disp (R209). -/
  | sarRmCl (rm : RM)
  /-- `MOV r/m32, r32`, 89 ModRM disp (R221). -/
  | movRmR (rm : RM) (r : Reg)
  /-- `MOV r32, r/m32`, 8B ModRM disp (R221). -/
  | movRRm (r : Reg) (rm : RM)
  /-- `MOV r32, imm32`, B8+r imm32 (R221). -/
  | movRImm32 (r : Reg) (imm : Word)
  /-- `MOV r/m32, imm32`, C7 /0 ModRM disp imm32 (R221). -/
  | movRmImm32 (rm : RM) (imm : Word)
  /-- `NOP`, 90 (R224). -/
  | nop
  /-- `PUSH r32`, 50+r (R231). -/
  | pushR (r : Reg)
  /-- `PUSH imm32`, 68 imm32 (R231). -/
  | pushImm32 (imm : Word)
  /-- `PUSH imm8`, 6A imm8 (R231). -/
  | pushImm8 (imm : Byte)
  /-- `POP r32`, 58+r (R232). -/
  | popR (r : Reg)
  /-- `JMP rel8`, EB rel8 (R241). -/
  | jmpRel8 (rel : Byte)
  /-- `JMP rel32`, E9 rel32 (R241). -/
  | jmpRel32 (rel : Word)
  /-- `JO rel8`, 70 rel8 (R244). -/
  | joRel8 (rel : Byte)
  /-- `JNO rel8`, 71 rel8 (R245). -/
  | jnoRel8 (rel : Byte)
  /-- `JB rel8`, 72 rel8 (R246). -/
  | jbRel8 (rel : Byte)
  /-- `JAE rel8`, 73 rel8 (R247). -/
  | jaeRel8 (rel : Byte)
  /-- `JE rel8`, 74 rel8 (R248). -/
  | jeRel8 (rel : Byte)
  /-- `JNE rel8`, 75 rel8 (R249). -/
  | jneRel8 (rel : Byte)
  /-- `JBE rel8`, 76 rel8 (R250). -/
  | jbeRel8 (rel : Byte)
  /-- `JA rel8`, 77 rel8 (R251). -/
  | jaRel8 (rel : Byte)
  /-- `JS rel8`, 78 rel8 (R252). -/
  | jsRel8 (rel : Byte)
  /-- `JNS rel8`, 79 rel8 (R253). -/
  | jnsRel8 (rel : Byte)
  /-- `JP rel8`, 7A rel8 (R254). -/
  | jpRel8 (rel : Byte)
  /-- `JNP rel8`, 7B rel8 (R255). -/
  | jnpRel8 (rel : Byte)
  /-- `JL rel8`, 7C rel8 (R256). -/
  | jlRel8 (rel : Byte)
  /-- `JGE rel8`, 7D rel8 (R257). -/
  | jgeRel8 (rel : Byte)
  /-- `JLE rel8`, 7E rel8 (R258). -/
  | jleRel8 (rel : Byte)
  /-- `JG rel8`, 7F rel8 (R259). -/
  | jgRel8 (rel : Byte)
  /-- `JO rel32`, 0F 80 rel32 (R244). -/
  | joRel32 (rel : Word)
  /-- `JNO rel32`, 0F 81 rel32 (R245). -/
  | jnoRel32 (rel : Word)
  /-- `JB rel32`, 0F 82 rel32 (R246). -/
  | jbRel32 (rel : Word)
  /-- `JAE rel32`, 0F 83 rel32 (R247). -/
  | jaeRel32 (rel : Word)
  /-- `JE rel32`, 0F 84 rel32 (R248). -/
  | jeRel32 (rel : Word)
  /-- `JNE rel32`, 0F 85 rel32 (R249). -/
  | jneRel32 (rel : Word)
  /-- `JBE rel32`, 0F 86 rel32 (R250). -/
  | jbeRel32 (rel : Word)
  /-- `JA rel32`, 0F 87 rel32 (R251). -/
  | jaRel32 (rel : Word)
  /-- `JS rel32`, 0F 88 rel32 (R252). -/
  | jsRel32 (rel : Word)
  /-- `JNS rel32`, 0F 89 rel32 (R253). -/
  | jnsRel32 (rel : Word)
  /-- `JP rel32`, 0F 8A rel32 (R254). -/
  | jpRel32 (rel : Word)
  /-- `JNP rel32`, 0F 8B rel32 (R255). -/
  | jnpRel32 (rel : Word)
  /-- `JL rel32`, 0F 8C rel32 (R256). -/
  | jlRel32 (rel : Word)
  /-- `JGE rel32`, 0F 8D rel32 (R257). -/
  | jgeRel32 (rel : Word)
  /-- `JLE rel32`, 0F 8E rel32 (R258). -/
  | jleRel32 (rel : Word)
  /-- `JG rel32`, 0F 8F rel32 (R259). -/
  | jgRel32 (rel : Word)
  /-- `CALL rel32`, E8 rel32 (R260). -/
  | callRel32 (rel : Word)
  /-- `RET`, C3 (R261). -/
  | ret
  /-- `HLT`, F4 (R262). -/
  | hlt
  deriving DecidableEq, Repr

/-- The `r/m32` operand of an instruction, where its format has a ModRM byte (30_encoding.md R101). -/
def Instr.rm? : Instr → Option RM
  | .addRmR rm _ => some rm
  | .addRRm _ rm => some rm
  | .addEaxImm32 _ => none
  | .addRmImm32 rm _ => some rm
  | .addRmImm8 rm _ => some rm
  | .orRmR rm _ => some rm
  | .orRRm _ rm => some rm
  | .orEaxImm32 _ => none
  | .orRmImm32 rm _ => some rm
  | .orRmImm8 rm _ => some rm
  | .adcRmR rm _ => some rm
  | .adcRRm _ rm => some rm
  | .adcEaxImm32 _ => none
  | .adcRmImm32 rm _ => some rm
  | .adcRmImm8 rm _ => some rm
  | .sbbRmR rm _ => some rm
  | .sbbRRm _ rm => some rm
  | .sbbEaxImm32 _ => none
  | .sbbRmImm32 rm _ => some rm
  | .sbbRmImm8 rm _ => some rm
  | .andRmR rm _ => some rm
  | .andRRm _ rm => some rm
  | .andEaxImm32 _ => none
  | .andRmImm32 rm _ => some rm
  | .andRmImm8 rm _ => some rm
  | .subRmR rm _ => some rm
  | .subRRm _ rm => some rm
  | .subEaxImm32 _ => none
  | .subRmImm32 rm _ => some rm
  | .subRmImm8 rm _ => some rm
  | .xorRmR rm _ => some rm
  | .xorRRm _ rm => some rm
  | .xorEaxImm32 _ => none
  | .xorRmImm32 rm _ => some rm
  | .xorRmImm8 rm _ => some rm
  | .cmpRmR rm _ => some rm
  | .cmpRRm _ rm => some rm
  | .cmpEaxImm32 _ => none
  | .cmpRmImm32 rm _ => some rm
  | .cmpRmImm8 rm _ => some rm
  | .testRmR rm _ => some rm
  | .testEaxImm32 _ => none
  | .testRmImm32 rm _ => some rm
  | .incR _ => none
  | .decR _ => none
  | .incRm rm => some rm
  | .decRm rm => some rm
  | .notRm rm => some rm
  | .negRm rm => some rm
  | .shlRm1 rm => some rm
  | .shlRmImm8 rm _ => some rm
  | .shlRmCl rm => some rm
  | .shrRm1 rm => some rm
  | .shrRmImm8 rm _ => some rm
  | .shrRmCl rm => some rm
  | .sarRm1 rm => some rm
  | .sarRmImm8 rm _ => some rm
  | .sarRmCl rm => some rm
  | .movRmR rm _ => some rm
  | .movRRm _ rm => some rm
  | .movRImm32 _ _ => none
  | .movRmImm32 rm _ => some rm
  | .nop => none
  | .pushR _ => none
  | .pushImm32 _ => none
  | .pushImm8 _ => none
  | .popR _ => none
  | .jmpRel8 _ => none
  | .jmpRel32 _ => none
  | .joRel8 _ => none
  | .jnoRel8 _ => none
  | .jbRel8 _ => none
  | .jaeRel8 _ => none
  | .jeRel8 _ => none
  | .jneRel8 _ => none
  | .jbeRel8 _ => none
  | .jaRel8 _ => none
  | .jsRel8 _ => none
  | .jnsRel8 _ => none
  | .jpRel8 _ => none
  | .jnpRel8 _ => none
  | .jlRel8 _ => none
  | .jgeRel8 _ => none
  | .jleRel8 _ => none
  | .jgRel8 _ => none
  | .joRel32 _ => none
  | .jnoRel32 _ => none
  | .jbRel32 _ => none
  | .jaeRel32 _ => none
  | .jeRel32 _ => none
  | .jneRel32 _ => none
  | .jbeRel32 _ => none
  | .jaRel32 _ => none
  | .jsRel32 _ => none
  | .jnsRel32 _ => none
  | .jpRel32 _ => none
  | .jnpRel32 _ => none
  | .jlRel32 _ => none
  | .jgeRel32 _ => none
  | .jleRel32 _ => none
  | .jgRel32 _ => none
  | .callRel32 _ => none
  | .ret => none
  | .hlt => none

end Sys2Proof
end

