-- ==== Sys2Proof/WellFormed.lean ====
section
/-! DEFINITION. Which instructions as syntax are instructions of the machine: the `r/m32` forms that 30_encoding.md
R103 refuses (`esp` as a base, and `ebp` as a base without displacement) are not. -/

namespace Sys2Proof

/-- The ModRM forms R103 admits. `rm` = 4 with `mod` other than 11 is refused (x86: a SIB byte follows), and so is
`rm` = 5 with `mod` = 00 (x86: disp32 with no base). -/
def RM.wellFormed : RM → Bool
  | .reg _ => true
  | .mem base => base != .esp && base != .ebp
  | .memDisp8 base _ => base != .esp
  | .memDisp32 base _ => base != .esp

/-- An instruction is well formed when its `r/m32` operand, if it has one, is of an admitted form. Every other
field of an instruction admits every value (30_encoding.md R101, R107). -/
def Instr.wellFormed (i : Instr) : Bool :=
  i.rm?.all RM.wellFormed

end Sys2Proof
end

