-- ==== Sys2Proof/Decode.lean ====
section
/-! DEFINITION. The decoder, total on any bytes and rejecting by name (30_encoding.md R100 to R116), and the
encoder, written from the same tables.
The decoder reads bytes in ascending order and stops at the first byte that settles an error (R112): a list that ends
too early stands for a fetch outside the memory. The opcode tables are the spec's own; the byte values come from
general knowledge of x86 there (93_implementation_defined.md G6). -/

namespace Sys2Proof

/-! ### Fields and byte order -/

/-- The value of four bytes at ascending addresses, the first the least significant (20_memory.md R67,
30_encoding.md R106). -/
def wordOfBytes (b0 b1 b2 b3 : Byte) : Word := b3 ++ b2 ++ b1 ++ b0

/-- The four bytes of a word in ascending address order (20_memory.md R68). -/
def bytesOfWord (w : Word) : List Byte :=
  [w.extractLsb' 0 8, w.extractLsb' 8 8, w.extractLsb' 16 8, w.extractLsb' 24 8]

/-- `m[7:6]` of a ModRM byte (R102). -/
def modField (m : Byte) : BitVec 2 := m.extractLsb' 6 2

/-- `m[5:3]` of a ModRM byte: a register number or the `/digit` (R102). Also `b0[5:3]`, the ALU number (R101). -/
def regField (m : Byte) : BitVec 3 := m.extractLsb' 3 3

/-- `m[2:0]` of a ModRM byte (R102). Also `b0[2:0]`, a register number or the form (R101, R107). -/
def rmField (m : Byte) : BitVec 3 := m.extractLsb' 0 3

/-- The number of a general register (10_state.md R20). -/
def Reg.number : Reg → BitVec 3
  | .eax => 0
  | .ecx => 1
  | .edx => 2
  | .ebx => 3
  | .esp => 4
  | .ebp => 5
  | .esi => 6
  | .edi => 7

/-- The general register with a number (10_state.md R20). -/
def Reg.ofNumber (n : BitVec 3) : Reg :=
  match n.toNat with
  | 0 => .eax
  | 1 => .ecx
  | 2 => .edx
  | 3 => .ebx
  | 4 => .esp
  | 5 => .ebp
  | 6 => .esi
  | _ => .edi

/-- The ALU operation with number `n` (R115). -/
def AluOp.ofNumber (n : BitVec 3) : AluOp :=
  match n.toNat with
  | 0 => .add
  | 1 => .or
  | 2 => .adc
  | 3 => .sbb
  | 4 => .and
  | 5 => .sub
  | 6 => .xor
  | _ => .cmp

/-- The shift a `/digit` of C1, D1, D3 selects; the other digits are refused (R115). -/
def ShiftOp.ofDigit? (n : BitVec 3) : Option ShiftOp :=
  match n.toNat with
  | 4 => some .shl
  | 5 => some .shr
  | 7 => some .sar
  | _ => none

/-- The condition with number `cc` (45_control_flow.md R243). -/
def Cond.ofNumber (n : BitVec 4) : Cond :=
  match n.toNat with
  | 0 => .o
  | 1 => .no
  | 2 => .b
  | 3 => .ae
  | 4 => .e
  | 5 => .ne
  | 6 => .be
  | 7 => .a
  | 8 => .s
  | 9 => .ns
  | 10 => .p
  | 11 => .np
  | 12 => .l
  | 13 => .ge
  | 14 => .le
  | _ => .g

/-! ### The opcode map (R108) -/

/-- What a first byte selects: one constructor per line of the one-byte opcode map (R108). -/
inductive Opcode where
  | aluRmR (op : AluOp) | aluRRm (op : AluOp) | aluEaxImm32 (op : AluOp)
  | escape
  | incR (r : Reg) | decR (r : Reg) | pushR (r : Reg) | popR (r : Reg)
  | pushImm32 | pushImm8
  | jccRel8 (cc : Cond)
  | group81 | group83
  | testRmR | movRmR | movRRm | nop | testEaxImm32
  | movRImm32 (r : Reg)
  | groupC1 | ret | groupC7 | groupD1 | groupD3
  | callRel32 | jmpRel32 | jmpRel8 | hlt | groupF7 | groupFF
  deriving DecidableEq, Repr

/-- The one-byte opcode map: `none` for the 155 first bytes that are not admitted (R108, R110). -/
def opcodeOf (b : Byte) : Option Opcode :=
  if b = 0x0F then some .escape
  else if modField b = 0 then
    if rmField b = 1 then some (.aluRmR (AluOp.ofNumber (regField b)))
    else if rmField b = 3 then some (.aluRRm (AluOp.ofNumber (regField b)))
    else if rmField b = 5 then some (.aluEaxImm32 (AluOp.ofNumber (regField b)))
    else none
  else if b.extractLsb' 3 5 = 0b01000 then some (.incR (Reg.ofNumber (rmField b)))
  else if b.extractLsb' 3 5 = 0b01001 then some (.decR (Reg.ofNumber (rmField b)))
  else if b.extractLsb' 3 5 = 0b01010 then some (.pushR (Reg.ofNumber (rmField b)))
  else if b.extractLsb' 3 5 = 0b01011 then some (.popR (Reg.ofNumber (rmField b)))
  else if b = 0x68 then some .pushImm32
  else if b = 0x6A then some .pushImm8
  else if b.extractLsb' 4 4 = 0x7 then some (.jccRel8 (Cond.ofNumber (b.extractLsb' 0 4)))
  else if b = 0x81 then some .group81
  else if b = 0x83 then some .group83
  else if b = 0x85 then some .testRmR
  else if b = 0x89 then some .movRmR
  else if b = 0x8B then some .movRRm
  else if b = 0x90 then some .nop
  else if b = 0xA9 then some .testEaxImm32
  else if b.extractLsb' 3 5 = 0b10111 then some (.movRImm32 (Reg.ofNumber (rmField b)))
  else if b = 0xC1 then some .groupC1
  else if b = 0xC3 then some .ret
  else if b = 0xC7 then some .groupC7
  else if b = 0xD1 then some .groupD1
  else if b = 0xD3 then some .groupD3
  else if b = 0xE8 then some .callRel32
  else if b = 0xE9 then some .jmpRel32
  else if b = 0xEB then some .jmpRel8
  else if b = 0xF4 then some .hlt
  else if b = 0xF7 then some .groupF7
  else if b = 0xFF then some .groupFF
  else none

/-- The two-byte opcode map after `0F`: `80`+cc, and nothing else (R109). -/
def secondByteOf (b : Byte) : Option Cond :=
  if b.extractLsb' 4 4 = 0x8 then some (Cond.ofNumber (b.extractLsb' 0 4)) else none

/-! ### The instruction a form selects -/

/-- The `r/m32, r32` form of an ALU operation (R115). -/
def aluRmR : AluOp → RM → Reg → Instr
  | .add => .addRmR
  | .or => .orRmR
  | .adc => .adcRmR
  | .sbb => .sbbRmR
  | .and => .andRmR
  | .sub => .subRmR
  | .xor => .xorRmR
  | .cmp => .cmpRmR

/-- The `r32, r/m32` form of an ALU operation (R115). -/
def aluRRm : AluOp → Reg → RM → Instr
  | .add => .addRRm
  | .or => .orRRm
  | .adc => .adcRRm
  | .sbb => .sbbRRm
  | .and => .andRRm
  | .sub => .subRRm
  | .xor => .xorRRm
  | .cmp => .cmpRRm

/-- The `eax, imm32` form of an ALU operation (R115). -/
def aluEaxImm32 : AluOp → Word → Instr
  | .add => .addEaxImm32
  | .or => .orEaxImm32
  | .adc => .adcEaxImm32
  | .sbb => .sbbEaxImm32
  | .and => .andEaxImm32
  | .sub => .subEaxImm32
  | .xor => .xorEaxImm32
  | .cmp => .cmpEaxImm32

/-- The `81 /n` form of an ALU operation (R115). -/
def aluRmImm32 : AluOp → RM → Word → Instr
  | .add => .addRmImm32
  | .or => .orRmImm32
  | .adc => .adcRmImm32
  | .sbb => .sbbRmImm32
  | .and => .andRmImm32
  | .sub => .subRmImm32
  | .xor => .xorRmImm32
  | .cmp => .cmpRmImm32

/-- The `83 /n` form of an ALU operation (R115). -/
def aluRmImm8 : AluOp → RM → Byte → Instr
  | .add => .addRmImm8
  | .or => .orRmImm8
  | .adc => .adcRmImm8
  | .sbb => .sbbRmImm8
  | .and => .andRmImm8
  | .sub => .subRmImm8
  | .xor => .xorRmImm8
  | .cmp => .cmpRmImm8

/-- The `D1` form of a shift (R115). -/
def shiftRm1 : ShiftOp → RM → Instr
  | .shl => .shlRm1
  | .shr => .shrRm1
  | .sar => .sarRm1

/-- The `C1` form of a shift (R115). -/
def shiftRmImm8 : ShiftOp → RM → Byte → Instr
  | .shl => .shlRmImm8
  | .shr => .shrRmImm8
  | .sar => .sarRmImm8

/-- The `D3` form of a shift (R115). -/
def shiftRmCl : ShiftOp → RM → Instr
  | .shl => .shlRmCl
  | .shr => .shrRmCl
  | .sar => .sarRmCl

/-- The short form of a conditional jump (45_control_flow.md R242). -/
def jccRel8 : Cond → Byte → Instr
  | .o => .joRel8
  | .no => .jnoRel8
  | .b => .jbRel8
  | .ae => .jaeRel8
  | .e => .jeRel8
  | .ne => .jneRel8
  | .be => .jbeRel8
  | .a => .jaRel8
  | .s => .jsRel8
  | .ns => .jnsRel8
  | .p => .jpRel8
  | .np => .jnpRel8
  | .l => .jlRel8
  | .ge => .jgeRel8
  | .le => .jleRel8
  | .g => .jgRel8

/-- The near form of a conditional jump (45_control_flow.md R242). -/
def jccRel32 : Cond → Word → Instr
  | .o => .joRel32
  | .no => .jnoRel32
  | .b => .jbRel32
  | .ae => .jaeRel32
  | .e => .jeRel32
  | .ne => .jneRel32
  | .be => .jbeRel32
  | .a => .jaRel32
  | .s => .jsRel32
  | .ns => .jnsRel32
  | .p => .jpRel32
  | .np => .jnpRel32
  | .l => .jlRel32
  | .ge => .jgeRel32
  | .le => .jleRel32
  | .g => .jgRel32

/-! ### The decoder (R112) -/

/-- Why the decoder gives no instruction. `outOfBytes` is a byte that cannot be fetched (`OutOfBoundsError`); every
other reason is a `DecodeError` (R111, 60_exceptions.md R308). -/
inductive DecodeStop where
  /-- The first byte is not in the one-byte map (R108). -/
  | firstByte
  /-- The byte after `0F` is not in the two-byte map (R109). -/
  | secondByte
  /-- The `/digit` of a group opcode is refused (R115). -/
  | digit
  /-- The ModRM form is refused (R103). -/
  | modRM
  /-- The instruction has a byte that lies outside the memory (20_memory.md R79). -/
  | outOfBytes
  deriving DecidableEq, Repr

/-- An instruction with the bytes that follow it, or the reason there is none. -/
abbrev DecodeResult := Except DecodeStop (Instr × List Byte)

/-- The next byte of the stream (R112). -/
def takeByte : List Byte → Except DecodeStop (Byte × List Byte)
  | [] => .error .outOfBytes
  | b :: bs => .ok (b, bs)

/-- The next four bytes of the stream as a little-endian value (R106, R112). -/
def takeWord : List Byte → Except DecodeStop (Word × List Byte)
  | b0 :: b1 :: b2 :: b3 :: bs => .ok (wordOfBytes b0 b1 b2 b3, bs)
  | _ => .error .outOfBytes

/-- The `r/m32` operand a ModRM byte and the displacement after it give; the SIB and absolute forms are refused
whatever the `reg` field is (R103). -/
def decodeRM (m : Byte) (bs : List Byte) : Except DecodeStop (RM × List Byte) :=
  let base := Reg.ofNumber (rmField m)
  if modField m = 3 then .ok (.reg base, bs)
  else if base = .esp then .error .modRM
  else if modField m = 0 then
    if base = .ebp then .error .modRM else .ok (.mem base, bs)
  else if modField m = 1 then do
    let (disp, bs) ← takeByte bs
    .ok (.memDisp8 base disp, bs)
  else do
    let (disp, bs) ← takeWord bs
    .ok (.memDisp32 base disp, bs)

/-- Format `OP_M` after the ModRM byte `m`, the `reg` field used up by the opcode (R101). -/
def decodeRmOnly (f : RM → Instr) (m : Byte) (bs : List Byte) : DecodeResult := do
  let (rm, bs) ← decodeRM m bs
  .ok (f rm, bs)

/-- Format `OP_M` after the ModRM byte `m`, the `reg` field a register (R101). -/
def decodeRmReg (f : RM → Reg → Instr) (m : Byte) (bs : List Byte) : DecodeResult := do
  let (rm, bs) ← decodeRM m bs
  .ok (f rm (Reg.ofNumber (regField m)), bs)

/-- Format `OP_M_I8` after the ModRM byte `m` (R101). -/
def decodeRmImm8 (f : RM → Byte → Instr) (m : Byte) (bs : List Byte) : DecodeResult := do
  let (rm, bs) ← decodeRM m bs
  let (imm, bs) ← takeByte bs
  .ok (f rm imm, bs)

/-- Format `OP_M_I32` after the ModRM byte `m` (R101). -/
def decodeRmImm32 (f : RM → Word → Instr) (m : Byte) (bs : List Byte) : DecodeResult := do
  let (rm, bs) ← decodeRM m bs
  let (imm, bs) ← takeWord bs
  .ok (f rm imm, bs)

/-- Formats `OP_I8` and `OP_REL8` after the opcode (R101). -/
def decodeByteField (f : Byte → Instr) (bs : List Byte) : DecodeResult := do
  let (v, bs) ← takeByte bs
  .ok (f v, bs)

/-- Formats `OP_I32`, `OP_R_I32`, `OP_REL32` and `ESC_REL32` after the opcode (R101). -/
def decodeWordField (f : Word → Instr) (bs : List Byte) : DecodeResult := do
  let (v, bs) ← takeWord bs
  .ok (f v, bs)

/-- Group `F7`: `/0` TEST, `/2` NOT, `/3` NEG; the other digits are refused (R115). -/
def decodeGroupF7 (m : Byte) (bs : List Byte) : DecodeResult :=
  if regField m = 0 then decodeRmImm32 .testRmImm32 m bs
  else if regField m = 2 then decodeRmOnly .notRm m bs
  else if regField m = 3 then decodeRmOnly .negRm m bs
  else .error .digit

/-- Group `FF`: `/0` INC, `/1` DEC; the other digits are refused (R115). -/
def decodeGroupFF (m : Byte) (bs : List Byte) : DecodeResult :=
  if regField m = 0 then decodeRmOnly .incRm m bs
  else if regField m = 1 then decodeRmOnly .decRm m bs
  else .error .digit

/-- Group `C7`: `/0` MOV; the other digits are refused (R115). -/
def decodeGroupC7 (m : Byte) (bs : List Byte) : DecodeResult :=
  if regField m = 0 then decodeRmImm32 .movRmImm32 m bs else .error .digit

/-- The groups `C1`, `D1`, `D3`: `k` decodes the rest of the shift the digit selects (R115). -/
def decodeShiftGroup (k : ShiftOp → Byte → List Byte → DecodeResult) (m : Byte) (bs : List Byte) : DecodeResult :=
  match ShiftOp.ofDigit? (regField m) with
  | some op => k op m bs
  | none => .error .digit

/-- The bytes after the opcode byte (R112): a ModRM byte is fetched, its digit judged, then its form, then the
displacement and the immediate are fetched. -/
def decodeRest (op : Opcode) (bs : List Byte) : DecodeResult :=
  match op with
  | .aluRmR n => do let (m, bs) ← takeByte bs; decodeRmReg (aluRmR n) m bs
  | .aluRRm n => do let (m, bs) ← takeByte bs; decodeRmReg (fun rm r => aluRRm n r rm) m bs
  | .aluEaxImm32 n => decodeWordField (aluEaxImm32 n) bs
  | .escape => do
    let (b1, bs) ← takeByte bs
    match secondByteOf b1 with
    | some cc => decodeWordField (jccRel32 cc) bs
    | none => .error .secondByte
  | .incR r => .ok (.incR r, bs)
  | .decR r => .ok (.decR r, bs)
  | .pushR r => .ok (.pushR r, bs)
  | .popR r => .ok (.popR r, bs)
  | .pushImm32 => decodeWordField .pushImm32 bs
  | .pushImm8 => decodeByteField .pushImm8 bs
  | .jccRel8 cc => decodeByteField (jccRel8 cc) bs
  | .group81 => do let (m, bs) ← takeByte bs; decodeRmImm32 (aluRmImm32 (AluOp.ofNumber (regField m))) m bs
  | .group83 => do let (m, bs) ← takeByte bs; decodeRmImm8 (aluRmImm8 (AluOp.ofNumber (regField m))) m bs
  | .testRmR => do let (m, bs) ← takeByte bs; decodeRmReg .testRmR m bs
  | .movRmR => do let (m, bs) ← takeByte bs; decodeRmReg .movRmR m bs
  | .movRRm => do let (m, bs) ← takeByte bs; decodeRmReg (fun rm r => .movRRm r rm) m bs
  | .nop => .ok (.nop, bs)
  | .testEaxImm32 => decodeWordField .testEaxImm32 bs
  | .movRImm32 r => decodeWordField (.movRImm32 r) bs
  | .groupC1 => do let (m, bs) ← takeByte bs; decodeShiftGroup (fun op => decodeRmImm8 (shiftRmImm8 op)) m bs
  | .ret => .ok (.ret, bs)
  | .groupC7 => do let (m, bs) ← takeByte bs; decodeGroupC7 m bs
  | .groupD1 => do let (m, bs) ← takeByte bs; decodeShiftGroup (fun op => decodeRmOnly (shiftRm1 op)) m bs
  | .groupD3 => do let (m, bs) ← takeByte bs; decodeShiftGroup (fun op => decodeRmOnly (shiftRmCl op)) m bs
  | .callRel32 => decodeWordField .callRel32 bs
  | .jmpRel32 => decodeWordField .jmpRel32 bs
  | .jmpRel8 => decodeByteField .jmpRel8 bs
  | .hlt => .ok (.hlt, bs)
  | .groupF7 => do let (m, bs) ← takeByte bs; decodeGroupF7 m bs
  | .groupFF => do let (m, bs) ← takeByte bs; decodeGroupFF m bs

/-- The instruction at the head of a byte stream and the bytes after it (R112). -/
def decode (bytes : List Byte) : DecodeResult := do
  let (b0, bs) ← takeByte bytes
  match opcodeOf b0 with
  | some op => decodeRest op bs
  | none => .error .firstByte

/-! ### The encoder -/

/-- The ModRM byte with the given fields (R102). -/
def modRMByte (mod : BitVec 2) (reg rm : BitVec 3) : Byte := mod ++ reg ++ rm

/-- The ModRM byte and displacement of an `r/m32` operand, with the `reg` field or `/digit` given (R102, R103). -/
def encodeRM (rm : RM) (reg : BitVec 3) : List Byte :=
  match rm with
  | .reg r => [modRMByte 3 reg r.number]
  | .mem base => [modRMByte 0 reg base.number]
  | .memDisp8 base disp => [modRMByte 1 reg base.number, disp]
  | .memDisp32 base disp => modRMByte 2 reg base.number :: bytesOfWord disp

/-- An opcode byte with the register number in its low three bits (R107). -/
def plusReg (hi : BitVec 5) (r : Reg) : Byte := hi ++ r.number

/-- The bytes of an instruction, row by row from spec/opcode_table.json (R101, R107, R108, R109, R115). -/
def encode : Instr → List Byte
  | .addRmR rm r => 0x01 :: encodeRM rm r.number
  | .addRRm r rm => 0x03 :: encodeRM rm r.number
  | .addEaxImm32 imm => 0x05 :: bytesOfWord imm
  | .addRmImm32 rm imm => 0x81 :: (encodeRM rm 0 ++ bytesOfWord imm)
  | .addRmImm8 rm imm => 0x83 :: (encodeRM rm 0 ++ [imm])
  | .orRmR rm r => 0x09 :: encodeRM rm r.number
  | .orRRm r rm => 0x0B :: encodeRM rm r.number
  | .orEaxImm32 imm => 0x0D :: bytesOfWord imm
  | .orRmImm32 rm imm => 0x81 :: (encodeRM rm 1 ++ bytesOfWord imm)
  | .orRmImm8 rm imm => 0x83 :: (encodeRM rm 1 ++ [imm])
  | .adcRmR rm r => 0x11 :: encodeRM rm r.number
  | .adcRRm r rm => 0x13 :: encodeRM rm r.number
  | .adcEaxImm32 imm => 0x15 :: bytesOfWord imm
  | .adcRmImm32 rm imm => 0x81 :: (encodeRM rm 2 ++ bytesOfWord imm)
  | .adcRmImm8 rm imm => 0x83 :: (encodeRM rm 2 ++ [imm])
  | .sbbRmR rm r => 0x19 :: encodeRM rm r.number
  | .sbbRRm r rm => 0x1B :: encodeRM rm r.number
  | .sbbEaxImm32 imm => 0x1D :: bytesOfWord imm
  | .sbbRmImm32 rm imm => 0x81 :: (encodeRM rm 3 ++ bytesOfWord imm)
  | .sbbRmImm8 rm imm => 0x83 :: (encodeRM rm 3 ++ [imm])
  | .andRmR rm r => 0x21 :: encodeRM rm r.number
  | .andRRm r rm => 0x23 :: encodeRM rm r.number
  | .andEaxImm32 imm => 0x25 :: bytesOfWord imm
  | .andRmImm32 rm imm => 0x81 :: (encodeRM rm 4 ++ bytesOfWord imm)
  | .andRmImm8 rm imm => 0x83 :: (encodeRM rm 4 ++ [imm])
  | .subRmR rm r => 0x29 :: encodeRM rm r.number
  | .subRRm r rm => 0x2B :: encodeRM rm r.number
  | .subEaxImm32 imm => 0x2D :: bytesOfWord imm
  | .subRmImm32 rm imm => 0x81 :: (encodeRM rm 5 ++ bytesOfWord imm)
  | .subRmImm8 rm imm => 0x83 :: (encodeRM rm 5 ++ [imm])
  | .xorRmR rm r => 0x31 :: encodeRM rm r.number
  | .xorRRm r rm => 0x33 :: encodeRM rm r.number
  | .xorEaxImm32 imm => 0x35 :: bytesOfWord imm
  | .xorRmImm32 rm imm => 0x81 :: (encodeRM rm 6 ++ bytesOfWord imm)
  | .xorRmImm8 rm imm => 0x83 :: (encodeRM rm 6 ++ [imm])
  | .cmpRmR rm r => 0x39 :: encodeRM rm r.number
  | .cmpRRm r rm => 0x3B :: encodeRM rm r.number
  | .cmpEaxImm32 imm => 0x3D :: bytesOfWord imm
  | .cmpRmImm32 rm imm => 0x81 :: (encodeRM rm 7 ++ bytesOfWord imm)
  | .cmpRmImm8 rm imm => 0x83 :: (encodeRM rm 7 ++ [imm])
  | .testRmR rm r => 0x85 :: encodeRM rm r.number
  | .testEaxImm32 imm => 0xA9 :: bytesOfWord imm
  | .testRmImm32 rm imm => 0xF7 :: (encodeRM rm 0 ++ bytesOfWord imm)
  | .incR r => [plusReg 0b01000 r]
  | .decR r => [plusReg 0b01001 r]
  | .incRm rm => 0xFF :: encodeRM rm 0
  | .decRm rm => 0xFF :: encodeRM rm 1
  | .notRm rm => 0xF7 :: encodeRM rm 2
  | .negRm rm => 0xF7 :: encodeRM rm 3
  | .shlRm1 rm => 0xD1 :: encodeRM rm 4
  | .shlRmImm8 rm imm => 0xC1 :: (encodeRM rm 4 ++ [imm])
  | .shlRmCl rm => 0xD3 :: encodeRM rm 4
  | .shrRm1 rm => 0xD1 :: encodeRM rm 5
  | .shrRmImm8 rm imm => 0xC1 :: (encodeRM rm 5 ++ [imm])
  | .shrRmCl rm => 0xD3 :: encodeRM rm 5
  | .sarRm1 rm => 0xD1 :: encodeRM rm 7
  | .sarRmImm8 rm imm => 0xC1 :: (encodeRM rm 7 ++ [imm])
  | .sarRmCl rm => 0xD3 :: encodeRM rm 7
  | .movRmR rm r => 0x89 :: encodeRM rm r.number
  | .movRRm r rm => 0x8B :: encodeRM rm r.number
  | .movRImm32 r imm => plusReg 0b10111 r :: bytesOfWord imm
  | .movRmImm32 rm imm => 0xC7 :: (encodeRM rm 0 ++ bytesOfWord imm)
  | .nop => [0x90]
  | .pushR r => [plusReg 0b01010 r]
  | .pushImm32 imm => 0x68 :: bytesOfWord imm
  | .pushImm8 imm => [0x6A, imm]
  | .popR r => [plusReg 0b01011 r]
  | .jmpRel8 rel => [0xEB, rel]
  | .jmpRel32 rel => 0xE9 :: bytesOfWord rel
  | .joRel8 rel => [0x70, rel]
  | .jnoRel8 rel => [0x71, rel]
  | .jbRel8 rel => [0x72, rel]
  | .jaeRel8 rel => [0x73, rel]
  | .jeRel8 rel => [0x74, rel]
  | .jneRel8 rel => [0x75, rel]
  | .jbeRel8 rel => [0x76, rel]
  | .jaRel8 rel => [0x77, rel]
  | .jsRel8 rel => [0x78, rel]
  | .jnsRel8 rel => [0x79, rel]
  | .jpRel8 rel => [0x7A, rel]
  | .jnpRel8 rel => [0x7B, rel]
  | .jlRel8 rel => [0x7C, rel]
  | .jgeRel8 rel => [0x7D, rel]
  | .jleRel8 rel => [0x7E, rel]
  | .jgRel8 rel => [0x7F, rel]
  | .joRel32 rel => 0x0F :: 0x80 :: bytesOfWord rel
  | .jnoRel32 rel => 0x0F :: 0x81 :: bytesOfWord rel
  | .jbRel32 rel => 0x0F :: 0x82 :: bytesOfWord rel
  | .jaeRel32 rel => 0x0F :: 0x83 :: bytesOfWord rel
  | .jeRel32 rel => 0x0F :: 0x84 :: bytesOfWord rel
  | .jneRel32 rel => 0x0F :: 0x85 :: bytesOfWord rel
  | .jbeRel32 rel => 0x0F :: 0x86 :: bytesOfWord rel
  | .jaRel32 rel => 0x0F :: 0x87 :: bytesOfWord rel
  | .jsRel32 rel => 0x0F :: 0x88 :: bytesOfWord rel
  | .jnsRel32 rel => 0x0F :: 0x89 :: bytesOfWord rel
  | .jpRel32 rel => 0x0F :: 0x8A :: bytesOfWord rel
  | .jnpRel32 rel => 0x0F :: 0x8B :: bytesOfWord rel
  | .jlRel32 rel => 0x0F :: 0x8C :: bytesOfWord rel
  | .jgeRel32 rel => 0x0F :: 0x8D :: bytesOfWord rel
  | .jleRel32 rel => 0x0F :: 0x8E :: bytesOfWord rel
  | .jgRel32 rel => 0x0F :: 0x8F :: bytesOfWord rel
  | .callRel32 rel => 0xE8 :: bytesOfWord rel
  | .ret => [0xC3]
  | .hlt => [0xF4]

/-- `len`, the number of bytes of an instruction (R113). -/
def Instr.length (i : Instr) : Nat := (encode i).length

/-! ### The opcode table's numbering of bits -/

/-- The longest instruction is 10 bytes (R113). -/
def maxLength : Nat := 10

/-- The ten bytes of a table word of `nbits` bits: bit 0 is the least significant bit of the first byte, and the bits
from `nbits` up are 0. -/
def tableBytes (nbits w : Nat) : List Byte :=
  (List.range maxLength).map fun k => BitVec.ofNat 8 (w % 2 ^ nbits / 2 ^ (8 * k))

/-- The instruction the decoder reads from a table word, `none` where it refuses. -/
def decodeTableWord (nbits w : Nat) : Option Instr :=
  match decode (tableBytes nbits w) with
  | .ok (i, _) => some i
  | .error _ => none

end Sys2Proof
end

