-- ==== Sys2Proof/Config.lean ====
section
/-! DEFINITION. What the spec leaves to the implementation or to the environment: `MEM_START` (00_scope.md R8,
92_eei_decisions.md D4), the memory size of the state after reset, and the free values `ArchUndef`
(40_alu_flags.md R162, D14). -/

namespace Sys2Proof

/-- The six flags of `eflags` (10_state.md R26). Their bit positions are in Machine/Flags.lean. -/
inductive Flag where
  | cf | pf | af | zf | sf | of
  deriving DecidableEq, Repr

/-- The mnemonics after which the spec calls a flag architecturally undefined (40_alu_flags.md R162;
93_implementation_defined.md I1 to I3): the first argument of `ArchUndef`. -/
inductive UndefMnemonic where
  | or | and | xor | test | shl | shr | sar
  deriving DecidableEq, Repr

/-- `MEM_START`, the base address of the memory: "named parameter, natural number, default 0" (00_scope.md R8,
D4, OPEN). It is an ARGUMENT of `Machine.hostInitialize`; this default is used for `State.reset` alone
(notes/assumptions/2.md). -/
def Config.memStart : Nat := 0

/-- `memSize` of the `Initialize` whose result is `State.reset`. DESIGN CHOICE: the spec makes `memSize` an
argument of `Initialize` without a default; 0x100 is the size 95_test_vectors.md section 1 uses
(notes/assumptions/1.md). -/
def Config.resetMemSize : Nat := 0x100

/-- `ArchUndef(mnemonic, flag, a, b)`: the bit written to a flag that the x86 architecture leaves undefined
(40_alu_flags.md R162, D14). The fourth argument is the second operand, or a shift's masked count. A FREE VALUE:
no body, so nothing is known of it but that it is a function of these four arguments
(notes/assumptions/3.md). -/
opaque Config.archUndef : UndefMnemonic → Flag → Word → Word → Bool

end Sys2Proof
end

