-- ==== Sys2Proof/Machine/State.lean ====
section
/-! DEFINITION. The state of the visulator subset-x86 core as plain data: "eight general registers, `eip`,
`eflags`, the memory bytes, the run state with its latched fault kind, and the section bounds fixed at
initialisation. Nothing else is state" (10_state.md, opening; R20 to R35). -/

namespace Sys2Proof.Machine

/-- The four errors of the machine (60_exceptions.md R305 to R309). An error is TAKEN, as R305 describes it: the run
state becomes `faulted`, `State.faultKind` latches the kind, and the step answers a NEXT state. So no instruction
and no step ever ends in `Host.Outcome.fault`; a host `Load` or `Store` returns `outOfBounds` that way, since R307 says
it is only returned and the run state is untouched (notes/assumptions/4.md: safe, the spec's own effect). -/
inductive Fault where
  /-- Raised by `hostInitialize` alone, when the sections do not fit (R306). Safe: the spec's own error. -/
  | layoutOverflow
  /-- Raised by a fetch, a data access, a stack access or a host port, for any byte outside
  `[memStart, memEnd)` (R307). Safe: the spec's own error. -/
  | outOfBounds
  /-- Raised by the decode phase of a step (R308). Safe: the spec's own error. -/
  | decode
  /-- Raised by a step outside `ready` (R301, R309). Safe: the spec's own error. -/
  | invalidState
  deriving DecidableEq, Repr

/-- Why the model gives no meaning. -/
inductive Refusal where
  /-- An instruction without a meaning, refused by name in `exec`. Safe. No arm answers it: every instruction of the
  opcode table has its meaning. -/
  | notModelled (mnemonic : String)
  /-- A host memory port or the register view used while the run state is `uninitialized` or `running`: R77 and R36
  give these in `ready`, `halted` and `faulted` only. Safe: the model says nothing of it. -/
  | hostPortClosed
  deriving DecidableEq, Repr

/-- The run states (10_state.md R31). `running` exists only inside one step. -/
inductive RunState where
  | uninitialized | ready | running | halted | faulted
  deriving DecidableEq, Repr

/-- The eight general registers, 32 bits each (10_state.md R20). Read and written through `Regs.get` and `Regs.set`. -/
structure Regs where
  eax : Word
  ecx : Word
  edx : Word
  ebx : Word
  esp : Word
  ebp : Word
  esi : Word
  edi : Word
  deriving DecidableEq, Repr

/-- The seven addresses that `Initialize` fixes for the run (10_state.md R32), as natural numbers: `memEnd` may be
2^32, and the bounds test does not wrap (20_memory.md R80). -/
structure Bounds where
  memStart  : Nat
  textStart : Nat
  textEnd   : Nat
  dataStart : Nat
  bssStart  : Nat
  bssEnd    : Nat
  memEnd    : Nat
  deriving DecidableEq, Repr

/-- The contents of the memory: the cells whose byte is not the one an unlisted address holds, at strictly rising
addresses (20_memory.md R34, R60, R64). Which addresses EXIST is said by `Bounds`. -/
abbrev Memory := List Host.Cell

/-- What a cell that neither `Initialize` nor a store wrote holds: 0x00 (20_memory.md R64, D7). -/
def Memory.unlisted : Byte := 0x00

/-- The one canonical form of a memory: strictly rising addresses, and no entry equal to what an unlisted address
holds, so that equal memories are equal data. -/
abbrev Memory.wf (m : Memory) : Prop :=
  m.Pairwise (fun c d => c.1 < d.1) ∧ ∀ c ∈ m, c.2 ≠ Memory.unlisted

/-- The whole state (10_state.md, R20 to R35). -/
structure State where
  /-- The general registers (R20). -/
  regs : Regs
  /-- The instruction pointer (R24). -/
  eip : Word
  /-- The flags register, all 32 bits; the bits that are no flag keep what `Initialize` put there (R26, R27). -/
  eflags : Word
  /-- The memory bytes (R34). -/
  mem : Memory
  /-- The run state (R31). -/
  runState : RunState
  /-- The kind of the first error of the run; `none` is the spec's `None` (R31, D23). -/
  faultKind : Option Fault
  /-- The section bounds (R32). -/
  bounds : Bounds
  deriving DecidableEq, Repr

/-- The machine after reset. "The only reset of this hardware is the host operation `Initialize`" (70_reset_and_hazards.md
R340): this is the state `Initialize` leaves with the least a host can give: an empty `text`, `data`, `bss` and
`stack`, no `regs`, `entryPoint` = `MEM_START`, and `memSize` = 0x100 (DESIGN CHOICE, notes/assumptions/1.md: unsafe).
Registers 0 and `eflags` 0x00000000, `esp` = `memEnd` - 0, `faultKind` `None` (R35); an empty text leaves the machine
`halted` (R303). A program comes in by a host `Initialize` (`hostInitialize`; `withFetchWord` stands for it). -/
def State.reset : State where
  regs :=
    { eax := 0, ecx := 0, edx := 0, ebx := 0
      esp := BitVec.ofNat 32 (Config.memStart + Config.resetMemSize)
      ebp := 0, esi := 0, edi := 0 }
  eip := BitVec.ofNat 32 Config.memStart
  eflags := 0x00000000
  mem := []
  runState := .halted
  faultKind := none
  bounds :=
    { memStart := Config.memStart, textStart := Config.memStart, textEnd := Config.memStart
      dataStart := Config.memStart, bssStart := Config.memStart, bssEnd := Config.memStart
      memEnd := Config.memStart + Config.resetMemSize }

end Sys2Proof.Machine
end

