-- ==== Sys2Proof/Machine/Ops.lean ====
section
/-! DEFINITION. The named operations over registers, memory and run state: register accessors, the byte-level `Load`
and `Store` (20_memory.md R65 to R68), taking an error (60_exceptions.md R305), `Initialize`
(70_reset_and_hazards.md R340, 20_memory.md R62), the phases of a step (R300 to R303) and the host's ports
(20_memory.md R77, 10_state.md R36). -/

namespace Sys2Proof.Machine

/-! ### Registers -/

/-- `x[r]` (00_scope.md R10, 10_state.md R22). -/
def Regs.get (g : Regs) : Reg → Word
  | .eax => g.eax
  | .ecx => g.ecx
  | .edx => g.edx
  | .ebx => g.ebx
  | .esp => g.esp
  | .ebp => g.ebp
  | .esi => g.esi
  | .edi => g.edi

/-- `x[r] <- v` (00_scope.md R10). No register is hard-wired (10_state.md R21). -/
def Regs.set (g : Regs) (r : Reg) (v : Word) : Regs :=
  match r with
  | .eax => { g with eax := v }
  | .ecx => { g with ecx := v }
  | .edx => { g with edx := v }
  | .ebx => { g with ebx := v }
  | .esp => { g with esp := v }
  | .ebp => { g with ebp := v }
  | .esi => { g with esi := v }
  | .edi => { g with edi := v }

/-- A general register of the state. -/
def State.reg (s : State) (r : Reg) : Word := s.regs.get r

/-- The state with a general register written. -/
def State.setReg (s : State) (r : Reg) (v : Word) : State := { s with regs := s.regs.set r v }

/-- `eip <- target`; every value written to `eip` is already reduced modulo 2^32 (20_memory.md R80). -/
def State.setEip (s : State) (target : Word) : State := { s with eip := target }

/-- `next` for an instruction of `len` bytes: `(eip + len) mod 2^32` (00_scope.md R10, 10_state.md R24). -/
def State.nextEip (s : State) (len : Nat) : Word := s.eip + BitVec.ofNat 32 len

/-- `eip <- next`, the default advance of an instruction of `len` bytes (10_state.md R25). -/
def State.advance (s : State) (len : Nat) : State := s.setEip (s.nextEip len)

/-! ### Memory cells -/

/-- The byte a cell holds (20_memory.md R78). -/
def Memory.read : Memory → Nat → Byte
  | [], _ => Memory.unlisted
  | (k, w) :: m, a => if a = k then w else Memory.read m a

/-- A cell written; the result is in canonical form when the argument is. -/
def Memory.write : Memory → Nat → Byte → Memory
  | [], a, v => if v = Memory.unlisted then [] else [(a, v)]
  | (k, w) :: m, a, v =>
    if a < k then
      if v = Memory.unlisted then (k, w) :: m else (a, v) :: (k, w) :: m
    else if a = k then
      if v = Memory.unlisted then m else (a, v) :: m
    else (k, w) :: Memory.write m a v

/-- The `n` cells from `a` up, in ascending address order. -/
def Memory.readRun (m : Memory) (a : Nat) : Nat → List Byte
  | 0 => []
  | n + 1 => m.read a :: Memory.readRun m (a + 1) n

/-- Bytes written from `a` up: byte `k` goes to the cell at `a + k` (20_memory.md R66). -/
def Memory.writeRun (m : Memory) (a : Nat) : List Byte → Memory
  | [] => m
  | v :: vs => Memory.writeRun (m.write a v) (a + 1) vs

/-! ### `Load` and `Store` (20_memory.md R65 to R68) -/

/-- The `n` bytes from `a` all lie in `[memStart, memEnd)`; the sum is a natural number, without wrap-around
(R65, R80). -/
def Bounds.covers (b : Bounds) (a n : Nat) : Bool := b.memStart ≤ a && a + n ≤ b.memEnd

/-- `Load(address, size)` (R65). For a `size` of 0, which R65 leaves out ("`size` is at least 1") and no instruction and no
fetch asks for, the test and the run are those of the other sizes: an empty run when `memStart <= address <= memEnd`, else
`OutOfBoundsError` (DESIGN CHOICE, notes/assumptions/19.md). -/
def State.load (s : State) (a n : Nat) : Except Fault (List Byte) :=
  if s.bounds.covers a n then .ok (s.mem.readRun a n) else .error .outOfBounds

/-- `Store(address, bytes)`: the check precedes the first byte write (R66). -/
def State.store (s : State) (a : Nat) (bytes : List Byte) : Except Fault State :=
  if s.bounds.covers a bytes.length then .ok { s with mem := s.mem.writeRun a bytes } else .error .outOfBounds

/-- The little-endian value of a run of bytes (R67). -/
def wordOfRun : List Byte → Word
  | [b0] => wordOfBytes b0 0 0 0
  | [b0, b1, b2, b3] => wordOfBytes b0 b1 b2 b3
  | _ => 0

/-- `MemRead(address, 4)` (R67). Any address will do: no access needs alignment (R69). -/
def State.memRead (s : State) (a : Word) : Except Fault Word :=
  (s.load a.toNat 4).map wordOfRun

/-- `MemWrite(address, 4, v)` (R68). -/
def State.memWrite (s : State) (a v : Word) : Except Fault State :=
  s.store a.toNat (bytesOfWord v)

/-! ### Taking an error (60_exceptions.md R305) -/

/-- `raise <Error>`: writes already made stay, `eip` is not advanced, the run state becomes `faulted`, and the kind is
latched if none was (R305). There is no handler, no vector and no saved state, and so no return: a new `Initialize`
(`hostInitialize`) is the only way out (R312, R313). -/
def State.raise (s : State) (f : Fault) : State :=
  { s with runState := .faulted, faultKind := s.faultKind <|> some f }

/-- An operation that may raise an error, and what follows it: on an error the state as it is at this point raises it
(00_scope.md R11). -/
def State.attempt {α : Type} (s : State) (x : Except Fault α) (k : α → State) : State :=
  match x with
  | .error f => s.raise f
  | .ok a => k a

/-! ### The phases of a step (60_exceptions.md R300) -/

/-- `Fetch8` of at most `n` bytes from `a` up, at natural numbers without wrap, each bounds-checked against the memory
and not the text; the list ends where a fetch would raise `OutOfBoundsError` (20_memory.md R79). -/
def State.fetchRun (s : State) : Nat → Nat → List Byte
  | 0, _ => []
  | n + 1, a =>
    match s.load a 1 with
    | .ok bs => bs ++ State.fetchRun s n (a + 1)
    | .error _ => []

/-- The error a decoder's refusal stands for (60_exceptions.md R307, R308). -/
def faultOfStop : DecodeStop → Fault
  | .firstByte => .decode
  | .secondByte => .decode
  | .digit => .decode
  | .modRM => .decode
  | .outOfBytes => .outOfBounds

/-- "Decode at eip": the instruction read afresh from memory at `eip`, or the error (30_encoding.md R112, R116).
An instruction has at most ten bytes (R113), and a decode reads no byte after the one that settles it. -/
def State.fetchDecode (s : State) : Except Fault Instr :=
  match decode (s.fetchRun maxLength s.eip.toNat) with
  | .ok (i, _) => .ok i
  | .error stop => .error (faultOfStop stop)

/-- `runState <- Running` (R300). -/
def State.enter (s : State) : State := { s with runState := .running }

/-- `textStart <= eip < textEnd` (R303). -/
def State.eipInText (s : State) : Bool :=
  s.bounds.textStart ≤ s.eip.toNat && s.eip.toNat < s.bounds.textEnd

/-- The end of a completed step (R300, R303): `HLT` has already halted the machine, an error makes no halt check, and
otherwise the new `eip` decides between `ready` and `halted`. -/
def State.haltCheck (s : State) : State :=
  match s.runState with
  | .running => { s with runState := if s.eipInText then .ready else .halted }
  | .uninitialized => s
  | .ready => s
  | .halted => s
  | .faulted => s

/-- The halt check at the end of an instruction that answers a next state. -/
def endStep : Host.Outcome State Fault Refusal → Host.Outcome State Fault Refusal
  | .next s => .next s.haltCheck
  | .fault f => .fault f
  | .refused r => .refused r

/-- `Step()` over the meaning of instructions (R300, R301): the run-state test, the decode phase, the instruction, the
halt check. -/
def stepWith (run : Instr → State → Host.Outcome State Fault Refusal) (s : State) :
    Host.Outcome State Fault Refusal :=
  if s.runState = .ready then
    match s.enter.fetchDecode with
    | .ok i => endStep (run i s.enter)
    | .error f => .next (s.enter.raise f)
  else .next (s.raise .invalidState)

/-! ### `Initialize` (70_reset_and_hazards.md R340) -/

/-- The ten names of the register view (10_state.md R36). -/
inductive ViewName where
  | eax | ecx | edx | ebx | esp | ebp | esi | edi | eip | eflags
  deriving DecidableEq, Repr

/-- The options of `Initialize` (R340). `regs` is a partial map from the ten names to words, as a list of entries. -/
structure InitOptions where
  memSize    : Nat
  entryPoint : Word
  text       : List Byte
  data       : List Byte := []
  bss        : Nat := 0
  stack      : List Byte := []
  regs       : List (ViewName × Word) := []
  deriving DecidableEq, Repr

/-- The two tests of R62 (the second is D8), and the legal range of D37: outside it the model gives the
`LayoutOverflowError` that D37 and I8 allow (notes/assumptions/6.md). -/
def InitOptions.fits (o : InitOptions) (memStart : Nat) : Bool :=
  memStart + o.memSize ≤ 2 ^ 32 &&
  o.text.length + o.data.length + o.bss < o.memSize &&
  o.text.length + o.data.length + o.bss + o.stack.length ≤ o.memSize

/-- The section bounds of R62. -/
def InitOptions.layout (o : InitOptions) (memStart : Nat) : Bounds where
  memStart := memStart
  textStart := memStart
  textEnd := memStart + o.text.length
  dataStart := memStart + o.text.length
  bssStart := memStart + o.text.length + o.data.length
  bssEnd := memStart + o.text.length + o.data.length + o.bss
  memEnd := memStart + o.memSize

/-- The stack pointer memory initialisation returns: `memEnd - len(stack)` (R62, R63). -/
def InitOptions.stackStart (o : InitOptions) (memStart : Nat) : Nat :=
  memStart + o.memSize - o.stack.length

/-- The memory after initialisation: zero but for `text`, `data` and `stack` (R62, R63, R64). -/
def InitOptions.memory (o : InitOptions) (memStart : Nat) : Memory :=
  let b := o.layout memStart
  ((Memory.writeRun [] b.textStart o.text).writeRun b.dataStart o.data).writeRun (o.stackStart memStart) o.stack

/-- `register name <- value` for one entry of `options.regs`; an entry for `eip` is ignored (R340). -/
def State.preset (s : State) : ViewName × Word → State
  | (.eax, v) => s.setReg .eax v
  | (.ecx, v) => s.setReg .ecx v
  | (.edx, v) => s.setReg .edx v
  | (.ebx, v) => s.setReg .ebx v
  | (.esp, v) => s.setReg .esp v
  | (.ebp, v) => s.setReg .ebp v
  | (.esi, v) => s.setReg .esi v
  | (.edi, v) => s.setReg .edi v
  | (.eip, _) => s
  | (.eflags, v) => { s with eflags := v }

/-- The state a successful `Initialize` leaves before its halt check, in the order of R340: registers and `eflags` 0,
`esp` the returned stack pointer, then the presets, then `eip`. -/
def InitOptions.loaded (o : InitOptions) (memStart : Nat) : State :=
  let zeroed : State :=
    { regs := ⟨0, 0, 0, 0, BitVec.ofNat 32 (o.stackStart memStart), 0, 0, 0⟩
      eip := 0, eflags := 0x00000000, mem := o.memory memStart
      runState := .running, faultKind := none, bounds := o.layout memStart }
  (o.regs.foldl State.preset zeroed).setEip o.entryPoint

/-- `Initialize(options)` with `MEM_START` = `memStart`, the only reset, accepted in every run state (R340, D19). When
the sections do not fit it raises `LayoutOverflowError` (60_exceptions.md R306); what the registers and the memory then
hold is unspecified, and the model keeps what was there, as I5 allows (notes/assumptions/5.md). -/
def hostInitialize (memStart : Nat) (o : InitOptions) (s : State) : State :=
  if o.fits memStart then (o.loaded memStart).haltCheck
  else { s with runState := .faulted, faultKind := some .layoutOverflow }

/-! ### The host's ports and what a host operation returns -/

/-- The run states in which the host may use the register view and the memory ports (10_state.md R36,
20_memory.md R77). -/
def State.portsOpen (s : State) : Bool :=
  match s.runState with
  | .ready => true
  | .halted => true
  | .faulted => true
  | .uninitialized => false
  | .running => false

/-- The host's `Load`: an error is returned to the host and changes nothing (20_memory.md R77). A size of 0 is the model's
choice (notes/assumptions/19.md). -/
def hostLoad (a n : Nat) (s : State) : Host.Outcome (List Byte) Fault Refusal :=
  if s.portsOpen then
    match s.load a n with
    | .ok bytes => .next bytes
    | .error f => .fault f
  else .refused .hostPortClosed

/-- The host's `Store`: an error is returned to the host and changes nothing, the run state included (20_memory.md
R77). -/
def hostStore (a : Nat) (bytes : List Byte) (s : State) : Host.Outcome State Fault Refusal :=
  if s.portsOpen then
    match s.store a bytes with
    | .ok t => .next t
    | .error f => .fault f
  else .refused .hostPortClosed

/-- An entry of the register view (10_state.md R36). -/
def State.view (s : State) : ViewName → Word
  | .eax => s.reg .eax
  | .ecx => s.reg .ecx
  | .edx => s.reg .edx
  | .ebx => s.reg .ebx
  | .esp => s.reg .esp
  | .ebp => s.reg .ebp
  | .esi => s.reg .esi
  | .edi => s.reg .edi
  | .eip => s.eip
  | .eflags => s.eflags

/-- The host's read of the register view: it changes nothing (10_state.md R36). -/
def hostView (n : ViewName) (s : State) : Host.Outcome Word Fault Refusal :=
  if s.portsOpen then .next (s.view n) else .refused .hostPortClosed

/-- What `Initialize` and `Step` return to the host (60_exceptions.md R304). -/
inductive HostResult where
  | ready | halted | error (f : Fault)
  deriving DecidableEq, Repr

/-- What the host is told by a `Step` that takes the machine from `s` to `t` (R304, R305): outside `ready` it is
`InvalidStateError`, whatever kind is latched; otherwise the new run state, or the error just latched. No operation ends
in the states for which it is `none`. -/
def stepResult (s t : State) : Option HostResult :=
  if s.runState = .ready then
    match t.runState, t.faultKind with
    | .ready, _ => some .ready
    | .halted, _ => some .halted
    | .faulted, some f => some (.error f)
    | _, _ => none
  else some (.error .invalidState)

/-- What the host is told by an `Initialize` that ends in `t` (R304, R306, R340). -/
def initializeResult (t : State) : Option HostResult :=
  match t.runState, t.faultKind with
  | .ready, _ => some .ready
  | .halted, _ => some .halted
  | .faulted, some f => some (.error f)
  | _, _ => none

/-! ### Placing an instruction where the next step fetches it -/

/-- The bounds with `[lo, hi)` inside the memory and the text, the later sections moved up and a byte left above
them. -/
def Bounds.withText (b : Bounds) (lo hi : Nat) : Bounds where
  memStart := min b.memStart lo
  textStart := min b.textStart lo
  textEnd := max b.textEnd hi
  dataStart := max b.dataStart hi
  bssStart := max b.bssStart hi
  bssEnd := max b.bssEnd hi
  memEnd := max b.memEnd (hi + 1)

/-- Bytes placed as text at `eip`, and the machine made ready: what an `Initialize` with these bytes as its text does
to the fetch, with everything else as it was (notes/assumptions/7.md). -/
def State.placeAtEip (s : State) (bytes : List Byte) : State :=
  { s with
    mem := s.mem.writeRun s.eip.toNat bytes
    bounds := s.bounds.withText s.eip.toNat (s.eip.toNat + bytes.length)
    runState := .ready
    faultKind := none }

end Sys2Proof.Machine
end

