-- ==== Sys2Proof/Machine/Flags.lean ====
section
/-! DEFINITION. The flags of `eflags` and the ALU cores with the exact value of each flag they write (10_state.md
R26 to R28, 40_alu_flags.md R150 to R162, 45_control_flow.md R243). -/

namespace Sys2Proof.Machine

/-! ### Flags of `eflags` -/

/-- The bit of `eflags` that holds a flag (10_state.md R26). -/
def flagBit : Flag → Nat
  | .cf => 0
  | .pf => 2
  | .af => 4
  | .zf => 6
  | .sf => 7
  | .of => 11

/-- A word with one bit written and the others kept (10_state.md R27). -/
def writeBit (w : Word) (i : Nat) (b : Bool) : Word :=
  if b then w ||| BitVec.twoPow 32 i else w &&& ~~~ BitVec.twoPow 32 i

/-- `TestFlag` on a flags word (10_state.md R28). -/
def flagOf (eflags : Word) (f : Flag) : Bool := eflags.getLsbD (flagBit f)

/-- `TestFlag(f)`, the value of a flag in the state (10_state.md R28). -/
def State.testFlag (s : State) (f : Flag) : Bool := flagOf s.eflags f

/-- `SetFlag(f, b)`: one bit of `eflags` changes (10_state.md R28). -/
def State.setFlag (s : State) (f : Flag) (b : Bool) : State :=
  { s with eflags := writeBit s.eflags (flagBit f) b }

/-- `SetFlagsWord(value)`: all 32 bits verbatim (10_state.md R28). -/
def State.setFlagsWord (s : State) (w : Word) : State := { s with eflags := w }

/-- The flags an operation writes: `none` for a flag it leaves alone (40_alu_flags.md R150). -/
structure FlagMap where
  cf : Option Bool := none
  pf : Option Bool := none
  af : Option Bool := none
  zf : Option Bool := none
  sf : Option Bool := none
  of : Option Bool := none
  deriving DecidableEq, Repr

/-- The entry of a flag map for one flag. -/
def FlagMap.get (m : FlagMap) : Flag → Option Bool
  | .cf => m.cf
  | .pf => m.pf
  | .af => m.af
  | .zf => m.zf
  | .sf => m.sf
  | .of => m.of

/-- One flag of a flags word written where the map names it. -/
def writeFlag? (w : Word) (f : Flag) : Option Bool → Word
  | none => w
  | some b => writeBit w (flagBit f) b

/-- A flags word after `flags <- m`: each flag named is written, every other bit keeps its value (R161). -/
def FlagMap.apply (m : FlagMap) (w : Word) : Word :=
  let w := writeFlag? w .cf m.cf
  let w := writeFlag? w .pf m.pf
  let w := writeFlag? w .af m.af
  let w := writeFlag? w .zf m.zf
  let w := writeFlag? w .sf m.sf
  writeFlag? w .of m.of

/-- `flags <- m` (R161). -/
def State.writeFlags (s : State) (m : FlagMap) : State := { s with eflags := m.apply s.eflags }

/-! ### The ALU (40_alu_flags.md) -/

/-- What the ALU puts out: a result and the flags it writes (R150). -/
structure AluResult where
  value : Word
  flags : FlagMap
  deriving DecidableEq, Repr

/-- `ZF`: the result is zero (R151). -/
def zeroFlag (r : Word) : Bool := r == 0

/-- `SF`: the most significant bit of the result (R151). -/
def signFlag (r : Word) : Bool := r.msb

/-- `PF`: the number of 1 bits in `r[7:0]` is even (R151). -/
def parityFlag (r : Word) : Bool := (List.range 8).countP (fun k => r.getLsbD k) % 2 == 0

/-- The flag map of an operation that writes all of `CF`, `OF`, `AF` as given and `ZF`, `SF`, `PF` from the result
(R151). -/
def allFlags (r : Word) (cf of af : Bool) : FlagMap where
  cf := some cf
  pf := some (parityFlag r)
  af := some af
  zf := some (zeroFlag r)
  sf := some (signFlag r)
  of := some of

/-- `AddCore(a, b, cin)` (R152). -/
def addCore (a b : Word) (cin : Bool) : AluResult :=
  let s := a.toNat + b.toNat + cin.toNat
  let r := BitVec.ofNat 32 s
  { value := r
    flags := allFlags r
      (cf := decide (2 ^ 32 ≤ s))
      (of := ((a ^^^ r) &&& (b ^^^ r)).msb)
      (af := (a ^^^ b ^^^ r).getLsbD 4) }

/-- `SubCore(a, b, bin)`: `a - b - bin`; `CF` is the borrow (R153). -/
def subCore (a b : Word) (bin : Bool) : AluResult :=
  let r := a - b - BitVec.ofNat 32 bin.toNat
  { value := r
    flags := allFlags r
      (cf := decide (a.toNat < b.toNat + bin.toNat))
      (of := ((a ^^^ b) &&& (a ^^^ r)).msb)
      (af := (a ^^^ b ^^^ r).getLsbD 4) }

/-- `LogicCore(r)` of operands `a` and `b`: `CF` = `OF` = 0, and `AF` is the free value `ArchUndef` of the mnemonic
(R154, R162). -/
def logicCore (m : UndefMnemonic) (a b r : Word) : AluResult :=
  { value := r, flags := allFlags r (cf := false) (of := false) (af := Config.archUndef m .af a b) }

/-- `IncCore(a)`: `AddCore(a, 1, 0)` with `CF` removed from the flag map (R155). -/
def incCore (a : Word) : AluResult :=
  let x := addCore a 1 false
  { x with flags := { x.flags with cf := none } }

/-- `DecCore(a)`: `SubCore(a, 1, 0)` with `CF` removed from the flag map (R155). -/
def decCore (a : Word) : AluResult :=
  let x := subCore a 1 false
  { x with flags := { x.flags with cf := none } }

/-- `NegCore(a)`: `SubCore(0, a, 0)` (R156). -/
def negCore (a : Word) : AluResult := subCore 0 a false

/-- The complement, which writes no flag (42_unary_shift.md R204). -/
def notCore (a : Word) : AluResult := { value := ~~~ a, flags := {} }

/-- `OF` after a shift by `c`: defined for a count of 1 only, else the free value `ArchUndef` (R157 to R159, R162). -/
def shiftOverflow (m : UndefMnemonic) (a : Word) (c : Nat) (one : Bool) : Bool :=
  if c = 1 then one else Config.archUndef m .of a (BitVec.ofNat 32 c)

/-- `AF` after a shift by `c`: the free value `ArchUndef` (R157 to R159, R162). -/
def shiftAux (m : UndefMnemonic) (a : Word) (c : Nat) : Bool := Config.archUndef m .af a (BitVec.ofNat 32 c)

/-- `ShlCore(a, c)` for a count of 1 to 31 (R157). -/
def shlCore (a : Word) (c : Nat) : AluResult :=
  let r := a <<< c
  let cf := a.getLsbD (32 - c)
  { value := r
    flags := allFlags r (cf := cf) (of := shiftOverflow .shl a c (r.msb ^^ cf)) (af := shiftAux .shl a c) }

/-- `ShrCore(a, c)` for a count of 1 to 31: zeros enter at the top (R158). -/
def shrCore (a : Word) (c : Nat) : AluResult :=
  let r := a >>> c
  { value := r
    flags := allFlags r (cf := a.getLsbD (c - 1)) (of := shiftOverflow .shr a c a.msb) (af := shiftAux .shr a c) }

/-- `SarCore(a, c)` for a count of 1 to 31: copies of the sign bit enter at the top (R159). -/
def sarCore (a : Word) (c : Nat) : AluResult :=
  let r := a.sshiftRight c
  { value := r
    flags := allFlags r (cf := a.getLsbD (c - 1)) (of := shiftOverflow .sar a c false) (af := shiftAux .sar a c) }

/-! ### Conditions (45_control_flow.md R243) -/

/-- `Cond(cc, eflags)` (R243). -/
def condHolds (cc : Cond) (eflags : Word) : Bool :=
  let flag := flagOf eflags
  match cc with
  | .o => flag .of
  | .no => !flag .of
  | .b => flag .cf
  | .ae => !flag .cf
  | .e => flag .zf
  | .ne => !flag .zf
  | .be => flag .cf || flag .zf
  | .a => !flag .cf && !flag .zf
  | .s => flag .sf
  | .ns => !flag .sf
  | .p => flag .pf
  | .np => !flag .pf
  | .l => flag .sf != flag .of
  | .ge => flag .sf == flag .of
  | .le => flag .zf || flag .sf != flag .of
  | .g => !flag .zf && flag .sf == flag .of

end Sys2Proof.Machine
end

