-- ==== Sys2Proof/Machine/Operands.lean ====
section
/-! DEFINITION. Decoded operands, effective addresses and the shared bodies of the instruction families
(30_encoding.md R103 to R106, 41_arith_logic.md R180, 42_unary_shift.md R200 and R206, 44_stack.md R230,
45_control_flow.md R240). -/

namespace Sys2Proof.Machine

/-! ### Operands -/

/-- `sext_32(v8)` (00_scope.md R10, 30_encoding.md R106). -/
def sext32 (v : Byte) : Word := v.signExtend 32

/-- A decoded operand: `Reg(i)`, `Imm(v)` with `v` already extended, or `Mem(b, D)` (R105). -/
inductive Operand where
  | reg (r : Reg)
  | imm (v : Word)
  | mem (base : Reg) (disp : Word)
  deriving DecidableEq, Repr

/-- The operand an `r/m32` form stands for (R103). -/
def rmOperand : RM → Operand
  | .reg r => .reg r
  | .mem base => .mem base 0
  | .memDisp8 base disp => .mem base (sext32 disp)
  | .memDisp32 base disp => .mem base disp

/-- `EA = (x[b] + D) mod 2^32` (R104). -/
def State.effectiveAddress (s : State) (base : Reg) (disp : Word) : Word := s.reg base + disp

/-- `ReadOp(operand)` (R105). -/
def State.readOp (s : State) : Operand → Except Fault Word
  | .reg r => .ok (s.reg r)
  | .imm v => .ok v
  | .mem base disp => s.memRead (s.effectiveAddress base disp)

/-- `WriteOp(operand, v)` (R105). "An immediate is never written": no instruction has one as its destination. The
registers do not change between an operand's read and its write, so `EA` is the same at both. -/
def State.writeOp (s : State) (dst : Operand) (v : Word) : Except Fault State :=
  match dst with
  | .reg r => .ok (s.setReg r v)
  | .imm _ => .ok s
  | .mem base disp => s.memWrite (s.effectiveAddress base disp) v

/-! ### Lengths (30_encoding.md R113) -/

/-- `d`, the number of displacement bytes of an `r/m32` form (R101, R103). -/
def dispSize : RM → Nat
  | .reg _ => 0
  | .mem _ => 0
  | .memDisp8 _ _ => 1
  | .memDisp32 _ _ => 4

/-- Format `OP_M`: `2 + d` bytes. -/
def lenM (rm : RM) : Nat := 2 + dispSize rm

/-- Format `OP_M_I8`: `3 + d` bytes. -/
def lenMI8 (rm : RM) : Nat := 3 + dispSize rm

/-- Format `OP_M_I32`: `6 + d` bytes. -/
def lenMI32 (rm : RM) : Nat := 6 + dispSize rm

/-! ### Shared bodies of the families -/

/-- `a <- ReadOp(dst); b <- ReadOp(src); (r, F) <- core(a, b); WriteOp(dst, r); flags <- F; eip <- next`
(41_arith_logic.md R180). -/
def twoOperand (core : Word → Word → AluResult) (dst src : Operand) (len : Nat) (s : State) : State :=
  s.attempt (s.readOp dst) fun a =>
  s.attempt (s.readOp src) fun b =>
  s.attempt (s.writeOp dst (core a b).value) fun t =>
  (t.writeFlags (core a b).flags).advance len

/-- The same without the write of the result: `CMP` and `TEST` (41_arith_logic.md R180, R188, R189). -/
def compareOperands (core : Word → Word → AluResult) (fst snd : Operand) (len : Nat) (s : State) : State :=
  s.attempt (s.readOp fst) fun a =>
  s.attempt (s.readOp snd) fun b =>
  (s.writeFlags (core a b).flags).advance len

/-- `a <- ReadOp(op); (r, F) <- core(a); WriteOp(op, r); flags <- F; eip <- next` (42_unary_shift.md R200). -/
def oneOperand (core : Word → AluResult) (op : Operand) (len : Nat) (s : State) : State :=
  s.attempt (s.readOp op) fun a =>
  s.attempt (s.writeOp op (core a).value) fun t =>
  (t.writeFlags (core a).flags).advance len

/-- `c <- count source & 0x1F`, as a number 0 to 31 (42_unary_shift.md R206). -/
def shiftCount (source : Word) : Nat := (source &&& 0x1F).toNat

/-- A shift: the operand is read even when the masked count is 0, and then nothing but `eip` is written
(42_unary_shift.md R206). -/
def shiftOperand (core : Word → Nat → AluResult) (op : Operand) (source : Word) (len : Nat) (s : State) : State :=
  s.attempt (s.readOp op) fun a =>
  if shiftCount source = 0 then s.advance len
  else
    s.attempt (s.writeOp op (core a (shiftCount source)).value) fun t =>
    (t.writeFlags (core a (shiftCount source)).flags).advance len

/-- `v <- ReadOp(src); WriteOp(dst, v); eip <- next` (43_data_movement.md R221). -/
def moveOperand (dst src : Operand) (len : Nat) (s : State) : State :=
  s.attempt (s.readOp src) fun v =>
  s.attempt (s.writeOp dst v) fun t =>
  t.advance len

/-- `esp <- (esp - 4) mod 2^32; MemWrite(esp, 4, v)`, then `k`; when the write faults, `esp` stays decremented
(44_stack.md R231, 45_control_flow.md R260). -/
def pushThen (v : Word) (k : State → State) (s : State) : State :=
  let t := s.setReg .esp (s.reg .esp - 4)
  t.attempt (t.memWrite (t.reg .esp) v) k

/-- `v <- MemRead(esp, 4); esp <- (esp + 4) mod 2^32`, then `k v` (44_stack.md R232, 45_control_flow.md R261). -/
def popThen (k : Word → State → State) (s : State) : State :=
  s.attempt (s.memRead (s.reg .esp)) fun v =>
  k v (s.setReg .esp (s.reg .esp + 4))

/-- The target of a relative transfer of `len` bytes: `(next + offset) mod 2^32` (45_control_flow.md R240). -/
def State.relativeTarget (s : State) (offset : Word) (len : Nat) : Word := s.nextEip len + offset

/-- `eip <- target` if the condition holds on `eflags`, else `eip <- next` (45_control_flow.md R242). -/
def jumpIf (cc : Cond) (offset : Word) (len : Nat) (s : State) : State :=
  if condHolds cc s.eflags then s.setEip (s.relativeTarget offset len) else s.advance len

end Sys2Proof.Machine
end

