-- ==== Sys2Proof/Machine/Arith.lean ====
section
/-! DEFINITION. The two-operand arithmetic, logic and compare instructions: ADD, OR, ADC, SBB, AND, SUB, XOR, CMP,
TEST (41_arith_logic.md R180 to R189). An operation has one core, named once; each form is one line over the shared
body of Operands.lean. -/

namespace Sys2Proof.Machine

/-- ADD: `AddCore(a, b, 0)` (R181). -/
def addCoreOf (a b : Word) : AluResult := addCore a b false

/-- OR: `LogicCore(a | b)` (R182). -/
def orCoreOf (a b : Word) : AluResult := logicCore .or a b (a ||| b)

/-- ADC: `AddCore(a, b, CF)` with the `CF` before the instruction (R183). -/
def adcCoreWith (s : State) (a b : Word) : AluResult := addCore a b (s.testFlag .cf)

/-- SBB: `SubCore(a, b, CF)` with the `CF` before the instruction (R184). -/
def sbbCoreWith (s : State) (a b : Word) : AluResult := subCore a b (s.testFlag .cf)

/-- AND: `LogicCore(a & b)` (R185). -/
def andCoreOf (a b : Word) : AluResult := logicCore .and a b (a &&& b)

/-- SUB: `SubCore(a, b, 0)` (R186). -/
def subCoreOf (a b : Word) : AluResult := subCore a b false

/-- XOR: `LogicCore(a ^ b)` (R187). -/
def xorCoreOf (a b : Word) : AluResult := logicCore .xor a b (a ^^^ b)

/-- CMP: `SubCore(a, b, 0)`, the result discarded (R188). -/
def cmpCoreOf (a b : Word) : AluResult := subCore a b false

/-- TEST: `LogicCore(a & b)`, the result discarded (R189). -/
def testCoreOf (a b : Word) : AluResult := logicCore .test a b (a &&& b)

/-- `ADD r/m32, r32`, 01 ModRM disp (R181). -/
def execAddRmR (rm : RM) (r : Reg) (s : State) : Host.Outcome State Fault Refusal :=
  .next (twoOperand addCoreOf (rmOperand rm) (.reg r) (lenM rm) s)

/-- `ADD r32, r/m32`, 03 ModRM disp (R181). -/
def execAddRRm (r : Reg) (rm : RM) (s : State) : Host.Outcome State Fault Refusal :=
  .next (twoOperand addCoreOf (.reg r) (rmOperand rm) (lenM rm) s)

/-- `ADD eax, imm32`, 05 imm32 (R181). -/
def execAddEaxImm32 (imm : Word) (s : State) : Host.Outcome State Fault Refusal :=
  .next (twoOperand addCoreOf (.reg .eax) (.imm imm) 5 s)

/-- `ADD r/m32, imm32`, 81 /0 ModRM disp imm32 (R181). -/
def execAddRmImm32 (rm : RM) (imm : Word) (s : State) : Host.Outcome State Fault Refusal :=
  .next (twoOperand addCoreOf (rmOperand rm) (.imm imm) (lenMI32 rm) s)

/-- `ADD r/m32, imm8`, 83 /0 ModRM disp imm8 (R181). -/
def execAddRmImm8 (rm : RM) (imm : Byte) (s : State) : Host.Outcome State Fault Refusal :=
  .next (twoOperand addCoreOf (rmOperand rm) (.imm (sext32 imm)) (lenMI8 rm) s)

/-- `OR r/m32, r32`, 09 ModRM disp (R182). -/
def execOrRmR (rm : RM) (r : Reg) (s : State) : Host.Outcome State Fault Refusal :=
  .next (twoOperand orCoreOf (rmOperand rm) (.reg r) (lenM rm) s)

/-- `OR r32, r/m32`, 0B ModRM disp (R182). -/
def execOrRRm (r : Reg) (rm : RM) (s : State) : Host.Outcome State Fault Refusal :=
  .next (twoOperand orCoreOf (.reg r) (rmOperand rm) (lenM rm) s)

/-- `OR eax, imm32`, 0D imm32 (R182). -/
def execOrEaxImm32 (imm : Word) (s : State) : Host.Outcome State Fault Refusal :=
  .next (twoOperand orCoreOf (.reg .eax) (.imm imm) 5 s)

/-- `OR r/m32, imm32`, 81 /1 ModRM disp imm32 (R182). -/
def execOrRmImm32 (rm : RM) (imm : Word) (s : State) : Host.Outcome State Fault Refusal :=
  .next (twoOperand orCoreOf (rmOperand rm) (.imm imm) (lenMI32 rm) s)

/-- `OR r/m32, imm8`, 83 /1 ModRM disp imm8 (R182). -/
def execOrRmImm8 (rm : RM) (imm : Byte) (s : State) : Host.Outcome State Fault Refusal :=
  .next (twoOperand orCoreOf (rmOperand rm) (.imm (sext32 imm)) (lenMI8 rm) s)

/-- `ADC r/m32, r32`, 11 ModRM disp (R183). -/
def execAdcRmR (rm : RM) (r : Reg) (s : State) : Host.Outcome State Fault Refusal :=
  .next (twoOperand (adcCoreWith s) (rmOperand rm) (.reg r) (lenM rm) s)

/-- `ADC r32, r/m32`, 13 ModRM disp (R183). -/
def execAdcRRm (r : Reg) (rm : RM) (s : State) : Host.Outcome State Fault Refusal :=
  .next (twoOperand (adcCoreWith s) (.reg r) (rmOperand rm) (lenM rm) s)

/-- `ADC eax, imm32`, 15 imm32 (R183). -/
def execAdcEaxImm32 (imm : Word) (s : State) : Host.Outcome State Fault Refusal :=
  .next (twoOperand (adcCoreWith s) (.reg .eax) (.imm imm) 5 s)

/-- `ADC r/m32, imm32`, 81 /2 ModRM disp imm32 (R183). -/
def execAdcRmImm32 (rm : RM) (imm : Word) (s : State) : Host.Outcome State Fault Refusal :=
  .next (twoOperand (adcCoreWith s) (rmOperand rm) (.imm imm) (lenMI32 rm) s)

/-- `ADC r/m32, imm8`, 83 /2 ModRM disp imm8 (R183). -/
def execAdcRmImm8 (rm : RM) (imm : Byte) (s : State) : Host.Outcome State Fault Refusal :=
  .next (twoOperand (adcCoreWith s) (rmOperand rm) (.imm (sext32 imm)) (lenMI8 rm) s)

/-- `SBB r/m32, r32`, 19 ModRM disp (R184). -/
def execSbbRmR (rm : RM) (r : Reg) (s : State) : Host.Outcome State Fault Refusal :=
  .next (twoOperand (sbbCoreWith s) (rmOperand rm) (.reg r) (lenM rm) s)

/-- `SBB r32, r/m32`, 1B ModRM disp (R184). -/
def execSbbRRm (r : Reg) (rm : RM) (s : State) : Host.Outcome State Fault Refusal :=
  .next (twoOperand (sbbCoreWith s) (.reg r) (rmOperand rm) (lenM rm) s)

/-- `SBB eax, imm32`, 1D imm32 (R184). -/
def execSbbEaxImm32 (imm : Word) (s : State) : Host.Outcome State Fault Refusal :=
  .next (twoOperand (sbbCoreWith s) (.reg .eax) (.imm imm) 5 s)

/-- `SBB r/m32, imm32`, 81 /3 ModRM disp imm32 (R184). -/
def execSbbRmImm32 (rm : RM) (imm : Word) (s : State) : Host.Outcome State Fault Refusal :=
  .next (twoOperand (sbbCoreWith s) (rmOperand rm) (.imm imm) (lenMI32 rm) s)

/-- `SBB r/m32, imm8`, 83 /3 ModRM disp imm8 (R184). -/
def execSbbRmImm8 (rm : RM) (imm : Byte) (s : State) : Host.Outcome State Fault Refusal :=
  .next (twoOperand (sbbCoreWith s) (rmOperand rm) (.imm (sext32 imm)) (lenMI8 rm) s)

/-- `AND r/m32, r32`, 21 ModRM disp (R185). -/
def execAndRmR (rm : RM) (r : Reg) (s : State) : Host.Outcome State Fault Refusal :=
  .next (twoOperand andCoreOf (rmOperand rm) (.reg r) (lenM rm) s)

/-- `AND r32, r/m32`, 23 ModRM disp (R185). -/
def execAndRRm (r : Reg) (rm : RM) (s : State) : Host.Outcome State Fault Refusal :=
  .next (twoOperand andCoreOf (.reg r) (rmOperand rm) (lenM rm) s)

/-- `AND eax, imm32`, 25 imm32 (R185). -/
def execAndEaxImm32 (imm : Word) (s : State) : Host.Outcome State Fault Refusal :=
  .next (twoOperand andCoreOf (.reg .eax) (.imm imm) 5 s)

/-- `AND r/m32, imm32`, 81 /4 ModRM disp imm32 (R185). -/
def execAndRmImm32 (rm : RM) (imm : Word) (s : State) : Host.Outcome State Fault Refusal :=
  .next (twoOperand andCoreOf (rmOperand rm) (.imm imm) (lenMI32 rm) s)

/-- `AND r/m32, imm8`, 83 /4 ModRM disp imm8 (R185). -/
def execAndRmImm8 (rm : RM) (imm : Byte) (s : State) : Host.Outcome State Fault Refusal :=
  .next (twoOperand andCoreOf (rmOperand rm) (.imm (sext32 imm)) (lenMI8 rm) s)

/-- `SUB r/m32, r32`, 29 ModRM disp (R186). -/
def execSubRmR (rm : RM) (r : Reg) (s : State) : Host.Outcome State Fault Refusal :=
  .next (twoOperand subCoreOf (rmOperand rm) (.reg r) (lenM rm) s)

/-- `SUB r32, r/m32`, 2B ModRM disp (R186). -/
def execSubRRm (r : Reg) (rm : RM) (s : State) : Host.Outcome State Fault Refusal :=
  .next (twoOperand subCoreOf (.reg r) (rmOperand rm) (lenM rm) s)

/-- `SUB eax, imm32`, 2D imm32 (R186). -/
def execSubEaxImm32 (imm : Word) (s : State) : Host.Outcome State Fault Refusal :=
  .next (twoOperand subCoreOf (.reg .eax) (.imm imm) 5 s)

/-- `SUB r/m32, imm32`, 81 /5 ModRM disp imm32 (R186). -/
def execSubRmImm32 (rm : RM) (imm : Word) (s : State) : Host.Outcome State Fault Refusal :=
  .next (twoOperand subCoreOf (rmOperand rm) (.imm imm) (lenMI32 rm) s)

/-- `SUB r/m32, imm8`, 83 /5 ModRM disp imm8 (R186). -/
def execSubRmImm8 (rm : RM) (imm : Byte) (s : State) : Host.Outcome State Fault Refusal :=
  .next (twoOperand subCoreOf (rmOperand rm) (.imm (sext32 imm)) (lenMI8 rm) s)

/-- `XOR r/m32, r32`, 31 ModRM disp (R187). -/
def execXorRmR (rm : RM) (r : Reg) (s : State) : Host.Outcome State Fault Refusal :=
  .next (twoOperand xorCoreOf (rmOperand rm) (.reg r) (lenM rm) s)

/-- `XOR r32, r/m32`, 33 ModRM disp (R187). -/
def execXorRRm (r : Reg) (rm : RM) (s : State) : Host.Outcome State Fault Refusal :=
  .next (twoOperand xorCoreOf (.reg r) (rmOperand rm) (lenM rm) s)

/-- `XOR eax, imm32`, 35 imm32 (R187). -/
def execXorEaxImm32 (imm : Word) (s : State) : Host.Outcome State Fault Refusal :=
  .next (twoOperand xorCoreOf (.reg .eax) (.imm imm) 5 s)

/-- `XOR r/m32, imm32`, 81 /6 ModRM disp imm32 (R187). -/
def execXorRmImm32 (rm : RM) (imm : Word) (s : State) : Host.Outcome State Fault Refusal :=
  .next (twoOperand xorCoreOf (rmOperand rm) (.imm imm) (lenMI32 rm) s)

/-- `XOR r/m32, imm8`, 83 /6 ModRM disp imm8 (R187). -/
def execXorRmImm8 (rm : RM) (imm : Byte) (s : State) : Host.Outcome State Fault Refusal :=
  .next (twoOperand xorCoreOf (rmOperand rm) (.imm (sext32 imm)) (lenMI8 rm) s)

/-- `CMP r/m32, r32`, 39 ModRM disp (R188). -/
def execCmpRmR (rm : RM) (r : Reg) (s : State) : Host.Outcome State Fault Refusal :=
  .next (compareOperands cmpCoreOf (rmOperand rm) (.reg r) (lenM rm) s)

/-- `CMP r32, r/m32`, 3B ModRM disp (R188). -/
def execCmpRRm (r : Reg) (rm : RM) (s : State) : Host.Outcome State Fault Refusal :=
  .next (compareOperands cmpCoreOf (.reg r) (rmOperand rm) (lenM rm) s)

/-- `CMP eax, imm32`, 3D imm32 (R188). -/
def execCmpEaxImm32 (imm : Word) (s : State) : Host.Outcome State Fault Refusal :=
  .next (compareOperands cmpCoreOf (.reg .eax) (.imm imm) 5 s)

/-- `CMP r/m32, imm32`, 81 /7 ModRM disp imm32 (R188). -/
def execCmpRmImm32 (rm : RM) (imm : Word) (s : State) : Host.Outcome State Fault Refusal :=
  .next (compareOperands cmpCoreOf (rmOperand rm) (.imm imm) (lenMI32 rm) s)

/-- `CMP r/m32, imm8`, 83 /7 ModRM disp imm8 (R188). -/
def execCmpRmImm8 (rm : RM) (imm : Byte) (s : State) : Host.Outcome State Fault Refusal :=
  .next (compareOperands cmpCoreOf (rmOperand rm) (.imm (sext32 imm)) (lenMI8 rm) s)

/-- `TEST r/m32, r32`, 85 ModRM disp (R189). -/
def execTestRmR (rm : RM) (r : Reg) (s : State) : Host.Outcome State Fault Refusal :=
  .next (compareOperands testCoreOf (rmOperand rm) (.reg r) (lenM rm) s)

/-- `TEST eax, imm32`, A9 imm32 (R189). -/
def execTestEaxImm32 (imm : Word) (s : State) : Host.Outcome State Fault Refusal :=
  .next (compareOperands testCoreOf (.reg .eax) (.imm imm) 5 s)

/-- `TEST r/m32, imm32`, F7 /0 ModRM disp imm32 (R189). -/
def execTestRmImm32 (rm : RM) (imm : Word) (s : State) : Host.Outcome State Fault Refusal :=
  .next (compareOperands testCoreOf (rmOperand rm) (.imm imm) (lenMI32 rm) s)

end Sys2Proof.Machine
end

