-- ==== Sys2Proof/Machine/Control.lean ====
section
/-! DEFINITION. Control transfer and halt: JMP, the sixteen conditional jumps, CALL, RET, HLT (45_control_flow.md R240
to R262). -/

namespace Sys2Proof.Machine

/-- `JMP rel8`, EB rel8 (R241). -/
def execJmpRel8 (rel : Byte) (s : State) : Host.Outcome State Fault Refusal :=
  .next (s.setEip (s.relativeTarget (sext32 rel) 2))

/-- `JMP rel32`, E9 rel32 (R241). -/
def execJmpRel32 (rel : Word) (s : State) : Host.Outcome State Fault Refusal :=
  .next (s.setEip (s.relativeTarget rel 5))

/-- `JO rel8`, 70 rel8 (R244). -/
def execJoRel8 (rel : Byte) (s : State) : Host.Outcome State Fault Refusal :=
  .next (jumpIf .o (sext32 rel) 2 s)

/-- `JNO rel8`, 71 rel8 (R245). -/
def execJnoRel8 (rel : Byte) (s : State) : Host.Outcome State Fault Refusal :=
  .next (jumpIf .no (sext32 rel) 2 s)

/-- `JB rel8`, 72 rel8 (R246). -/
def execJbRel8 (rel : Byte) (s : State) : Host.Outcome State Fault Refusal :=
  .next (jumpIf .b (sext32 rel) 2 s)

/-- `JAE rel8`, 73 rel8 (R247). -/
def execJaeRel8 (rel : Byte) (s : State) : Host.Outcome State Fault Refusal :=
  .next (jumpIf .ae (sext32 rel) 2 s)

/-- `JE rel8`, 74 rel8 (R248). -/
def execJeRel8 (rel : Byte) (s : State) : Host.Outcome State Fault Refusal :=
  .next (jumpIf .e (sext32 rel) 2 s)

/-- `JNE rel8`, 75 rel8 (R249). -/
def execJneRel8 (rel : Byte) (s : State) : Host.Outcome State Fault Refusal :=
  .next (jumpIf .ne (sext32 rel) 2 s)

/-- `JBE rel8`, 76 rel8 (R250). -/
def execJbeRel8 (rel : Byte) (s : State) : Host.Outcome State Fault Refusal :=
  .next (jumpIf .be (sext32 rel) 2 s)

/-- `JA rel8`, 77 rel8 (R251). -/
def execJaRel8 (rel : Byte) (s : State) : Host.Outcome State Fault Refusal :=
  .next (jumpIf .a (sext32 rel) 2 s)

/-- `JS rel8`, 78 rel8 (R252). -/
def execJsRel8 (rel : Byte) (s : State) : Host.Outcome State Fault Refusal :=
  .next (jumpIf .s (sext32 rel) 2 s)

/-- `JNS rel8`, 79 rel8 (R253). -/
def execJnsRel8 (rel : Byte) (s : State) : Host.Outcome State Fault Refusal :=
  .next (jumpIf .ns (sext32 rel) 2 s)

/-- `JP rel8`, 7A rel8 (R254). -/
def execJpRel8 (rel : Byte) (s : State) : Host.Outcome State Fault Refusal :=
  .next (jumpIf .p (sext32 rel) 2 s)

/-- `JNP rel8`, 7B rel8 (R255). -/
def execJnpRel8 (rel : Byte) (s : State) : Host.Outcome State Fault Refusal :=
  .next (jumpIf .np (sext32 rel) 2 s)

/-- `JL rel8`, 7C rel8 (R256). -/
def execJlRel8 (rel : Byte) (s : State) : Host.Outcome State Fault Refusal :=
  .next (jumpIf .l (sext32 rel) 2 s)

/-- `JGE rel8`, 7D rel8 (R257). -/
def execJgeRel8 (rel : Byte) (s : State) : Host.Outcome State Fault Refusal :=
  .next (jumpIf .ge (sext32 rel) 2 s)

/-- `JLE rel8`, 7E rel8 (R258). -/
def execJleRel8 (rel : Byte) (s : State) : Host.Outcome State Fault Refusal :=
  .next (jumpIf .le (sext32 rel) 2 s)

/-- `JG rel8`, 7F rel8 (R259). -/
def execJgRel8 (rel : Byte) (s : State) : Host.Outcome State Fault Refusal :=
  .next (jumpIf .g (sext32 rel) 2 s)

/-- `JO rel32`, 0F 80 rel32 (R244). -/
def execJoRel32 (rel : Word) (s : State) : Host.Outcome State Fault Refusal :=
  .next (jumpIf .o rel 6 s)

/-- `JNO rel32`, 0F 81 rel32 (R245). -/
def execJnoRel32 (rel : Word) (s : State) : Host.Outcome State Fault Refusal :=
  .next (jumpIf .no rel 6 s)

/-- `JB rel32`, 0F 82 rel32 (R246). -/
def execJbRel32 (rel : Word) (s : State) : Host.Outcome State Fault Refusal :=
  .next (jumpIf .b rel 6 s)

/-- `JAE rel32`, 0F 83 rel32 (R247). -/
def execJaeRel32 (rel : Word) (s : State) : Host.Outcome State Fault Refusal :=
  .next (jumpIf .ae rel 6 s)

/-- `JE rel32`, 0F 84 rel32 (R248). -/
def execJeRel32 (rel : Word) (s : State) : Host.Outcome State Fault Refusal :=
  .next (jumpIf .e rel 6 s)

/-- `JNE rel32`, 0F 85 rel32 (R249). -/
def execJneRel32 (rel : Word) (s : State) : Host.Outcome State Fault Refusal :=
  .next (jumpIf .ne rel 6 s)

/-- `JBE rel32`, 0F 86 rel32 (R250). -/
def execJbeRel32 (rel : Word) (s : State) : Host.Outcome State Fault Refusal :=
  .next (jumpIf .be rel 6 s)

/-- `JA rel32`, 0F 87 rel32 (R251). -/
def execJaRel32 (rel : Word) (s : State) : Host.Outcome State Fault Refusal :=
  .next (jumpIf .a rel 6 s)

/-- `JS rel32`, 0F 88 rel32 (R252). -/
def execJsRel32 (rel : Word) (s : State) : Host.Outcome State Fault Refusal :=
  .next (jumpIf .s rel 6 s)

/-- `JNS rel32`, 0F 89 rel32 (R253). -/
def execJnsRel32 (rel : Word) (s : State) : Host.Outcome State Fault Refusal :=
  .next (jumpIf .ns rel 6 s)

/-- `JP rel32`, 0F 8A rel32 (R254). -/
def execJpRel32 (rel : Word) (s : State) : Host.Outcome State Fault Refusal :=
  .next (jumpIf .p rel 6 s)

/-- `JNP rel32`, 0F 8B rel32 (R255). -/
def execJnpRel32 (rel : Word) (s : State) : Host.Outcome State Fault Refusal :=
  .next (jumpIf .np rel 6 s)

/-- `JL rel32`, 0F 8C rel32 (R256). -/
def execJlRel32 (rel : Word) (s : State) : Host.Outcome State Fault Refusal :=
  .next (jumpIf .l rel 6 s)

/-- `JGE rel32`, 0F 8D rel32 (R257). -/
def execJgeRel32 (rel : Word) (s : State) : Host.Outcome State Fault Refusal :=
  .next (jumpIf .ge rel 6 s)

/-- `JLE rel32`, 0F 8E rel32 (R258). -/
def execJleRel32 (rel : Word) (s : State) : Host.Outcome State Fault Refusal :=
  .next (jumpIf .le rel 6 s)

/-- `JG rel32`, 0F 8F rel32 (R259). -/
def execJgRel32 (rel : Word) (s : State) : Host.Outcome State Fault Refusal :=
  .next (jumpIf .g rel 6 s)

/-- `CALL rel32`, E8 rel32 (R260). -/
def execCallRel32 (rel : Word) (s : State) : Host.Outcome State Fault Refusal :=
  .next (pushThen (s.nextEip 5) (fun t => t.setEip (s.relativeTarget rel 5)) s)

/-- `RET`, C3 (R261). -/
def execRet (s : State) : Host.Outcome State Fault Refusal :=
  .next (popThen (fun v t => t.setEip v) s)

/-- `HLT`, F4 (R262). -/
def execHlt (s : State) : Host.Outcome State Fault Refusal :=
  .next (({ s.advance 1 with runState := .halted } : State))

end Sys2Proof.Machine
end

