-- ==== Sys2Proof/Machine/Move.lean ====
section
/-! DEFINITION. Data movement, NOP and the stack instructions: MOV, NOP, PUSH, POP (43_data_movement.md R220 to R224,
44_stack.md R230 to R232). -/

namespace Sys2Proof.Machine

/-- `MOV r/m32, r32`, 89 ModRM disp (R221). -/
def execMovRmR (rm : RM) (r : Reg) (s : State) : Host.Outcome State Fault Refusal :=
  .next (moveOperand (rmOperand rm) (.reg r) (lenM rm) s)

/-- `MOV r32, r/m32`, 8B ModRM disp (R221). -/
def execMovRRm (r : Reg) (rm : RM) (s : State) : Host.Outcome State Fault Refusal :=
  .next (moveOperand (.reg r) (rmOperand rm) (lenM rm) s)

/-- `MOV r32, imm32`, B8+r imm32 (R221). -/
def execMovRImm32 (r : Reg) (imm : Word) (s : State) : Host.Outcome State Fault Refusal :=
  .next (moveOperand (.reg r) (.imm imm) 5 s)

/-- `MOV r/m32, imm32`, C7 /0 ModRM disp imm32 (R221). -/
def execMovRmImm32 (rm : RM) (imm : Word) (s : State) : Host.Outcome State Fault Refusal :=
  .next (moveOperand (rmOperand rm) (.imm imm) (lenMI32 rm) s)

/-- `NOP`, 90 (R224). -/
def execNop (s : State) : Host.Outcome State Fault Refusal :=
  .next (s.advance 1)

/-- The source of a PUSH is read before `esp` changes, so `push esp` pushes the old value (R231, D27). -/
def pushValue (v : Word) (len : Nat) (s : State) : State := pushThen v (fun t => t.advance len) s

/-- `PUSH r32`, 50+r (R231). -/
def execPushR (r : Reg) (s : State) : Host.Outcome State Fault Refusal :=
  .next (pushValue (s.reg r) 1 s)

/-- `PUSH imm32`, 68 imm32 (R231). -/
def execPushImm32 (imm : Word) (s : State) : Host.Outcome State Fault Refusal :=
  .next (pushValue imm 5 s)

/-- `PUSH imm8`, 6A imm8 (R231). -/
def execPushImm8 (imm : Byte) (s : State) : Host.Outcome State Fault Refusal :=
  .next (pushValue (sext32 imm) 2 s)

/-- The destination of a POP is written after the increment, so `pop esp` leaves the loaded value (R232, D27). -/
def popInto (r : Reg) (len : Nat) (s : State) : State := popThen (fun v t => (t.setReg r v).advance len) s

/-- `POP r32`, 58+r (R232). -/
def execPopR (r : Reg) (s : State) : Host.Outcome State Fault Refusal :=
  .next (popInto r 1 s)

end Sys2Proof.Machine
end

