-- ==== Sys2Proof/Machine/Unary.lean ====
section
/-! DEFINITION. The one-operand arithmetic instructions INC, DEC, NOT, NEG and the shifts SHL, SHR, SAR
(42_unary_shift.md R200 to R209). -/

namespace Sys2Proof.Machine

/-- `INC r32`, 40+r (R201). -/
def execIncR (r : Reg) (s : State) : Host.Outcome State Fault Refusal :=
  .next (oneOperand incCore (.reg r) 1 s)

/-- `DEC r32`, 48+r (R202). -/
def execDecR (r : Reg) (s : State) : Host.Outcome State Fault Refusal :=
  .next (oneOperand decCore (.reg r) 1 s)

/-- `INC r/m32`, FF /0 ModRM disp (R201). -/
def execIncRm (rm : RM) (s : State) : Host.Outcome State Fault Refusal :=
  .next (oneOperand incCore (rmOperand rm) (lenM rm) s)

/-- `DEC r/m32`, FF /1 ModRM disp (R202). -/
def execDecRm (rm : RM) (s : State) : Host.Outcome State Fault Refusal :=
  .next (oneOperand decCore (rmOperand rm) (lenM rm) s)

/-- `NOT r/m32`, F7 /2 ModRM disp (R204). -/
def execNotRm (rm : RM) (s : State) : Host.Outcome State Fault Refusal :=
  .next (oneOperand notCore (rmOperand rm) (lenM rm) s)

/-- `NEG r/m32`, F7 /3 ModRM disp (R203). -/
def execNegRm (rm : RM) (s : State) : Host.Outcome State Fault Refusal :=
  .next (oneOperand negCore (rmOperand rm) (lenM rm) s)

/-- `SHL r/m32, 1`, D1 /4 ModRM disp (R207). -/
def execShlRm1 (rm : RM) (s : State) : Host.Outcome State Fault Refusal :=
  .next (shiftOperand shlCore (rmOperand rm) 1 (lenM rm) s)

/-- `SHL r/m32, imm8`, C1 /4 ModRM disp imm8 (R207). -/
def execShlRmImm8 (rm : RM) (imm : Byte) (s : State) : Host.Outcome State Fault Refusal :=
  .next (shiftOperand shlCore (rmOperand rm) (imm.zeroExtend 32) (lenMI8 rm) s)

/-- `SHL r/m32, cl`, D3 /4 ModRM disp (R207). -/
def execShlRmCl (rm : RM) (s : State) : Host.Outcome State Fault Refusal :=
  .next (shiftOperand shlCore (rmOperand rm) (s.reg .ecx) (lenM rm) s)

/-- `SHR r/m32, 1`, D1 /5 ModRM disp (R208). -/
def execShrRm1 (rm : RM) (s : State) : Host.Outcome State Fault Refusal :=
  .next (shiftOperand shrCore (rmOperand rm) 1 (lenM rm) s)

/-- `SHR r/m32, imm8`, C1 /5 ModRM disp imm8 (R208). -/
def execShrRmImm8 (rm : RM) (imm : Byte) (s : State) : Host.Outcome State Fault Refusal :=
  .next (shiftOperand shrCore (rmOperand rm) (imm.zeroExtend 32) (lenMI8 rm) s)

/-- `SHR r/m32, cl`, D3 /5 ModRM disp (R208). -/
def execShrRmCl (rm : RM) (s : State) : Host.Outcome State Fault Refusal :=
  .next (shiftOperand shrCore (rmOperand rm) (s.reg .ecx) (lenM rm) s)

/-- `SAR r/m32, 1`, D1 /7 ModRM disp (R209). -/
def execSarRm1 (rm : RM) (s : State) : Host.Outcome State Fault Refusal :=
  .next (shiftOperand sarCore (rmOperand rm) 1 (lenM rm) s)

/-- `SAR r/m32, imm8`, C1 /7 ModRM disp imm8 (R209). -/
def execSarRmImm8 (rm : RM) (imm : Byte) (s : State) : Host.Outcome State Fault Refusal :=
  .next (shiftOperand sarCore (rmOperand rm) (imm.zeroExtend 32) (lenMI8 rm) s)

/-- `SAR r/m32, cl`, D3 /7 ModRM disp (R209). -/
def execSarRmCl (rm : RM) (s : State) : Host.Outcome State Fault Refusal :=
  .next (shiftOperand sarCore (rmOperand rm) (s.reg .ecx) (lenM rm) s)

end Sys2Proof.Machine
end

