-- ==== Sys2Proof/Machine/Dispatch.lean ====
section
/-! DEFINITION. One arm per constructor of `Instr`: the one direct call of its meaning. -/

namespace Sys2Proof.Machine

/-- Execute one instruction by its family's rule (60_exceptions.md R300). -/
def exec (i : Instr) (s : State) : Host.Outcome State Fault Refusal :=
  match i with
  | .addRmR rm r => Sys2Proof.Machine.execAddRmR rm r s
  | .addRRm r rm => Sys2Proof.Machine.execAddRRm r rm s
  | .addEaxImm32 imm => Sys2Proof.Machine.execAddEaxImm32 imm s
  | .addRmImm32 rm imm => Sys2Proof.Machine.execAddRmImm32 rm imm s
  | .addRmImm8 rm imm => Sys2Proof.Machine.execAddRmImm8 rm imm s
  | .orRmR rm r => Sys2Proof.Machine.execOrRmR rm r s
  | .orRRm r rm => Sys2Proof.Machine.execOrRRm r rm s
  | .orEaxImm32 imm => Sys2Proof.Machine.execOrEaxImm32 imm s
  | .orRmImm32 rm imm => Sys2Proof.Machine.execOrRmImm32 rm imm s
  | .orRmImm8 rm imm => Sys2Proof.Machine.execOrRmImm8 rm imm s
  | .adcRmR rm r => Sys2Proof.Machine.execAdcRmR rm r s
  | .adcRRm r rm => Sys2Proof.Machine.execAdcRRm r rm s
  | .adcEaxImm32 imm => Sys2Proof.Machine.execAdcEaxImm32 imm s
  | .adcRmImm32 rm imm => Sys2Proof.Machine.execAdcRmImm32 rm imm s
  | .adcRmImm8 rm imm => Sys2Proof.Machine.execAdcRmImm8 rm imm s
  | .sbbRmR rm r => Sys2Proof.Machine.execSbbRmR rm r s
  | .sbbRRm r rm => Sys2Proof.Machine.execSbbRRm r rm s
  | .sbbEaxImm32 imm => Sys2Proof.Machine.execSbbEaxImm32 imm s
  | .sbbRmImm32 rm imm => Sys2Proof.Machine.execSbbRmImm32 rm imm s
  | .sbbRmImm8 rm imm => Sys2Proof.Machine.execSbbRmImm8 rm imm s
  | .andRmR rm r => Sys2Proof.Machine.execAndRmR rm r s
  | .andRRm r rm => Sys2Proof.Machine.execAndRRm r rm s
  | .andEaxImm32 imm => Sys2Proof.Machine.execAndEaxImm32 imm s
  | .andRmImm32 rm imm => Sys2Proof.Machine.execAndRmImm32 rm imm s
  | .andRmImm8 rm imm => Sys2Proof.Machine.execAndRmImm8 rm imm s
  | .subRmR rm r => Sys2Proof.Machine.execSubRmR rm r s
  | .subRRm r rm => Sys2Proof.Machine.execSubRRm r rm s
  | .subEaxImm32 imm => Sys2Proof.Machine.execSubEaxImm32 imm s
  | .subRmImm32 rm imm => Sys2Proof.Machine.execSubRmImm32 rm imm s
  | .subRmImm8 rm imm => Sys2Proof.Machine.execSubRmImm8 rm imm s
  | .xorRmR rm r => Sys2Proof.Machine.execXorRmR rm r s
  | .xorRRm r rm => Sys2Proof.Machine.execXorRRm r rm s
  | .xorEaxImm32 imm => Sys2Proof.Machine.execXorEaxImm32 imm s
  | .xorRmImm32 rm imm => Sys2Proof.Machine.execXorRmImm32 rm imm s
  | .xorRmImm8 rm imm => Sys2Proof.Machine.execXorRmImm8 rm imm s
  | .cmpRmR rm r => Sys2Proof.Machine.execCmpRmR rm r s
  | .cmpRRm r rm => Sys2Proof.Machine.execCmpRRm r rm s
  | .cmpEaxImm32 imm => Sys2Proof.Machine.execCmpEaxImm32 imm s
  | .cmpRmImm32 rm imm => Sys2Proof.Machine.execCmpRmImm32 rm imm s
  | .cmpRmImm8 rm imm => Sys2Proof.Machine.execCmpRmImm8 rm imm s
  | .testRmR rm r => Sys2Proof.Machine.execTestRmR rm r s
  | .testEaxImm32 imm => Sys2Proof.Machine.execTestEaxImm32 imm s
  | .testRmImm32 rm imm => Sys2Proof.Machine.execTestRmImm32 rm imm s
  | .incR r => Sys2Proof.Machine.execIncR r s
  | .decR r => Sys2Proof.Machine.execDecR r s
  | .incRm rm => Sys2Proof.Machine.execIncRm rm s
  | .decRm rm => Sys2Proof.Machine.execDecRm rm s
  | .notRm rm => Sys2Proof.Machine.execNotRm rm s
  | .negRm rm => Sys2Proof.Machine.execNegRm rm s
  | .shlRm1 rm => Sys2Proof.Machine.execShlRm1 rm s
  | .shlRmImm8 rm imm => Sys2Proof.Machine.execShlRmImm8 rm imm s
  | .shlRmCl rm => Sys2Proof.Machine.execShlRmCl rm s
  | .shrRm1 rm => Sys2Proof.Machine.execShrRm1 rm s
  | .shrRmImm8 rm imm => Sys2Proof.Machine.execShrRmImm8 rm imm s
  | .shrRmCl rm => Sys2Proof.Machine.execShrRmCl rm s
  | .sarRm1 rm => Sys2Proof.Machine.execSarRm1 rm s
  | .sarRmImm8 rm imm => Sys2Proof.Machine.execSarRmImm8 rm imm s
  | .sarRmCl rm => Sys2Proof.Machine.execSarRmCl rm s
  | .movRmR rm r => Sys2Proof.Machine.execMovRmR rm r s
  | .movRRm r rm => Sys2Proof.Machine.execMovRRm r rm s
  | .movRImm32 r imm => Sys2Proof.Machine.execMovRImm32 r imm s
  | .movRmImm32 rm imm => Sys2Proof.Machine.execMovRmImm32 rm imm s
  | .nop => Sys2Proof.Machine.execNop s
  | .pushR r => Sys2Proof.Machine.execPushR r s
  | .pushImm32 imm => Sys2Proof.Machine.execPushImm32 imm s
  | .pushImm8 imm => Sys2Proof.Machine.execPushImm8 imm s
  | .popR r => Sys2Proof.Machine.execPopR r s
  | .jmpRel8 rel => Sys2Proof.Machine.execJmpRel8 rel s
  | .jmpRel32 rel => Sys2Proof.Machine.execJmpRel32 rel s
  | .joRel8 rel => Sys2Proof.Machine.execJoRel8 rel s
  | .jnoRel8 rel => Sys2Proof.Machine.execJnoRel8 rel s
  | .jbRel8 rel => Sys2Proof.Machine.execJbRel8 rel s
  | .jaeRel8 rel => Sys2Proof.Machine.execJaeRel8 rel s
  | .jeRel8 rel => Sys2Proof.Machine.execJeRel8 rel s
  | .jneRel8 rel => Sys2Proof.Machine.execJneRel8 rel s
  | .jbeRel8 rel => Sys2Proof.Machine.execJbeRel8 rel s
  | .jaRel8 rel => Sys2Proof.Machine.execJaRel8 rel s
  | .jsRel8 rel => Sys2Proof.Machine.execJsRel8 rel s
  | .jnsRel8 rel => Sys2Proof.Machine.execJnsRel8 rel s
  | .jpRel8 rel => Sys2Proof.Machine.execJpRel8 rel s
  | .jnpRel8 rel => Sys2Proof.Machine.execJnpRel8 rel s
  | .jlRel8 rel => Sys2Proof.Machine.execJlRel8 rel s
  | .jgeRel8 rel => Sys2Proof.Machine.execJgeRel8 rel s
  | .jleRel8 rel => Sys2Proof.Machine.execJleRel8 rel s
  | .jgRel8 rel => Sys2Proof.Machine.execJgRel8 rel s
  | .joRel32 rel => Sys2Proof.Machine.execJoRel32 rel s
  | .jnoRel32 rel => Sys2Proof.Machine.execJnoRel32 rel s
  | .jbRel32 rel => Sys2Proof.Machine.execJbRel32 rel s
  | .jaeRel32 rel => Sys2Proof.Machine.execJaeRel32 rel s
  | .jeRel32 rel => Sys2Proof.Machine.execJeRel32 rel s
  | .jneRel32 rel => Sys2Proof.Machine.execJneRel32 rel s
  | .jbeRel32 rel => Sys2Proof.Machine.execJbeRel32 rel s
  | .jaRel32 rel => Sys2Proof.Machine.execJaRel32 rel s
  | .jsRel32 rel => Sys2Proof.Machine.execJsRel32 rel s
  | .jnsRel32 rel => Sys2Proof.Machine.execJnsRel32 rel s
  | .jpRel32 rel => Sys2Proof.Machine.execJpRel32 rel s
  | .jnpRel32 rel => Sys2Proof.Machine.execJnpRel32 rel s
  | .jlRel32 rel => Sys2Proof.Machine.execJlRel32 rel s
  | .jgeRel32 rel => Sys2Proof.Machine.execJgeRel32 rel s
  | .jleRel32 rel => Sys2Proof.Machine.execJleRel32 rel s
  | .jgRel32 rel => Sys2Proof.Machine.execJgRel32 rel s
  | .callRel32 rel => Sys2Proof.Machine.execCallRel32 rel s
  | .ret => Sys2Proof.Machine.execRet s
  | .hlt => Sys2Proof.Machine.execHlt s

end Sys2Proof.Machine
end

