-- ==== Sys2Proof/Machine/Step.lean ====
section
/-! DEFINITION. One step of the machine (60_exceptions.md R300), and an instruction placed where it is fetched. The
phases themselves are in Machine/Ops.lean. -/

namespace Sys2Proof.Machine

/-- `Step()` (60_exceptions.md R300, R301). It always answers a next state: an error is taken (R305). -/
def step (s : State) : Host.Outcome State Fault Refusal := stepWith exec s

/-- The state whose next step fetches and runs the instruction with bits `w`: its ten bytes are the text at `eip` and
the machine is ready. From `State.reset` this is the state that `Initialize` gives with those bytes as its text
(notes/assumptions/7.md). -/
def State.withFetchWord (s : State) (nbits w : Nat) : State := s.placeAtEip (tableBytes nbits w)

end Sys2Proof.Machine
end

