-- ==== Sys2Proof/Safety.lean ====
section
/-! DEFINITION. The terms claims are made in: the invariant of the machine, a safe run, and the spec's own tables of
forms, operands, written registers and written flags, written from the rules' tables and not from the meanings
(41_arith_logic.md R180, R189, 42_unary_shift.md R200, R205, 43_data_movement.md R221, 44_stack.md R231,
45_control_flow.md R241 to R259, 10_state.md R22, R29). -/

namespace Sys2Proof.Machine

/-! ### The invariant -/

/-- The section bounds are ordered as `Initialize` orders them (20_memory.md R61, R62, R72; 10_state.md R32): at least
one byte lies above bss, and the memory ends at 2^32 or below (D37). -/
abbrev Bounds.wf (b : Bounds) : Prop :=
  b.textStart = b.memStart ∧ b.textStart ≤ b.textEnd ∧ b.dataStart = b.textEnd ∧ b.dataStart ≤ b.bssStart ∧
  b.bssStart ≤ b.bssEnd ∧ b.bssEnd < b.memEnd ∧ b.memEnd ≤ 2 ^ 32

/-- What every state between host operations satisfies. -/
structure State.Inv (s : State) : Prop where
  /-- The memory is in its canonical form. -/
  memWf : s.mem.wf
  /-- The memory never extends: every cell that holds something lies in `[memStart, memEnd)` (20_memory.md R34, R66). -/
  memInside : ∀ c ∈ s.mem, s.bounds.memStart ≤ c.1 ∧ c.1 < s.bounds.memEnd
  /-- The section bounds are ordered (20_memory.md R72). -/
  boundsWf : s.bounds.wf
  /-- `running` is never observed between steps (10_state.md R31). -/
  notRunning : s.runState ≠ .running
  /-- A ready machine has `eip` in the text (60_exceptions.md R303). -/
  readyInText : s.runState = .ready → s.bounds.textStart ≤ s.eip.toNat ∧ s.eip.toNat < s.bounds.textEnd
  /-- `faultKind` is `None` unless the state is `faulted`, and an error kind there (10_state.md R31). -/
  latched : s.faultKind.isSome = true ↔ s.runState = .faulted

/-- A run is safe for `n` steps when it takes them without an error: no state on the way is `faulted`. -/
def SafeRun (s : State) (n : Nat) : Prop :=
  ∀ k ≤ n, ∃ t, Sys2Proof.core.run k s = .next t ∧ t.runState ≠ .faulted

/-! ### The spec's tables of forms -/

/-- The eight two-operand ALU instructions: the operation, `dst` and `src` of each of the five forms (R180). -/
def aluForm : Instr → Option (AluOp × Operand × Operand)
  | .addRmR rm r => some (.add, rmOperand rm, .reg r)
  | .addRRm r rm => some (.add, .reg r, rmOperand rm)
  | .addEaxImm32 imm => some (.add, .reg .eax, .imm imm)
  | .addRmImm32 rm imm => some (.add, rmOperand rm, .imm imm)
  | .addRmImm8 rm imm => some (.add, rmOperand rm, .imm (sext32 imm))
  | .orRmR rm r => some (.or, rmOperand rm, .reg r)
  | .orRRm r rm => some (.or, .reg r, rmOperand rm)
  | .orEaxImm32 imm => some (.or, .reg .eax, .imm imm)
  | .orRmImm32 rm imm => some (.or, rmOperand rm, .imm imm)
  | .orRmImm8 rm imm => some (.or, rmOperand rm, .imm (sext32 imm))
  | .adcRmR rm r => some (.adc, rmOperand rm, .reg r)
  | .adcRRm r rm => some (.adc, .reg r, rmOperand rm)
  | .adcEaxImm32 imm => some (.adc, .reg .eax, .imm imm)
  | .adcRmImm32 rm imm => some (.adc, rmOperand rm, .imm imm)
  | .adcRmImm8 rm imm => some (.adc, rmOperand rm, .imm (sext32 imm))
  | .sbbRmR rm r => some (.sbb, rmOperand rm, .reg r)
  | .sbbRRm r rm => some (.sbb, .reg r, rmOperand rm)
  | .sbbEaxImm32 imm => some (.sbb, .reg .eax, .imm imm)
  | .sbbRmImm32 rm imm => some (.sbb, rmOperand rm, .imm imm)
  | .sbbRmImm8 rm imm => some (.sbb, rmOperand rm, .imm (sext32 imm))
  | .andRmR rm r => some (.and, rmOperand rm, .reg r)
  | .andRRm r rm => some (.and, .reg r, rmOperand rm)
  | .andEaxImm32 imm => some (.and, .reg .eax, .imm imm)
  | .andRmImm32 rm imm => some (.and, rmOperand rm, .imm imm)
  | .andRmImm8 rm imm => some (.and, rmOperand rm, .imm (sext32 imm))
  | .subRmR rm r => some (.sub, rmOperand rm, .reg r)
  | .subRRm r rm => some (.sub, .reg r, rmOperand rm)
  | .subEaxImm32 imm => some (.sub, .reg .eax, .imm imm)
  | .subRmImm32 rm imm => some (.sub, rmOperand rm, .imm imm)
  | .subRmImm8 rm imm => some (.sub, rmOperand rm, .imm (sext32 imm))
  | .xorRmR rm r => some (.xor, rmOperand rm, .reg r)
  | .xorRRm r rm => some (.xor, .reg r, rmOperand rm)
  | .xorEaxImm32 imm => some (.xor, .reg .eax, .imm imm)
  | .xorRmImm32 rm imm => some (.xor, rmOperand rm, .imm imm)
  | .xorRmImm8 rm imm => some (.xor, rmOperand rm, .imm (sext32 imm))
  | .cmpRmR rm r => some (.cmp, rmOperand rm, .reg r)
  | .cmpRRm r rm => some (.cmp, .reg r, rmOperand rm)
  | .cmpEaxImm32 imm => some (.cmp, .reg .eax, .imm imm)
  | .cmpRmImm32 rm imm => some (.cmp, rmOperand rm, .imm imm)
  | .cmpRmImm8 rm imm => some (.cmp, rmOperand rm, .imm (sext32 imm))
  | _ => none

/-- The three forms of `TEST`: its first and second operand (R189). -/
def testForm : Instr → Option (Operand × Operand)
  | .testRmR rm r => some (rmOperand rm, .reg r)
  | .testEaxImm32 imm => some (.reg .eax, .imm imm)
  | .testRmImm32 rm imm => some (rmOperand rm, .imm imm)
  | _ => none

/-- The one-operand operations (R200). -/
inductive UnaryOp where
  | inc | dec | not | neg
  deriving DecidableEq, Repr

/-- The forms of `INC`, `DEC`, `NOT`, `NEG` (R200). -/
def unaryForm : Instr → Option (UnaryOp × Operand)
  | .incR r => some (.inc, .reg r)
  | .decR r => some (.dec, .reg r)
  | .incRm rm => some (.inc, rmOperand rm)
  | .decRm rm => some (.dec, rmOperand rm)
  | .notRm rm => some (.not, rmOperand rm)
  | .negRm rm => some (.neg, rmOperand rm)
  | _ => none

/-- The nine forms of the shifts: the operation, its operand, and the count masked to five bits, which the `D3` form
takes from `ecx` (R205, R206). -/
def shiftForm (s : State) : Instr → Option (ShiftOp × Operand × Nat)
  | .shlRm1 rm => some (.shl, rmOperand rm, 1)
  | .shlRmImm8 rm imm => some (.shl, rmOperand rm, imm.toNat % 32)
  | .shlRmCl rm => some (.shl, rmOperand rm, (s.reg .ecx).toNat % 32)
  | .shrRm1 rm => some (.shr, rmOperand rm, 1)
  | .shrRmImm8 rm imm => some (.shr, rmOperand rm, imm.toNat % 32)
  | .shrRmCl rm => some (.shr, rmOperand rm, (s.reg .ecx).toNat % 32)
  | .sarRm1 rm => some (.sar, rmOperand rm, 1)
  | .sarRmImm8 rm imm => some (.sar, rmOperand rm, imm.toNat % 32)
  | .sarRmCl rm => some (.sar, rmOperand rm, (s.reg .ecx).toNat % 32)
  | _ => none

/-- The four forms of `MOV`: `dst` and `src` (R221). -/
def moveForm : Instr → Option (Operand × Operand)
  | .movRmR rm r => some (rmOperand rm, .reg r)
  | .movRRm r rm => some (.reg r, rmOperand rm)
  | .movRImm32 r imm => some (.reg r, .imm imm)
  | .movRmImm32 rm imm => some (rmOperand rm, .imm imm)
  | _ => none

/-- The three forms of `PUSH`: the value pushed, read before `esp` changes (R231). -/
def pushForm (s : State) : Instr → Option Word
  | .pushR r => some (s.reg r)
  | .pushImm32 imm => some imm
  | .pushImm8 imm => some (sext32 imm)
  | _ => none

/-- The two forms of `JMP`: the offset (R241). -/
def jmpForm : Instr → Option Word
  | .jmpRel8 rel => some (sext32 rel)
  | .jmpRel32 rel => some rel
  | _ => none

/-- The two forms of each conditional jump: the condition and the offset (R242). -/
def jccForm : Instr → Option (Cond × Word)
  | .joRel8 rel => some (.o, sext32 rel)
  | .joRel32 rel => some (.o, rel)
  | .jnoRel8 rel => some (.no, sext32 rel)
  | .jnoRel32 rel => some (.no, rel)
  | .jbRel8 rel => some (.b, sext32 rel)
  | .jbRel32 rel => some (.b, rel)
  | .jaeRel8 rel => some (.ae, sext32 rel)
  | .jaeRel32 rel => some (.ae, rel)
  | .jeRel8 rel => some (.e, sext32 rel)
  | .jeRel32 rel => some (.e, rel)
  | .jneRel8 rel => some (.ne, sext32 rel)
  | .jneRel32 rel => some (.ne, rel)
  | .jbeRel8 rel => some (.be, sext32 rel)
  | .jbeRel32 rel => some (.be, rel)
  | .jaRel8 rel => some (.a, sext32 rel)
  | .jaRel32 rel => some (.a, rel)
  | .jsRel8 rel => some (.s, sext32 rel)
  | .jsRel32 rel => some (.s, rel)
  | .jnsRel8 rel => some (.ns, sext32 rel)
  | .jnsRel32 rel => some (.ns, rel)
  | .jpRel8 rel => some (.p, sext32 rel)
  | .jpRel32 rel => some (.p, rel)
  | .jnpRel8 rel => some (.np, sext32 rel)
  | .jnpRel32 rel => some (.np, rel)
  | .jlRel8 rel => some (.l, sext32 rel)
  | .jlRel32 rel => some (.l, rel)
  | .jgeRel8 rel => some (.ge, sext32 rel)
  | .jgeRel32 rel => some (.ge, rel)
  | .jleRel8 rel => some (.le, sext32 rel)
  | .jleRel32 rel => some (.le, rel)
  | .jgRel8 rel => some (.g, sext32 rel)
  | .jgRel32 rel => some (.g, rel)
  | _ => none

/-! ### What an instruction may write -/

/-- The operand that an instruction writes its result to: none for `CMP`, `TEST`, a shift whose masked count is 0,
`NOP`, and the stack and control instructions. -/
def resultOperand (s : State) (i : Instr) : Option Operand :=
  match aluForm i, unaryForm i, shiftForm s i, moveForm i with
  | some (op, dst, _), _, _, _ => if op = .cmp then none else some dst
  | _, some (_, op), _, _ => some op
  | _, _, some (_, op, count), _ => if count = 0 then none else some op
  | _, _, _, some (dst, _) => some dst
  | none, none, none, none => none

/-- The address of the four bytes an instruction stores to, none for a form that stores nothing: the effective address
of a memory destination, or the stack slot just below `esp` for `PUSH` and `CALL`. -/
def storeAddress (s : State) (i : Instr) : Option Word :=
  match i with
  | .pushR _ => some (s.reg .esp - 4)
  | .pushImm32 _ => some (s.reg .esp - 4)
  | .pushImm8 _ => some (s.reg .esp - 4)
  | .callRel32 _ => some (s.reg .esp - 4)
  | _ =>
    match resultOperand s i with
    | some (.mem base disp) => some (s.effectiveAddress base disp)
    | some (.reg _) => none
    | some (.imm _) => none
    | none => none

/-- The general registers an instruction may write: a register destination, and `esp` for the stack instructions. -/
def writtenRegs (s : State) (i : Instr) : List Reg :=
  match i with
  | .pushR _ => [.esp]
  | .pushImm32 _ => [.esp]
  | .pushImm8 _ => [.esp]
  | .callRel32 _ => [.esp]
  | .ret => [.esp]
  | .popR r => [.esp, r]
  | _ =>
    match resultOperand s i with
    | some (.reg r) => [r]
    | some (.mem _ _) => []
    | some (.imm _) => []
    | none => []

/-- The flags an instruction writes: the second column of the table of 10_state.md R29. -/
def writtenFlags (s : State) (i : Instr) : List Flag :=
  match aluForm i, testForm i, unaryForm i, shiftForm s i with
  | some _, _, _, _ => [.cf, .pf, .af, .zf, .sf, .of]
  | _, some _, _, _ => [.cf, .pf, .af, .zf, .sf, .of]
  | _, _, some (.inc, _), _ => [.pf, .af, .zf, .sf, .of]
  | _, _, some (.dec, _), _ => [.pf, .af, .zf, .sf, .of]
  | _, _, some (.neg, _), _ => [.cf, .pf, .af, .zf, .sf, .of]
  | _, _, some (.not, _), _ => []
  | _, _, _, some (_, _, count) => if count = 0 then [] else [.cf, .pf, .af, .zf, .sf, .of]
  | none, none, none, none => []

/-- The flags an instruction reads: the third column of the table of 10_state.md R29, a condition's flags as the table
of 45_control_flow.md R243 gives them. -/
def readFlags (i : Instr) : List Flag :=
  match aluForm i, jccForm i with
  | some (.adc, _, _), _ => [.cf]
  | some (.sbb, _, _), _ => [.cf]
  | _, some (cc, _) =>
    match cc with
    | .o => [.of]
    | .no => [.of]
    | .b => [.cf]
    | .ae => [.cf]
    | .e => [.zf]
    | .ne => [.zf]
    | .be => [.cf, .zf]
    | .a => [.cf, .zf]
    | .s => [.sf]
    | .ns => [.sf]
    | .p => [.pf]
    | .np => [.pf]
    | .l => [.sf, .of]
    | .ge => [.sf, .of]
    | .le => [.zf, .sf, .of]
    | .g => [.zf, .sf, .of]
  | _, none => []

/-- An operand that can be read and written: a memory operand needs its four bytes inside `[memStart, memEnd)`, the
sum without wrap-around (20_memory.md R65, R66, R80). -/
def Accessible (s : State) : Operand → Prop
  | .reg _ => True
  | .imm _ => True
  | .mem base disp =>
    s.bounds.memStart ≤ (s.effectiveAddress base disp).toNat ∧
    (s.effectiveAddress base disp).toNat + 4 ≤ s.bounds.memEnd

/-! ### Completion -/

/-- The state in which an instruction's error is taken, as 60_exceptions.md R305 describes it: the run state and the
latched kind change, nothing else. -/
def faultedWith (s : State) (f : Fault) : State :=
  { s with runState := .faulted, faultKind := match s.faultKind with | none => some f | some g => some g }

/-- The instruction completes and control goes to the instruction after it: `exec` answers a next state, with `eip` at
`(eip + len) mod 2^32`, no error taken, the section bounds as they were, and `P` of that state. -/
def CompletesWith (i : Instr) (s : State) (P : State → Prop) : Prop :=
  ∃ t, exec i s = .next t ∧ t.eip.toNat = (s.eip.toNat + (encode i).length) % 2 ^ 32 ∧
    t.runState = s.runState ∧ t.faultKind = s.faultKind ∧ t.bounds = s.bounds ∧ P t

/-- `ZF`, `SF` and `PF` of a state are those of a result (40_alu_flags.md R151): zero; the most significant bit; an even
number of 1 bits in the low byte. -/
def ResultFlags (t : State) (r : Word) : Prop :=
  t.testFlag .zf = decide (r.toNat = 0) ∧ t.testFlag .sf = decide (2 ^ 31 ≤ r.toNat) ∧
  t.testFlag .pf = decide ((List.range 8).countP (fun k => r.toNat.testBit k) % 2 = 0)

/-- `CF`, `OF` and `AF` of a state. -/
def CarryFlags (t : State) (cf of af : Bool) : Prop :=
  t.testFlag .cf = cf ∧ t.testFlag .of = of ∧ t.testFlag .af = af

/-- A signed result that 32 bits do not hold (40_alu_flags.md R152, R153). -/
def signedOverflow (x : Int) : Bool := decide (x < -2 ^ 31 ∨ 2 ^ 31 - 1 < x)

end Sys2Proof.Machine
end

