-- ==== Sys2Proof/Certificates/Slice0/Obligations.lean ====
section
/-! DEFINITION. The statements for the provers, from the numbered rules of spec/. -/

open Sys2Proof Sys2Proof.Machine

namespace Sys2Proof.Machine

/-! ### Shapes shared by several statements -/

/-- What the rules of a two-operand ALU instruction say (41_arith_logic.md R180): the five encodings; with both operands
readable, that the instruction completes with the given effect; with one outside the memory, that `OutOfBoundsError` is
taken with nothing written. -/
def TwoOperandRule (op : AluOp) (rmR rRm eaxImm : Byte) (digit : BitVec 3)
    (effect : State → Operand → Word → Word → State → Prop) : Prop :=
  (∀ rm r, encode (aluRmR op rm r) = rmR :: encodeRM rm r.number) ∧
  (∀ r rm, encode (aluRRm op r rm) = rRm :: encodeRM rm r.number) ∧
  (∀ imm, encode (aluEaxImm32 op imm) = eaxImm :: bytesOfWord imm) ∧
  (∀ rm imm, encode (aluRmImm32 op rm imm) = 0x81 :: (encodeRM rm digit ++ bytesOfWord imm)) ∧
  (∀ rm imm, encode (aluRmImm8 op rm imm) = 0x83 :: (encodeRM rm digit ++ [imm])) ∧
  (∀ i dst src s a b, aluForm i = some (op, dst, src) → s.mem.wf → s.readOp dst = .ok a → s.readOp src = .ok b →
    CompletesWith i s (effect s dst a b)) ∧
  (∀ i dst src s, aluForm i = some (op, dst, src) → ¬ Accessible s dst ∨ ¬ Accessible s src →
    exec i s = .next (faultedWith s .outOfBounds))

/-- What the rules of a one-operand instruction say of a form: with its operand readable it completes with the given
effect; with it outside the memory `OutOfBoundsError` is taken with nothing written (42_unary_shift.md R200). -/
def OneOperandRule (op : UnaryOp) (effect : State → Operand → Word → State → Prop) : Prop :=
  (∀ i dst s a, unaryForm i = some (op, dst) → s.mem.wf → s.readOp dst = .ok a → CompletesWith i s (effect s dst a)) ∧
  (∀ i dst s, unaryForm i = some (op, dst) → ¬ Accessible s dst → exec i s = .next (faultedWith s .outOfBounds))

/-- What the rules of a shift say (42_unary_shift.md R205, R206): the three encodings; for a masked count of 0, that
only `eip` changes; for a count of 1 to 31, that it completes with the given effect; and for an operand outside the
memory, whatever the count, that `OutOfBoundsError` is taken with nothing written. -/
def ShiftRule (op : ShiftOp) (digit : BitVec 3) (effect : State → Operand → Word → Nat → State → Prop) : Prop :=
  (∀ rm, encode (shiftRm1 op rm) = 0xD1 :: encodeRM rm digit) ∧
  (∀ rm imm, encode (shiftRmImm8 op rm imm) = 0xC1 :: (encodeRM rm digit ++ [imm])) ∧
  (∀ rm, encode (shiftRmCl op rm) = 0xD3 :: encodeRM rm digit) ∧
  (∀ i dst s a, shiftForm s i = some (op, dst, 0) → s.readOp dst = .ok a →
    exec i s = .next { s with eip := BitVec.ofNat 32 (s.eip.toNat + (encode i).length) }) ∧
  (∀ i dst s a c, shiftForm s i = some (op, dst, c) → c ≠ 0 → s.mem.wf → s.readOp dst = .ok a →
    CompletesWith i s (effect s dst a c)) ∧
  (∀ i dst s c, shiftForm s i = some (op, dst, c) → ¬ Accessible s dst →
    exec i s = .next (faultedWith s .outOfBounds))

/-- What the rule of a conditional jump says (45_control_flow.md R242): its two encodings, and for every state that the
jump goes to `next` plus the signed offset when the flags say so and to `next` otherwise, with nothing else changed. -/
def JumpRule (short : Byte → Instr) (near : Word → Instr) (cc : Nat) (taken : Word → Bool) : Prop :=
  (∀ rel, encode (short rel) = [BitVec.ofNat 8 (0x70 + cc), rel]) ∧
  (∀ rel, encode (near rel) = 0x0F :: BitVec.ofNat 8 (0x80 + cc) :: bytesOfWord rel) ∧
  (∀ rel s, exec (short rel) s =
    .next { s with eip := BitVec.ofInt 32 (if taken s.eflags then s.eip.toNat + 2 + rel.toInt else s.eip.toNat + 2) }) ∧
  (∀ rel s, exec (near rel) s =
    .next { s with eip := BitVec.ofInt 32 (if taken s.eflags then s.eip.toNat + 6 + rel.toInt else s.eip.toNat + 6) })

/-- The first bytes of the one-byte opcode map, the escape `0F` among them (30_encoding.md R108). -/
def admittedFirstBytes : List Nat :=
  [0x01, 0x09, 0x11, 0x19, 0x21, 0x29, 0x31, 0x39] ++ [0x03, 0x0B, 0x13, 0x1B, 0x23, 0x2B, 0x33, 0x3B] ++
  [0x05, 0x0D, 0x15, 0x1D, 0x25, 0x2D, 0x35, 0x3D] ++ [0x0F] ++ List.range' 0x40 32 ++ [0x68, 0x6A] ++
  List.range' 0x70 16 ++ [0x81, 0x83, 0x85, 0x89, 0x8B, 0x90, 0xA9] ++ List.range' 0xB8 8 ++
  [0xC1, 0xC3, 0xC7, 0xD1, 0xD3, 0xE8, 0xE9, 0xEB, 0xF4, 0xF7, 0xFF]

/-- The digits the group opcodes admit (30_encoding.md R115). -/
def admittedDigits : List (Nat × List Nat) :=
  [(0xC1, [4, 5, 7]), (0xD1, [4, 5, 7]), (0xD3, [4, 5, 7]), (0xC7, [0]), (0xF7, [0, 2, 3]), (0xFF, [0, 1])]

/-- The first bytes whose format has a ModRM byte (30_encoding.md R101, R108). -/
def modRMFirstBytes : List Nat :=
  [0x01, 0x09, 0x11, 0x19, 0x21, 0x29, 0x31, 0x39] ++ [0x03, 0x0B, 0x13, 0x1B, 0x23, 0x2B, 0x33, 0x3B] ++
  [0x81, 0x83, 0x85, 0x89, 0x8B, 0xC1, 0xC7, 0xD1, 0xD3, 0xF7, 0xFF]

/-- The formats of an instruction (30_encoding.md R101). -/
inductive Format where
  | op | opR | opRI32 | opI8 | opI32 | opRel8 | opRel32 | escRel32 | opM | opMI8 | opMI32
  deriving DecidableEq, Repr

/-- The format that the first byte selects, and for `F7` the digit of the ModRM byte `m` as well: the columns "Field
positions" and "Used by" of R101 with the opcode map of R108. -/
def formatOf (b m : Byte) : Option Format :=
  let n := b.toNat
  if n ∈ [0x90, 0xC3, 0xF4] then some .op
  else if n ∈ List.range' 0x40 32 then some .opR
  else if n ∈ List.range' 0xB8 8 then some .opRI32
  else if n = 0x6A then some .opI8
  else if n ∈ [0x05, 0x0D, 0x15, 0x1D, 0x25, 0x2D, 0x35, 0x3D, 0x68, 0xA9] then some .opI32
  else if n ∈ List.range' 0x70 16 ++ [0xEB] then some .opRel8
  else if n ∈ [0xE8, 0xE9] then some .opRel32
  else if n = 0x0F then some .escRel32
  else if n ∈ [0x83, 0xC1] then some .opMI8
  else if n ∈ [0x81, 0xC7] then some .opMI32
  else if n = 0xF7 then some (if m.toNat / 8 % 8 = 0 then .opMI32 else .opM)
  else if n ∈ modRMFirstBytes then some .opM
  else none

/-- The length of a format with `d` displacement bytes (R101, column "Length"). -/
def Format.length (d : Nat) : Format → Nat
  | .op => 1
  | .opR => 1
  | .opRI32 => 5
  | .opI8 => 2
  | .opI32 => 5
  | .opRel8 => 2
  | .opRel32 => 5
  | .escRel32 => 6
  | .opM => 2 + d
  | .opMI8 => 3 + d
  | .opMI32 => 6 + d

/-- `d`, fixed by the `mod` field of a ModRM byte: 1 for 01, 4 for 10, 0 for 00 and 11 (R101, R103). -/
def dispBytes (m : Byte) : Nat :=
  if m.toNat / 64 = 1 then 1 else if m.toNat / 64 = 2 then 4 else 0

/-- The ModRM forms that R103 refuses: `rm` = 4 with `mod` other than 11, and `rm` = 5 with `mod` = 00. -/
def refusedModRM (m : Byte) : Prop :=
  (m.toNat % 8 = 4 ∧ m.toNat / 64 ≠ 3) ∨ (m.toNat % 8 = 5 ∧ m.toNat / 64 = 0)

end Sys2Proof.Machine

/-! ### Encoding and decoding -/

/-- Words written out from the encodings of spec/opcode_table.json, one or more of every family, decode to the
instruction they stand for (30_encoding.md R101 to R109; the bytes of 95_test_vectors.md section 3). -/
def Obligations.WrittenOutWordsDecode : Prop :=
  ∀ bs : List Byte,
    decode (0x01 :: 0xD8 :: bs) = .ok (.addRmR (.reg .eax) .ebx, bs) ∧
    decode (0x03 :: 0x43 :: 0x04 :: bs) = .ok (.addRRm .eax (.memDisp8 .ebx 0x04), bs) ∧
    decode (0x81 :: 0xCB :: 0x00 :: 0xFF :: 0x00 :: 0x00 :: bs) = .ok (.orRmImm32 (.reg .ebx) 0xFF00, bs) ∧
    decode (0xF7 :: 0xC3 :: 0x01 :: 0x00 :: 0x00 :: 0x00 :: bs) = .ok (.testRmImm32 (.reg .ebx) 1, bs) ∧
    decode (0x47 :: bs) = .ok (.incR .edi, bs) ∧
    decode (0xF7 :: 0x13 :: bs) = .ok (.notRm (.mem .ebx), bs) ∧
    decode (0xC1 :: 0xE0 :: 0x04 :: bs) = .ok (.shlRmImm8 (.reg .eax) 4, bs) ∧
    decode (0x8B :: 0x83 :: 0x80 :: 0x00 :: 0x00 :: 0x00 :: bs) = .ok (.movRRm .eax (.memDisp32 .ebx 0x80), bs) ∧
    decode (0x90 :: bs) = .ok (.nop, bs) ∧
    decode (0x6A :: 0xFF :: bs) = .ok (.pushImm8 0xFF, bs) ∧
    decode (0x5C :: bs) = .ok (.popR .esp, bs) ∧
    decode (0xE9 :: 0xFB :: 0xFF :: 0xFF :: 0xFF :: bs) = .ok (.jmpRel32 0xFFFFFFFB, bs) ∧
    decode (0x0F :: 0x84 :: 0x01 :: 0x00 :: 0x00 :: 0x00 :: bs) = .ok (.jeRel32 1, bs) ∧
    decode (0xF4 :: bs) = .ok (.hlt, bs)

/-- Decoding the encoding of a well-formed instruction gives it back, with every operand at every value, whatever bytes
follow (30_encoding.md sections 1 to 5). -/
def Obligations.DecodeOfEncodeIsTheInstruction : Prop :=
  ∀ (i : Instr) (rest : List Byte), i.wellFormed = true → decode (encode i ++ rest) = .ok (i, rest)

/-- A byte sequence that decodes to an instruction is that instruction's encoding, and the instruction is well formed:
each admitted byte sequence has one meaning (30_encoding.md sections 4 and 5). -/
def Obligations.DecodedBytesAreTheEncoding : Prop :=
  ∀ (bytes rest : List Byte) (i : Instr), decode bytes = .ok (i, rest) → i.wellFormed = true ∧ bytes = encode i ++ rest

/-- R113 with the table of R101: the length of every encoding, and of whatever the decoder takes, is that of the format
with the displacement of the `mod` field; without a ModRM byte the first byte alone fixes it; with one the first byte, the
`mod` field and the digit do, and no later byte affects it; the shortest and the longest. -/
def Obligations.LengthIsFixedByFormatAndMod : Prop :=
  (∀ (i : Instr) (b : Byte) (rest : List Byte), encode i = b :: rest →
    ∃ f, formatOf b (rest.headD 0) = some f ∧ (encode i).length = f.length (dispBytes (rest.headD 0))) ∧
  (∀ (b : Byte) (bs rest : List Byte) (i : Instr), decode (b :: bs) = .ok (i, rest) →
    ∃ f, formatOf b (bs.headD 0) = some f ∧ (b :: bs).length = f.length (dispBytes (bs.headD 0)) + rest.length) ∧
  (∀ (i j : Instr) (b : Byte) (rest rest' : List Byte), encode i = b :: rest → encode j = b :: rest' →
    b.toNat ∉ modRMFirstBytes → (encode i).length = (encode j).length) ∧
  (∀ (i j : Instr) (b m m' : Byte) (rest rest' : List Byte), encode i = b :: m :: rest → encode j = b :: m' :: rest' →
    b.toNat ∈ modRMFirstBytes → m.toNat / 64 = m'.toNat / 64 → m.toNat / 8 % 8 = m'.toNat / 8 % 8 →
    (encode i).length = (encode j).length) ∧
  (∀ i : Instr,
    match i.rm? with
    | none => (encode i).length ∈ [1, 2, 5, 6]
    | some rm =>
      ∃ d, (match rm with | .reg _ => d = 0 | .mem _ => d = 0 | .memDisp8 _ _ => d = 1 | .memDisp32 _ _ => d = 4) ∧
        (encode i).length ∈ [2 + d, 3 + d, 6 + d]) ∧
  (∀ i : Instr, 1 ≤ (encode i).length ∧ (encode i).length ≤ 10) ∧
  (encode .nop).length = 1 ∧
  (∀ i : Instr, (encode i).length = 10 ↔
    ((encode i).head? = some 0x81 ∨ (encode i).head? = some 0xC7 ∨
      (∃ rm imm, i = .testRmImm32 rm imm)) ∧ ∃ base disp, i.rm? = some (.memDisp32 base disp)) ∧
  (∀ i j : Instr, (encode i).take 2 = (encode j).take 2 → (encode i).length = (encode j).length)

/-- Every byte sequence outside the opcode maps, the group digits and the ModRM table is refused, at the byte that
settles it, and every first byte of the map begins an instruction (30_encoding.md R103, R108 to R111, R115). -/
def Obligations.UnadmittedEncodingsAreRefused : Prop :=
  (∀ (b : Byte) bs, b.toNat ∉ admittedFirstBytes → decode (b :: bs) = .error .firstByte) ∧
  (∀ b : Byte, b.toNat ∈ admittedFirstBytes → ∃ bs i, decode (b :: bs) = .ok (i, [])) ∧
  (∀ (b : Byte) bs, b.toNat ∈ [0x26, 0x2E, 0x36, 0x3E, 0x64, 0x65, 0x66, 0x67, 0xF0, 0xF2, 0xF3] →
    decode (b :: bs) = .error .firstByte) ∧
  (∀ (n : BitVec 4) (rel : Word) bs,
    decode (0x0F :: BitVec.ofNat 8 (0x80 + n.toNat) :: (bytesOfWord rel ++ bs)) =
      .ok (jccRel32 (Cond.ofNumber n) rel, bs)) ∧
  (∀ (b : Byte) bs, b.toNat < 0x80 ∨ 0x8F < b.toNat → decode (0x0F :: b :: bs) = .error .secondByte) ∧
  (∀ (b m : Byte) bs ds, (b.toNat, ds) ∈ admittedDigits → m.toNat / 8 % 8 ∉ ds →
    decode (b :: m :: bs) = .error .digit) ∧
  (∀ (b m : Byte) bs, b.toNat ∈ modRMFirstBytes → refusedModRM m →
    (∀ ds, (b.toNat, ds) ∈ admittedDigits → m.toNat / 8 % 8 ∈ ds) → decode (b :: m :: bs) = .error .modRM)

/-- R114: two encodings of one operation on the same operands have the same effect and differ only in length: they leave
the same state but for `eip`, and where they complete `eip` lies as far beyond each one's own end. With the pairs the rule
lists: register to register, `eax` with an immediate, a small immediate, `INC` and `DEC` of a register, a zero
displacement, and near and short jumps. -/
def Obligations.RedundantEncodingsAgree : Prop :=
  (∀ (i j : Instr) (s : State),
    (aluForm i ≠ none ∧ aluForm i = aluForm j) ∨ (testForm i ≠ none ∧ testForm i = testForm j) ∨
    (unaryForm i ≠ none ∧ unaryForm i = unaryForm j) ∨ (shiftForm s i ≠ none ∧ shiftForm s i = shiftForm s j) ∨
    (moveForm i ≠ none ∧ moveForm i = moveForm j) ∨ (pushForm s i ≠ none ∧ pushForm s i = pushForm s j) ∨
    (jmpForm i ≠ none ∧ jmpForm i = jmpForm j) ∨ (jccForm i ≠ none ∧ jccForm i = jccForm j) →
    ∃ t u, exec i s = .next t ∧ exec j s = .next u ∧ { t with eip := 0 } = { u with eip := 0 } ∧
      (t.runState ≠ .faulted → t.eip - BitVec.ofNat 32 (encode i).length = u.eip - BitVec.ofNat 32 (encode j).length)) ∧
  (∀ op d r, aluForm (aluRmR op (.reg d) r) = aluForm (aluRRm op d (.reg r))) ∧
  (∀ d r, moveForm (.movRmR (.reg d) r) = moveForm (.movRRm d (.reg r))) ∧
  (∀ op imm, aluForm (aluEaxImm32 op imm) = aluForm (aluRmImm32 op (.reg .eax) imm)) ∧
  (∀ op rm imm, aluForm (aluRmImm8 op rm imm) = aluForm (aluRmImm32 op rm (sext32 imm))) ∧
  (∀ r, unaryForm (.incR r) = unaryForm (.incRm (.reg r)) ∧ unaryForm (.decR r) = unaryForm (.decRm (.reg r))) ∧
  (∀ base, rmOperand (.memDisp8 base 0) = rmOperand (.mem base) ∧
    rmOperand (.memDisp32 base 0) = rmOperand (.mem base)) ∧
  (∀ rel, jmpForm (.jmpRel8 rel) = jmpForm (.jmpRel32 (sext32 rel))) ∧
  (∀ cc rel, jccForm (jccRel8 cc rel) = jccForm (jccRel32 cc (sext32 rel)))

/-! ### Memory -/

/-- R65: `Load` succeeds exactly when `memStart <= address` and `address + size <= memEnd`, the sum a natural number;
byte `k` of the result is the cell at `address + k`; otherwise `OutOfBoundsError`. -/
def Obligations.LoadSucceedsExactlyInBounds : Prop :=
  ∀ (s : State) (a n : Nat), 1 ≤ n →
    (s.bounds.memStart ≤ a ∧ a + n ≤ s.bounds.memEnd →
      ∃ bytes, s.load a n = .ok bytes ∧ bytes.length = n ∧ ∀ k < n, bytes[k]? = some (s.mem.read (a + k))) ∧
    (¬ (s.bounds.memStart ≤ a ∧ a + n ≤ s.bounds.memEnd) → s.load a n = .error .outOfBounds) ∧
    s.load s.bounds.memEnd n = .error .outOfBounds

/-- R66: `Store` succeeds exactly when every byte is in bounds; byte `k` goes to the cell at `address + k`, every other
cell and everything but the memory stays; otherwise `OutOfBoundsError` and no byte is written (no state is answered). -/
def Obligations.StoreWritesExactlyItsBytes : Prop :=
  ∀ (s : State) (a : Nat) (bytes : List Byte), s.mem.wf →
    (s.bounds.memStart ≤ a ∧ a + bytes.length ≤ s.bounds.memEnd →
      ∃ t, s.store a bytes = .ok t ∧ t = { s with mem := t.mem } ∧ t.mem.wf ∧
        (∀ k (hk : k < bytes.length), t.mem.read (a + k) = bytes[k]) ∧
        (∀ x, x < a ∨ a + bytes.length ≤ x → t.mem.read x = s.mem.read x)) ∧
    (¬ (s.bounds.memStart ≤ a ∧ a + bytes.length ≤ s.bounds.memEnd) → s.store a bytes = .error .outOfBounds)

/-- R78: a store followed by a load of the same length at the same address returns exactly the bytes; a cell holds the
last byte stored to it, and a cell no store wrote keeps its value: `Initialize`'s, after it (the statement
InitializeLaysOutTheSections says which). R78 names no least length; for an empty run, whose load has the size 0 that R65
leaves out, see notes/assumptions/19.md. -/
def Obligations.StoreThenLoadReturnsTheBytes : Prop :=
  ∀ (s t : State) (a : Nat) (bytes : List Byte), s.mem.wf → s.store a bytes = .ok t →
    t.load a bytes.length = .ok bytes ∧
    (∀ y, y < a ∨ a + bytes.length ≤ y → t.mem.read y = s.mem.read y) ∧
    (∀ x v u, t.store x [v] = .ok u → u.mem.read x = v ∧ ∀ y, y ≠ x → u.mem.read y = t.mem.read y)

/-- R67: `MemRead(addr, 4)` and `MemRead(addr, 1)` are little-endian, and a 4-byte read sees in its bits `8k+7 : 8k` the
byte that a 1-byte read at `a + k` sees. -/
def Obligations.MemReadIsLittleEndian : Prop :=
  (∀ (s : State) (a v : Word), s.memRead a = .ok v →
    v.toNat = (s.mem.read a.toNat).toNat + 2 ^ 8 * (s.mem.read (a.toNat + 1)).toNat +
      2 ^ 16 * (s.mem.read (a.toNat + 2)).toNat + 2 ^ 24 * (s.mem.read (a.toNat + 3)).toNat ∧
    ∀ k < 4, s.load (a.toNat + k) 1 = .ok [v.extractLsb' (8 * k) 8]) ∧
  (∀ (s : State) (a : Nat) (bytes : List Byte), s.load a 1 = .ok bytes →
    (wordOfRun bytes).toNat = (s.mem.read a).toNat) ∧
  (∀ (s : State) (a : Word), (∃ v, s.memRead a = .ok v) ↔
    s.bounds.memStart ≤ a.toNat ∧ a.toNat + 4 ≤ s.bounds.memEnd)

/-- R68 and R69: `MemWrite(addr, 4, v)` stores `v[7:0]`, `v[15:8]`, `v[23:16]`, `v[31:24]` at ascending addresses, at any
byte address, or raises `OutOfBoundsError` and writes nothing; and a 4-byte read of the same address gives `v` back. -/
def Obligations.MemWriteIsLittleEndianAtAnyAddress : Prop :=
  ∀ (s : State) (a v : Word), s.mem.wf →
    (s.bounds.memStart ≤ a.toNat ∧ a.toNat + 4 ≤ s.bounds.memEnd →
      ∃ t, s.memWrite a v = .ok t ∧ t = { s with mem := t.mem } ∧ t.memRead a = .ok v ∧
        t.mem.read a.toNat = v.extractLsb' 0 8 ∧ t.mem.read (a.toNat + 1) = v.extractLsb' 8 8 ∧
        t.mem.read (a.toNat + 2) = v.extractLsb' 16 8 ∧ t.mem.read (a.toNat + 3) = v.extractLsb' 24 8 ∧
        ∀ x, x < a.toNat ∨ a.toNat + 4 ≤ x → t.mem.read x = s.mem.read x) ∧
    (¬ (s.bounds.memStart ≤ a.toNat ∧ a.toNat + 4 ≤ s.bounds.memEnd) → s.memWrite a v = .error .outOfBounds)

/-- R104 and R105 for a memory operand: the effective address is `(x[b] + D) mod 2^32` with `D` the displacement of the
`mod` field, the operand is read with `MemRead(EA, 4)` and written with `MemWrite(EA, 4, v)`, and a register or
immediate operand is read without the memory. -/
def Obligations.OperandsResolveAsTheRulesSay : Prop :=
  (∀ (s : State) (base : Reg) (disp8 : Byte) (disp32 : Word),
    rmOperand (.mem base) = .mem base 0 ∧
    (∃ d, rmOperand (.memDisp8 base disp8) = .mem base d ∧ d.toInt = disp8.toInt) ∧
    rmOperand (.memDisp32 base disp32) = .mem base disp32 ∧
    (s.effectiveAddress base disp32).toNat = ((s.reg base).toNat + disp32.toNat) % 2 ^ 32) ∧
  (∀ (s : State) (base : Reg) (disp v : Word),
    s.readOp (.mem base disp) = s.memRead (s.effectiveAddress base disp) ∧
    s.writeOp (.mem base disp) v = s.memWrite (s.effectiveAddress base disp) v) ∧
  (∀ (s : State) (r : Reg) (v : Word), s.readOp (.reg r) = .ok (s.reg r) ∧ s.readOp (.imm v) = .ok v ∧
    ∃ t, s.writeOp (.reg r) v = .ok t ∧ t = { s with regs := t.regs } ∧ t.reg r = v ∧
      ∀ q, q ≠ r → t.reg q = s.reg q)

/-! ### `Initialize` -/

/-- R62, R63 and R64: with a legal memory size and sections that fit, the section bounds and the contents of every byte;
the stack pointer returned is where the first stack byte stands. -/
def Obligations.InitializeLaysOutTheSections : Prop :=
  ∀ (base : Nat) (o : InitOptions) (s : State),
    base + o.memSize ≤ 2 ^ 32 → o.text.length + o.data.length + o.bss < o.memSize →
    o.text.length + o.data.length + o.bss + o.stack.length ≤ o.memSize →
    let t := hostInitialize base o s
    let sp := base + o.memSize - o.stack.length
    t.bounds = { memStart := base, textStart := base, textEnd := base + o.text.length,
                 dataStart := base + o.text.length, bssStart := base + o.text.length + o.data.length,
                 bssEnd := base + o.text.length + o.data.length + o.bss, memEnd := base + o.memSize } ∧
    (∀ k (hk : k < o.text.length), t.mem.read (t.bounds.textStart + k) = o.text[k]) ∧
    (∀ k (hk : k < o.data.length), t.mem.read (t.bounds.dataStart + k) = o.data[k]) ∧
    (∀ k (hk : k < o.stack.length), t.mem.read (sp + k) = o.stack[k]) ∧
    (∀ a, t.bounds.bssStart ≤ a → a < sp → t.mem.read a = 0x00) ∧
    (o.regs = [] → t.reg .esp = BitVec.ofNat 32 sp)

/-- The registers after a successful `Initialize` (10_state.md section 7, 70_reset_and_hazards.md section 1): each of the
nine names other than `eip` holds its entry of `regs`, else 0, or for `esp` the returned stack pointer; `eip` is the
entry point whatever `regs` says; `faultKind` is `None`; the run state is `ready` exactly when `eip` is in the text, and
`halted` otherwise. It depends on no earlier state. That a register holds a stack pointer of 2^32 reduced to 0 is the
model's reading (notes/assumptions/9.md). -/
def Obligations.InitializeSetsTheRegisters : Prop :=
  ∀ (base : Nat) (o : InitOptions) (s : State),
    base + o.memSize ≤ 2 ^ 32 → o.text.length + o.data.length + o.bss < o.memSize →
    o.text.length + o.data.length + o.bss + o.stack.length ≤ o.memSize → (o.regs.map Prod.fst).Nodup →
    let t := hostInitialize base o s
    (∀ n, n ≠ .eip → t.view n = (o.regs.lookup n).getD
      (if n = .esp then BitVec.ofNat 32 (base + o.memSize - o.stack.length) else 0)) ∧
    t.view .eip = o.entryPoint ∧ t.faultKind = none ∧
    (t.runState = .ready ↔ base ≤ o.entryPoint.toNat ∧ o.entryPoint.toNat < base + o.text.length) ∧
    (t.runState ≠ .ready → t.runState = .halted) ∧
    initializeResult t = some (if t.runState = .ready then .ready else .halted)

/-- R306: sections that do not fit a legal memory raise `LayoutOverflowError`, at `Initialize` only: the run state is
`faulted`, the kind is recorded, every later step is refused until a new `Initialize` with inputs that fit; and no step
ever latches this kind. -/
def Obligations.LayoutOverflowFaultsInitializeOnly : Prop :=
  (∀ (base : Nat) (o : InitOptions) (s : State), 1 ≤ o.memSize → base + o.memSize ≤ 2 ^ 32 →
    (o.memSize ≤ o.text.length + o.data.length + o.bss ∨
      o.memSize < o.text.length + o.data.length + o.bss + o.stack.length) →
    let t := hostInitialize base o s
    t.runState = .faulted ∧ t.faultKind = some .layoutOverflow ∧
    initializeResult t = some (.error .layoutOverflow) ∧
    (∀ n, Sys2Proof.core.run n t = .next t) ∧
    ∀ p, p.fits base = true → (hostInitialize base p t).faultKind = none) ∧
  (∀ s t : State, step s = .next t → t.faultKind = some .layoutOverflow → s.faultKind = some .layoutOverflow)

/-- `Initialize` establishes the invariant when the sections fit, and keeps it when they do not. -/
def Obligations.InitializeEstablishesTheInvariant : Prop :=
  ∀ (base : Nat) (o : InitOptions) (s : State),
    (o.fits base = true → (hostInitialize base o s).Inv) ∧ (s.Inv → (hostInitialize base o s).Inv)

/-- The state after reset is what `Initialize` leaves, whatever was before, for an empty text, data, bss and stack, no
register presets, the entry point at `MEM_START` and the memory size of the configuration: MODEL'S CHOICE of options
(notes/assumptions/1.md). Its registers but `esp` are 0, `eflags` is 0, and the machine is halted. -/
def Obligations.ResetIsAnInitializeOfEmptySections : Prop :=
  (∀ s, State.reset = hostInitialize Config.memStart
    { memSize := Config.resetMemSize, entryPoint := BitVec.ofNat 32 Config.memStart, text := [] } s) ∧
  (∀ r, r ≠ .esp → State.reset.reg r = 0) ∧
  State.reset.reg .esp = BitVec.ofNat 32 (Config.memStart + Config.resetMemSize) ∧
  State.reset.eflags = 0x00000000 ∧ State.reset.runState = .halted ∧ State.reset.faultKind = none

/-! ### The step sequencer -/

/-- A step runs the decoded instruction: where a ready machine has the bytes of a well-formed instruction at `eip`, inside
the memory, the step is that instruction's `exec` in the running state followed by the halt check on the new `eip`
(60_exceptions.md R300, R303). -/
def Obligations.StepRunsTheInstructionAtEip : Prop :=
  ∀ (s : State) (i : Instr), s.runState = .ready → i.wellFormed = true →
    s.bounds.memStart ≤ s.eip.toNat → s.eip.toNat + (encode i).length ≤ s.bounds.memEnd →
    (∀ k (hk : k < (encode i).length), s.mem.read (s.eip.toNat + k) = (encode i)[k]) →
    ∃ t, exec i { s with runState := .running } = .next t ∧
      step s = .next { t with
        runState := if t.runState = .running then
          (if t.bounds.textStart ≤ t.eip.toNat ∧ t.eip.toNat < t.bounds.textEnd then .ready else .halted)
          else t.runState }

/-- R301 and R309: outside `ready` every step raises `InvalidStateError`: the run state becomes `faulted`, also from
`halted`; the kind is latched if none was and kept otherwise; no register, flag or memory byte changes, however many
steps are tried; and the host is told `InvalidStateError` each time. -/
def Obligations.StepsOutsideReadyAreInvalid : Prop :=
  ∀ (s : State) (n : Nat), s.runState ≠ .ready →
    Sys2Proof.core.run (n + 1) s = .next (faultedWith s .invalidState) ∧
    ∀ t u, Sys2Proof.core.run n s = .next t → step t = .next u → stepResult t u = some (.error .invalidState)

/-- R308: bytes at `eip` that match no supported instruction raise `DecodeError` in the decode phase: nothing but the run
state and the kind changes, `eip` still points at the first byte, and further steps are refused. Said for any run of
bytes inside the memory that the decoder refuses. -/
def Obligations.UndecodableBytesRaiseDecodeError : Prop :=
  ∀ (s : State) (bytes : List Byte) (stop : DecodeStop), s.Inv → s.runState = .ready →
    decode bytes = .error stop → stop ≠ .outOfBytes → s.eip.toNat + bytes.length ≤ s.bounds.memEnd →
    (∀ k (hk : k < bytes.length), s.mem.read (s.eip.toNat + k) = bytes[k]) →
    step s = .next { s with runState := .faulted, faultKind := some .decode } ∧
    stepResult s (faultedWith s .decode) = some (.error .decode) ∧
    ∀ n, Sys2Proof.core.run (n + 1) s = .next { s with runState := .faulted, faultKind := some .decode }

/-- A fetch that would pass the end of the memory raises `OutOfBoundsError` (20_memory.md R79, 60_exceptions.md R307): the
bytes from `eip` to `memEnd` do not settle the decode, and nothing but the run state and the kind changes. -/
def Obligations.FetchPastTheMemoryIsOutOfBounds : Prop :=
  ∀ (s : State) (n : Nat), s.Inv → s.runState = .ready → s.eip.toNat + n = s.bounds.memEnd →
    decode (s.mem.readRun s.eip.toNat n) = .error .outOfBytes →
    step s = .next { s with runState := .faulted, faultKind := some .outOfBounds }

/-- R303: after a step of a ready machine the run state is `ready`, `halted` or `faulted`; `ready` exactly when the step
completed, the instruction was not `HLT` and the new `eip` is in the text; `halted` when it completed otherwise. The text
bounds do not move. -/
def Obligations.HaltCheckEndsEveryCompletedStep : Prop :=
  ∀ (s t : State), s.Inv → s.runState = .ready → step s = .next t →
    (t.runState = .ready ∨ t.runState = .halted ∨ t.runState = .faulted) ∧
    (t.runState = .ready → t.bounds.textStart ≤ t.eip.toNat ∧ t.eip.toNat < t.bounds.textEnd) ∧
    (t.runState = .halted → s.mem.read s.eip.toNat = 0xF4 ∨
      ¬ (t.bounds.textStart ≤ t.eip.toNat ∧ t.eip.toNat < t.bounds.textEnd)) ∧
    (s.mem.read s.eip.toNat = 0xF4 → t.runState = .halted ∧ t.eip = s.eip + 1) ∧
    t.bounds.textStart = s.bounds.textStart ∧ t.bounds.textEnd = s.bounds.textEnd

/-- Every step keeps the invariant (10_state.md R31, 20_memory.md R34, R72, 60_exceptions.md R303). -/
def Obligations.StepKeepsTheInvariant : Prop :=
  ∀ s t : State, s.Inv → step s = .next t → t.Inv

/-- The state after reset meets the invariant. -/
def Obligations.ResetMeetsTheInvariant : Prop := State.reset.Inv

/-- R27 and R32: no run, of any number of steps from any state, changes a bit of `eflags` other than bits 0, 2, 4, 6, 7
and 11, or a section bound. -/
def Obligations.RunsKeepReservedFlagBitsAndBounds : Prop :=
  ∀ (n : Nat) (s t : State), Sys2Proof.core.run n s = .next t →
    (∀ k, k ∉ [0, 2, 4, 6, 7, 11] → t.eflags.getLsbD k = s.eflags.getLsbD k) ∧ t.bounds = s.bounds

/-- R305: a step of a ready machine that raises an error leaves every register but `esp`, `eip`, every bit of `eflags` and
every byte of memory as they were; `esp` changes only when the instruction at `eip` is a `PUSH` or `CALL`, by 4; the kind
is latched; and no step leaves `faulted`. -/
def Obligations.ErrorsLeaveAtMostAPushedStackPointer : Prop :=
  (∀ s t : State, s.Inv → s.runState = .ready → step s = .next t → t.runState = .faulted →
    t.eip = s.eip ∧ t.eflags = s.eflags ∧ t.mem = s.mem ∧ t.bounds = s.bounds ∧
    (t.faultKind = some .outOfBounds ∨ t.faultKind = some .decode) ∧
    (∀ r, r ≠ .esp → t.reg r = s.reg r) ∧
    (t.reg .esp = s.reg .esp ∨
      (t.reg .esp = s.reg .esp - 4 ∧ t.faultKind = some .outOfBounds ∧
        (s.mem.read s.eip.toNat).toNat ∈ List.range' 0x50 8 ++ [0x68, 0x6A, 0xE8]))) ∧
  (∀ (n : Nat) (s t : State), s.runState = .faulted → Sys2Proof.core.run n s = .next t → t.runState = .faulted)

/-- The host never sees the machine stop: every step of every state answers a next state, errors being taken as
60_exceptions.md R305 describes, and under the invariant the host is always told `ready`, `halted` or an error kind, the
kind the state latches when the machine was ready (R304). -/
def Obligations.EveryStepAnswersAndReports : Prop :=
  (∀ s : State, ∃ t, step s = .next t) ∧
  (∀ s t : State, s.Inv → step s = .next t →
    (s.runState ≠ .ready → stepResult s t = some (.error .invalidState)) ∧
    (s.runState = .ready →
      (t.runState = .ready ∧ stepResult s t = some .ready) ∨ (t.runState = .halted ∧ stepResult s t = some .halted) ∨
      ∃ f, t.runState = .faulted ∧ t.faultKind = some f ∧ stepResult s t = some (.error f)))

/-- The host's ports (20_memory.md R77, 10_state.md R36): in `ready`, `halted` and `faulted` a `Store` changes the memory
alone, an out-of-bounds one is returned and changes nothing, a `Load` returns the stored bytes, and each of the ten entries
of the register view is the register of its name. MODEL'S CHOICES: that in `uninitialized` the ports answer nothing
(notes/assumptions/10.md), and what a `Load` of the length 0 of an empty run answers (notes/assumptions/19.md). -/
def Obligations.HostPortsTouchMemoryAlone : Prop :=
  (∀ (s : State) (a : Nat) (bytes : List Byte), s.Inv →
    (s.runState = .ready ∨ s.runState = .halted ∨ s.runState = .faulted) →
    (s.bounds.memStart ≤ a ∧ a + bytes.length ≤ s.bounds.memEnd →
      ∃ t, hostStore a bytes s = .next t ∧ t = { s with mem := t.mem } ∧ t.Inv ∧
        hostLoad a bytes.length t = .next bytes ∧
        ∀ x, x < a ∨ a + bytes.length ≤ x → hostLoad x 1 t = hostLoad x 1 s) ∧
    (¬ (s.bounds.memStart ≤ a ∧ a + bytes.length ≤ s.bounds.memEnd) →
      hostStore a bytes s = .fault .outOfBounds ∧ hostLoad a bytes.length s = .fault .outOfBounds) ∧
    (∀ n, hostView n s = .next (s.view n)) ∧
    hostView .eax s = .next (s.reg .eax) ∧ hostView .ecx s = .next (s.reg .ecx) ∧
    hostView .edx s = .next (s.reg .edx) ∧ hostView .ebx s = .next (s.reg .ebx) ∧
    hostView .esp s = .next (s.reg .esp) ∧ hostView .ebp s = .next (s.reg .ebp) ∧
    hostView .esi s = .next (s.reg .esi) ∧ hostView .edi s = .next (s.reg .edi) ∧
    hostView .eip s = .next s.eip ∧ hostView .eflags s = .next s.eflags) ∧
  (∀ (s : State) (a n : Nat) (bytes : List Byte) (v : ViewName), s.runState = .uninitialized →
    hostStore a bytes s = .refused .hostPortClosed ∧ hostLoad a n s = .refused .hostPortClosed ∧
    hostView v s = .refused .hostPortClosed)

/-- A table word placed by `withFetchWord` is what the next step fetches and runs, from any state whose memory is in
canonical form; and from reset it is the `Initialize` with those ten bytes as its text (the model's way for a program to
come in, notes/assumptions/7.md). -/
def Obligations.PlacedTableWordIsRun : Prop :=
  (∀ (s : State) (nbits w : Nat) (i : Instr), s.mem.wf → decodeTableWord nbits w = some i →
    ∃ t, exec i { s.withFetchWord nbits w with runState := .running } = .next t ∧
      step (s.withFetchWord nbits w) = .next t.haltCheck) ∧
  (∀ (nbits w : Nat) (s : State), State.reset.withFetchWord nbits w =
    hostInitialize Config.memStart
      { memSize := Config.resetMemSize, entryPoint := BitVec.ofNat 32 Config.memStart, text := tableBytes nbits w } s)

/-! ### The ALU cores -/

/-- R152: `AddCore`: the result, `CF` as the carry out, `OF` and `AF` by their formulas and as the equivalent statements
on signed readings and low nibbles. -/
def Obligations.AddCoreFlagsAreExact : Prop :=
  ∀ (a b : Word) (cin : Bool),
    let x := addCore a b cin
    x.value.toNat = (a.toNat + b.toNat + cin.toNat) % 2 ^ 32 ∧
    x.flags.cf = some (decide (2 ^ 32 ≤ a.toNat + b.toNat + cin.toNat)) ∧
    x.flags.of = some ((a ^^^ x.value) &&& (b ^^^ x.value)).msb ∧
    x.flags.of = some (signedOverflow (a.toInt + b.toInt + cin.toNat)) ∧
    x.flags.af = some ((a ^^^ b ^^^ x.value).getLsbD 4) ∧
    x.flags.af = some (decide (16 ≤ a.toNat % 16 + b.toNat % 16 + cin.toNat)) ∧
    x.flags.zf = some (decide (x.value.toNat = 0)) ∧ x.flags.sf = some (decide (2 ^ 31 ≤ x.value.toNat)) ∧
    x.flags.pf = some (decide ((List.range 8).countP (fun k => x.value.toNat.testBit k) % 2 = 0))

/-- R153: `SubCore`: the result, `CF` as the borrow, `OF` and `AF` by their formulas and as the equivalent statements. -/
def Obligations.SubCoreFlagsAreExact : Prop :=
  ∀ (a b : Word) (bin : Bool),
    let x := subCore a b bin
    x.value.toNat = (2 ^ 32 + a.toNat - (b.toNat + bin.toNat)) % 2 ^ 32 ∧
    x.flags.cf = some (decide (a.toNat < b.toNat + bin.toNat)) ∧
    x.flags.of = some ((a ^^^ b) &&& (a ^^^ x.value)).msb ∧
    x.flags.of = some (signedOverflow (a.toInt - b.toInt - bin.toNat)) ∧
    x.flags.af = some ((a ^^^ b ^^^ x.value).getLsbD 4) ∧
    x.flags.af = some (decide (a.toNat % 16 < b.toNat % 16 + bin.toNat)) ∧
    x.flags.zf = some (decide (x.value.toNat = 0)) ∧ x.flags.sf = some (decide (2 ^ 31 ≤ x.value.toNat)) ∧
    x.flags.pf = some (decide ((List.range 8).countP (fun k => x.value.toNat.testBit k) % 2 = 0))

/-- R161 with 10_state.md R27: a flag named in the map is written with its bit, every other bit of `eflags`, reserved bits
and unnamed flags alike, keeps its value, and nothing else of the state changes. -/
def Obligations.FlagWriteBackWritesOnlyNamedFlags : Prop :=
  ∀ (s : State) (m : FlagMap),
    (∀ f b, m.get f = some b → (s.writeFlags m).testFlag f = b) ∧
    (∀ f, m.get f = none → (s.writeFlags m).testFlag f = s.testFlag f) ∧
    (∀ k, (∀ f, flagBit f ≠ k) → (s.writeFlags m).eflags.getLsbD k = s.eflags.getLsbD k) ∧
    s.writeFlags m = { s with eflags := (s.writeFlags m).eflags }

/-! ### Two-operand arithmetic, logic and compare -/

/-- R181: `ADD`. -/
def Obligations.AddWritesSumAndSixFlags : Prop :=
  TwoOperandRule .add 0x01 0x03 0x05 0 fun _ dst a b t =>
    let r := BitVec.ofNat 32 (a.toNat + b.toNat)
    t.readOp dst = .ok r ∧ ResultFlags t r ∧
    CarryFlags t (decide (2 ^ 32 ≤ a.toNat + b.toNat)) (signedOverflow (a.toInt + b.toInt))
      (decide (16 ≤ a.toNat % 16 + b.toNat % 16))

/-- R183: `ADC`, with the `CF` before the instruction. -/
def Obligations.AdcAddsTheCarry : Prop :=
  TwoOperandRule .adc 0x11 0x13 0x15 2 fun s dst a b t =>
    let c := (s.testFlag .cf).toNat
    let r := BitVec.ofNat 32 (a.toNat + b.toNat + c)
    t.readOp dst = .ok r ∧ ResultFlags t r ∧
    CarryFlags t (decide (2 ^ 32 ≤ a.toNat + b.toNat + c)) (signedOverflow (a.toInt + b.toInt + c))
      (decide (16 ≤ a.toNat % 16 + b.toNat % 16 + c))

/-- R186: `SUB`. -/
def Obligations.SubWritesDifferenceAndSixFlags : Prop :=
  TwoOperandRule .sub 0x29 0x2B 0x2D 5 fun _ dst a b t =>
    let r := BitVec.ofNat 32 (2 ^ 32 + a.toNat - b.toNat)
    t.readOp dst = .ok r ∧ ResultFlags t r ∧
    CarryFlags t (decide (a.toNat < b.toNat)) (signedOverflow (a.toInt - b.toInt))
      (decide (a.toNat % 16 < b.toNat % 16))

/-- R184: `SBB`, with the `CF` before the instruction. -/
def Obligations.SbbSubtractsTheBorrow : Prop :=
  TwoOperandRule .sbb 0x19 0x1B 0x1D 3 fun s dst a b t =>
    let c := (s.testFlag .cf).toNat
    let r := BitVec.ofNat 32 (2 ^ 32 + a.toNat - (b.toNat + c))
    t.readOp dst = .ok r ∧ ResultFlags t r ∧
    CarryFlags t (decide (a.toNat < b.toNat + c)) (signedOverflow (a.toInt - b.toInt - c))
      (decide (a.toNat % 16 < b.toNat % 16 + c))

/-- R188: `CMP` writes the flags of the difference and neither register nor memory. -/
def Obligations.CmpWritesOnlyFlags : Prop :=
  TwoOperandRule .cmp 0x39 0x3B 0x3D 7 fun s _ a b t =>
    t.regs = s.regs ∧ t.mem = s.mem ∧ ResultFlags t (BitVec.ofNat 32 (2 ^ 32 + a.toNat - b.toNat)) ∧
    CarryFlags t (decide (a.toNat < b.toNat)) (signedOverflow (a.toInt - b.toInt))
      (decide (a.toNat % 16 < b.toNat % 16))

/-- R182, R185 and R187: `OR`, `AND`, `XOR`: the result bit by bit, `CF` = `OF` = 0, `AF` the free value `ArchUndef` of the
mnemonic and the operands, whatever it is. -/
def Obligations.LogicWritesResultAndClearsCarries : Prop :=
  (TwoOperandRule .or 0x09 0x0B 0x0D 1 fun _ dst a b t =>
    ∃ r, t.readOp dst = .ok r ∧ (∀ k, r.getLsbD k = (a.getLsbD k || b.getLsbD k)) ∧ ResultFlags t r ∧
      CarryFlags t false false (Config.archUndef .or .af a b)) ∧
  (TwoOperandRule .and 0x21 0x23 0x25 4 fun _ dst a b t =>
    ∃ r, t.readOp dst = .ok r ∧ (∀ k, r.getLsbD k = (a.getLsbD k && b.getLsbD k)) ∧ ResultFlags t r ∧
      CarryFlags t false false (Config.archUndef .and .af a b)) ∧
  (TwoOperandRule .xor 0x31 0x33 0x35 6 fun _ dst a b t =>
    ∃ r, t.readOp dst = .ok r ∧ (∀ k, r.getLsbD k = (a.getLsbD k ^^ b.getLsbD k)) ∧ ResultFlags t r ∧
      CarryFlags t false false (Config.archUndef .xor .af a b))

/-- R189: `TEST`: its three forms (`F7 /1` is none); the flags of `a & b`, and nothing but flags is written. -/
def Obligations.TestWritesOnlyFlags : Prop :=
  (∀ rm r, encode (.testRmR rm r) = 0x85 :: encodeRM rm r.number) ∧
  (∀ imm, encode (.testEaxImm32 imm) = 0xA9 :: bytesOfWord imm) ∧
  (∀ rm imm, encode (.testRmImm32 rm imm) = 0xF7 :: (encodeRM rm 0 ++ bytesOfWord imm)) ∧
  (∀ (m : Byte) bs, m.toNat / 8 % 8 = 1 → decode (0xF7 :: m :: bs) = .error .digit) ∧
  (∀ i fst snd s a b, testForm i = some (fst, snd) → s.readOp fst = .ok a → s.readOp snd = .ok b →
    CompletesWith i s fun t => t.regs = s.regs ∧ t.mem = s.mem ∧
      ∃ r : Word, (∀ k, r.getLsbD k = (a.getLsbD k && b.getLsbD k)) ∧ ResultFlags t r ∧
        CarryFlags t false false (Config.archUndef .test .af a b)) ∧
  (∀ i fst snd s, testForm i = some (fst, snd) → ¬ Accessible s fst ∨ ¬ Accessible s snd →
    exec i s = .next (faultedWith s .outOfBounds))

/-! ### One-operand arithmetic and shifts -/

/-- R201 and R202: `INC` and `DEC`: `CF` is not written. -/
def Obligations.IncAndDecKeepTheCarry : Prop :=
  (∀ r, encode (.incR r) = [BitVec.ofNat 8 (0x40 + r.number.toNat)]) ∧
  (∀ rm, encode (.incRm rm) = 0xFF :: encodeRM rm 0) ∧
  (∀ r, encode (.decR r) = [BitVec.ofNat 8 (0x48 + r.number.toNat)]) ∧
  (∀ rm, encode (.decRm rm) = 0xFF :: encodeRM rm 1) ∧
  (OneOperandRule .inc fun s dst a t =>
    let r := BitVec.ofNat 32 (a.toNat + 1)
    t.readOp dst = .ok r ∧ ResultFlags t r ∧
    CarryFlags t (s.testFlag .cf) (decide (a.toNat = 2 ^ 31 - 1)) (decide (a.toNat % 16 = 15))) ∧
  (OneOperandRule .dec fun s dst a t =>
    let r := BitVec.ofNat 32 (2 ^ 32 + a.toNat - 1)
    t.readOp dst = .ok r ∧ ResultFlags t r ∧
    CarryFlags t (s.testFlag .cf) (decide (a.toNat = 2 ^ 31)) (decide (a.toNat % 16 = 0)))

/-- R203 and R204: `NEG` with all six flags, and `NOT`, which leaves `eflags` unchanged in all 32 bits. -/
def Obligations.NegAndNotResults : Prop :=
  (∀ rm, encode (.negRm rm) = 0xF7 :: encodeRM rm 3) ∧
  (∀ rm, encode (.notRm rm) = 0xF7 :: encodeRM rm 2) ∧
  (OneOperandRule .neg fun _ dst a t =>
    let r := BitVec.ofNat 32 (2 ^ 32 - a.toNat)
    t.readOp dst = .ok r ∧ ResultFlags t r ∧
    CarryFlags t (decide (a.toNat ≠ 0)) (decide (a.toNat = 2 ^ 31)) (decide (a.toNat % 16 ≠ 0))) ∧
  (OneOperandRule .not fun s dst a t =>
    t.readOp dst = .ok (BitVec.ofNat 32 (2 ^ 32 - 1 - a.toNat)) ∧ t.eflags = s.eflags)

/-- R207 with R206: `SHL`. `OF` after a count above 1 and `AF` are the free value `ArchUndef`, whatever it is. -/
def Obligations.ShlShiftsLeft : Prop :=
  ShiftRule .shl 4 fun _ dst a c t =>
    let r := BitVec.ofNat 32 (a.toNat * 2 ^ c)
    let cf := a.toNat.testBit (32 - c)
    t.readOp dst = .ok r ∧ ResultFlags t r ∧
    CarryFlags t cf (if c = 1 then r.toNat.testBit 31 ^^ cf else Config.archUndef .shl .of a (BitVec.ofNat 32 c))
      (Config.archUndef .shl .af a (BitVec.ofNat 32 c))

/-- R208 and R209 with R206: `SHR`, and `SAR`, the floor of the signed reading over `2^c`. -/
def Obligations.ShrAndSarShiftRight : Prop :=
  (ShiftRule .shr 5 fun _ dst a c t =>
    let r := BitVec.ofNat 32 (a.toNat / 2 ^ c)
    t.readOp dst = .ok r ∧ ResultFlags t r ∧
    CarryFlags t (a.toNat.testBit (c - 1))
      (if c = 1 then a.toNat.testBit 31 else Config.archUndef .shr .of a (BitVec.ofNat 32 c))
      (Config.archUndef .shr .af a (BitVec.ofNat 32 c))) ∧
  (ShiftRule .sar 7 fun _ dst a c t =>
    let r := BitVec.ofInt 32 (a.toInt / 2 ^ c)
    t.readOp dst = .ok r ∧ ResultFlags t r ∧
    CarryFlags t (a.toNat.testBit (c - 1))
      (if c = 1 then false else Config.archUndef .sar .of a (BitVec.ofNat 32 c))
      (Config.archUndef .sar .af a (BitVec.ofNat 32 c)))

/-! ### Data movement and the stack -/

/-- R221, and R224 for what `NOP` does: `MOV` in its four forms, with its encodings and its errors, and `NOP`: no flag is
written. -/
def Obligations.MovCopiesAndNopAdvances : Prop :=
  (∀ rm r, encode (.movRmR rm r) = 0x89 :: encodeRM rm r.number) ∧
  (∀ r rm, encode (.movRRm r rm) = 0x8B :: encodeRM rm r.number) ∧
  (∀ r imm, encode (.movRImm32 r imm) = BitVec.ofNat 8 (0xB8 + r.number.toNat) :: bytesOfWord imm) ∧
  (∀ rm imm, encode (.movRmImm32 rm imm) = 0xC7 :: (encodeRM rm 0 ++ bytesOfWord imm)) ∧
  (∀ i dst src s v, moveForm i = some (dst, src) → s.mem.wf → Accessible s dst → s.readOp src = .ok v →
    CompletesWith i s fun t => t.readOp dst = .ok v ∧ t.eflags = s.eflags) ∧
  (∀ i dst src s, moveForm i = some (dst, src) → ¬ Accessible s dst ∨ ¬ Accessible s src →
    exec i s = .next (faultedWith s .outOfBounds)) ∧
  (∀ (m : Byte) bs, m.toNat / 8 % 8 ≠ 0 → decode (0xC7 :: m :: bs) = .error .digit) ∧
  (∀ (m : Byte) bs, refusedModRM m → decode (0x89 :: m :: bs) = .error .modRM ∧ decode (0x8B :: m :: bs) = .error .modRM ∧
    (m.toNat / 8 % 8 = 0 → decode (0xC7 :: m :: bs) = .error .modRM)) ∧
  encode .nop = [0x90] ∧
  (∀ s, exec .nop s = .next { s with eip := BitVec.ofNat 32 (s.eip.toNat + 1) })

/-- R231: `PUSH`: the source is read before `esp` changes; `esp` goes down by 4 modulo 2^32 and the value stands in the
slot at the new `esp`; when the slot is outside the memory, `OutOfBoundsError` with `esp` already decremented. -/
def Obligations.PushDecrementsThenWrites : Prop :=
  (∀ r, encode (.pushR r) = [BitVec.ofNat 8 (0x50 + r.number.toNat)]) ∧
  (∀ imm, encode (.pushImm32 imm) = 0x68 :: bytesOfWord imm) ∧
  (∀ imm, encode (.pushImm8 imm) = [0x6A, imm]) ∧
  (∀ i s v, pushForm s i = some v → s.mem.wf →
    let slot := BitVec.ofNat 32 (2 ^ 32 + (s.reg .esp).toNat - 4)
    (s.bounds.memStart ≤ slot.toNat ∧ slot.toNat + 4 ≤ s.bounds.memEnd →
      CompletesWith i s fun t => t.reg .esp = slot ∧ t.memRead slot = .ok v ∧ t.eflags = s.eflags) ∧
    (¬ (s.bounds.memStart ≤ slot.toNat ∧ slot.toNat + 4 ≤ s.bounds.memEnd) →
      exec i s = .next (faultedWith { s with regs := s.regs.set .esp slot } .outOfBounds)))

/-- R232: `POP`: the slot at `esp` is read, `esp` goes up by 4 modulo 2^32, then the register is written, so that
`pop esp` leaves the loaded value; a slot outside the memory is `OutOfBoundsError` with no state changed. -/
def Obligations.PopReadsThenIncrements : Prop :=
  (∀ r, encode (.popR r) = [BitVec.ofNat 8 (0x58 + r.number.toNat)]) ∧
  (∀ bs, decode (0x8F :: bs) = .error .firstByte) ∧
  (∀ r s v, s.memRead (s.reg .esp) = .ok v →
    CompletesWith (.popR r) s fun t => t.reg r = v ∧ (r ≠ .esp → t.reg .esp = BitVec.ofNat 32 ((s.reg .esp).toNat + 4)) ∧
      t.eflags = s.eflags ∧ t.mem = s.mem) ∧
  (∀ r s, ¬ (s.bounds.memStart ≤ (s.reg .esp).toNat ∧ (s.reg .esp).toNat + 4 ≤ s.bounds.memEnd) →
    exec (.popR r) s = .next (faultedWith s .outOfBounds))

/-- The pair of 44_stack.md (R232, its worked example): where a push of a register completes, a pop of the same register after it leaves
every register as it was before the pair, `esp` included. -/
def Obligations.PushThenPopRestoresRegisters : Prop :=
  ∀ (r : Reg) (s t : State), s.mem.wf → s.runState ≠ .faulted → exec (.pushR r) s = .next t → t.runState ≠ .faulted →
    ∃ u, exec (.popR r) t = .next u ∧ u.regs = s.regs ∧ u.eflags = s.eflags ∧ u.runState = s.runState ∧
      u.eip = BitVec.ofNat 32 (s.eip.toNat + 2)

/-! ### Control transfer -/

/-- R241 with R240: `JMP` goes to `next` plus the signed offset, modulo 2^32, in every state, and nothing else changes. -/
def Obligations.JmpGoesToRelativeTarget : Prop :=
  (∀ rel, encode (.jmpRel8 rel) = [0xEB, rel]) ∧
  (∀ rel, encode (.jmpRel32 rel) = 0xE9 :: bytesOfWord rel) ∧
  (∀ rel s, exec (.jmpRel8 rel) s = .next { s with eip := BitVec.ofInt 32 (s.eip.toNat + 2 + rel.toInt) }) ∧
  (∀ rel s, exec (.jmpRel32 rel) s = .next { s with eip := BitVec.ofInt 32 (s.eip.toNat + 5 + rel.toInt) })

/-- A ready machine with `EB FE` at `eip` in the text stays as it is and ready for ever (93_implementation_defined.md I10,
the corner case of 45_control_flow.md section 1): no number of steps ends the run. -/
def Obligations.SelfJumpNeverEnds : Prop :=
  ∀ (s : State) (n : Nat), s.Inv → s.runState = .ready → s.mem.read s.eip.toNat = 0xEB →
    s.mem.read (s.eip.toNat + 1) = 0xFE → s.eip.toNat + 2 ≤ s.bounds.memEnd →
    Sys2Proof.core.run n s = .next s ∧ SafeRun s n

/-- R244 to R251: the conditional jumps on overflow, carry, zero and their combinations. -/
def Obligations.JumpsOnOverflowCarryZero : Prop :=
  JumpRule .joRel8 .joRel32 0 (fun f => f.getLsbD 11) ∧
  JumpRule .jnoRel8 .jnoRel32 1 (fun f => !f.getLsbD 11) ∧
  JumpRule .jbRel8 .jbRel32 2 (fun f => f.getLsbD 0) ∧
  JumpRule .jaeRel8 .jaeRel32 3 (fun f => !f.getLsbD 0) ∧
  JumpRule .jeRel8 .jeRel32 4 (fun f => f.getLsbD 6) ∧
  JumpRule .jneRel8 .jneRel32 5 (fun f => !f.getLsbD 6) ∧
  JumpRule .jbeRel8 .jbeRel32 6 (fun f => f.getLsbD 0 || f.getLsbD 6) ∧
  JumpRule .jaRel8 .jaRel32 7 (fun f => !(f.getLsbD 0 || f.getLsbD 6))

/-- R252 to R259: the conditional jumps on sign, parity and the signed comparisons. -/
def Obligations.JumpsOnSignParityAndSignedOrder : Prop :=
  JumpRule .jsRel8 .jsRel32 8 (fun f => f.getLsbD 7) ∧
  JumpRule .jnsRel8 .jnsRel32 9 (fun f => !f.getLsbD 7) ∧
  JumpRule .jpRel8 .jpRel32 10 (fun f => f.getLsbD 2) ∧
  JumpRule .jnpRel8 .jnpRel32 11 (fun f => !f.getLsbD 2) ∧
  JumpRule .jlRel8 .jlRel32 12 (fun f => f.getLsbD 7 ^^ f.getLsbD 11) ∧
  JumpRule .jgeRel8 .jgeRel32 13 (fun f => !(f.getLsbD 7 ^^ f.getLsbD 11)) ∧
  JumpRule .jleRel8 .jleRel32 14 (fun f => f.getLsbD 6 || (f.getLsbD 7 ^^ f.getLsbD 11)) ∧
  JumpRule .jgRel8 .jgRel32 15 (fun f => !(f.getLsbD 6 || (f.getLsbD 7 ^^ f.getLsbD 11)))

/-- The last column of the table of 45_control_flow.md R243: after `cmp a, b` the conditions compare `a` and `b`, unsigned
and signed. -/
def Obligations.ConditionsAfterCmpCompare : Prop :=
  ∀ (i : Instr) (fst snd : Operand) (s t : State) (a b : Word), aluForm i = some (.cmp, fst, snd) →
    s.readOp fst = .ok a → s.readOp snd = .ok b → exec i s = .next t →
    condHolds .b t.eflags = decide (a.toNat < b.toNat) ∧ condHolds .ae t.eflags = decide (b.toNat ≤ a.toNat) ∧
    condHolds .e t.eflags = decide (a = b) ∧ condHolds .ne t.eflags = decide (a ≠ b) ∧
    condHolds .be t.eflags = decide (a.toNat ≤ b.toNat) ∧ condHolds .a t.eflags = decide (b.toNat < a.toNat) ∧
    condHolds .l t.eflags = decide (a.toInt < b.toInt) ∧ condHolds .ge t.eflags = decide (b.toInt ≤ a.toInt) ∧
    condHolds .le t.eflags = decide (a.toInt ≤ b.toInt) ∧ condHolds .g t.eflags = decide (b.toInt < a.toInt) ∧
    condHolds .o t.eflags = signedOverflow (a.toInt - b.toInt)

/-- R260: `CALL` pushes the address of the next instruction and goes to `next` plus the offset; with the slot outside the
memory `esp` stays decremented and `eip` still points at the `CALL`. -/
def Obligations.CallPushesNextAndGoes : Prop :=
  (∀ rel, encode (.callRel32 rel) = 0xE8 :: bytesOfWord rel) ∧
  (∀ rel s, s.mem.wf →
    let slot := BitVec.ofNat 32 (2 ^ 32 + (s.reg .esp).toNat - 4)
    (s.bounds.memStart ≤ slot.toNat ∧ slot.toNat + 4 ≤ s.bounds.memEnd →
      ∃ t, exec (.callRel32 rel) s = .next t ∧ t.eip = BitVec.ofInt 32 (s.eip.toNat + 5 + rel.toInt) ∧
        t.reg .esp = slot ∧ t.memRead slot = .ok (BitVec.ofNat 32 (s.eip.toNat + 5)) ∧
        t = { s with regs := s.regs.set .esp slot, eip := t.eip, mem := t.mem }) ∧
    (¬ (s.bounds.memStart ≤ slot.toNat ∧ slot.toNat + 4 ≤ s.bounds.memEnd) →
      exec (.callRel32 rel) s = .next (faultedWith { s with regs := s.regs.set .esp slot } .outOfBounds)))

/-- R261: `RET` takes its target from the slot at `esp`, unchanged, and `esp` goes up by 4; with the slot outside the
memory `OutOfBoundsError` and no state changed. A `RET` after a `CALL` that completed comes back behind it. -/
def Obligations.RetReturnsToThePoppedAddress : Prop :=
  encode .ret = [0xC3] ∧
  (∀ bs, decode (0xC2 :: bs) = .error .firstByte ∧ decode (0xCA :: bs) = .error .firstByte ∧
    decode (0xCB :: bs) = .error .firstByte) ∧
  (∀ s v, s.memRead (s.reg .esp) = .ok v →
    exec .ret s = .next { s with eip := v, regs := s.regs.set .esp (BitVec.ofNat 32 ((s.reg .esp).toNat + 4)) }) ∧
  (∀ s, ¬ (s.bounds.memStart ≤ (s.reg .esp).toNat ∧ (s.reg .esp).toNat + 4 ≤ s.bounds.memEnd) →
    exec .ret s = .next (faultedWith s .outOfBounds)) ∧
  (∀ rel s t, s.mem.wf → s.runState ≠ .faulted → exec (.callRel32 rel) s = .next t → t.runState ≠ .faulted →
    exec .ret t = .next { s with eip := BitVec.ofNat 32 (s.eip.toNat + 5), mem := t.mem })

/-- R262: `HLT` advances `eip` past itself and halts: registers, flags and memory are unchanged, the step of a ready
machine with `F4` at `eip` ends `halted` wherever `eip` then is, and a later step is refused with `InvalidStateError`. -/
def Obligations.HltHaltsBehindItself : Prop :=
  encode .hlt = [0xF4] ∧
  (∀ s, exec .hlt s = .next { s with eip := BitVec.ofNat 32 (s.eip.toNat + 1), runState := .halted }) ∧
  (∀ (s : State) (n : Nat), s.Inv → s.runState = .ready → s.mem.read s.eip.toNat = 0xF4 →
    step s = .next { s with eip := BitVec.ofNat 32 (s.eip.toNat + 1), runState := .halted } ∧
    Sys2Proof.core.run (n + 2) s = .next { s with
      eip := BitVec.ofNat 32 (s.eip.toNat + 1), runState := .faulted, faultKind := some .invalidState })

/-! ### Frames and whole-machine rules -/

/-- Every general register an instruction does not write keeps its value, for every instruction and every outcome: the
registers written are a register destination, and `esp` for `PUSH`, `POP`, `CALL`, `RET` (10_state.md R22,
43_data_movement.md R220: a memory operand never changes its base register). -/
def Obligations.UnwrittenRegistersKeepTheirValue : Prop :=
  ∀ (i : Instr) (s t : State) (r : Reg), exec i s = .next t → r ∉ writtenRegs s i → t.reg r = s.reg r

/-- Every byte of memory outside the four bytes an instruction stores to reads as before, for every instruction and every
outcome; every byte, for a form that stores nothing. The address stored to is the effective address of a memory
destination, or the slot below `esp` for `PUSH` and `CALL` (20_memory.md R70, R71). -/
def Obligations.MemoryOutsideTheStoreReadsAsBefore : Prop :=
  ∀ (i : Instr) (s t : State) (a : Nat), s.mem.wf → exec i s = .next t →
    (∀ p, storeAddress s i = some p → a < p.toNat ∨ p.toNat + 4 ≤ a) → t.mem.read a = s.mem.read a

/-- The flags written are those of the table of 10_state.md R29: every other flag, and every bit of `eflags` that is no
flag, keeps its value, for every instruction and every outcome. -/
def Obligations.FlagsOutsideTheTableKeepTheirValue : Prop :=
  ∀ (i : Instr) (s t : State), exec i s = .next t →
    (∀ f, f ∉ writtenFlags s i → t.testFlag f = s.testFlag f) ∧
    (∀ k, k ∉ [0, 2, 4, 6, 7, 11] → t.eflags.getLsbD k = s.eflags.getLsbD k)

/-- The flags read are those of the table of 10_state.md R29: if two states differ only in `eflags`, and agree on the flags
the instruction reads, it has the same effect on registers, memory, `eip`, run state and latched kind, and where it
completes it writes the same flags ("flag computation is a pure function of operands and opcode, independent of prior
unrelated state", 40_alu_flags.md R150). -/
def Obligations.UnreadFlagsDoNotMatter : Prop :=
  ∀ (i : Instr) (s t : State) (w : Word), (∀ f ∈ readFlags i, flagOf w f = s.testFlag f) → exec i s = .next t →
    ∃ u, exec i { s with eflags := w } = .next u ∧ u = { t with eflags := u.eflags } ∧
      (t.runState ≠ .faulted → ∀ f ∈ writtenFlags s i, u.testFlag f = t.testFlag f)

/-- What no instruction touches, and where `eip` goes (10_state.md R24, R25, R32): the section bounds stay; the run state
and the latched kind stay unless the instruction is `HLT` or takes `OutOfBoundsError`; and an instruction that completes
and is no jump, call or return leaves `eip` at `(eip + len) mod 2^32`, while one that takes an error leaves it alone. -/
def Obligations.ControlStateAndEipFrame : Prop :=
  ∀ (i : Instr) (s t : State), exec i s = .next t →
    t.bounds = s.bounds ∧
    ((t.runState = s.runState ∧ t.faultKind = s.faultKind) ∨
      (i = .hlt ∧ t.runState = .halted ∧ t.faultKind = s.faultKind) ∨
      (t.runState = .faulted ∧ t.faultKind = (faultedWith s .outOfBounds).faultKind ∧ t.eip = s.eip)) ∧
    (s.runState ≠ .faulted → t.runState ≠ .faulted → jmpForm i = none → jccForm i = none → i ≠ .ret →
      (∀ rel, i ≠ .callRel32 rel) → t.eip.toNat = (s.eip.toNat + (encode i).length) % 2 ^ 32)
end

