-- ==== Sys2Proof/Laws/Decode.lean ====
section
/-! SUPPORT. The small laws of the encoding: field codecs, little-endian words, the pieces of the stream a decoder
takes, and the `r/m32` operand (30_encoding.md R102 to R107). -/

namespace Sys2Proof

/-! ### Numbers -/

@[simp] theorem Reg.ofNumber_number (r : Reg) : Reg.ofNumber r.number = r := by cases r <;> rfl

@[simp] theorem Reg.number_ofNumber (n : BitVec 3) : (Reg.ofNumber n).number = n := by
  revert n; decide

/-! ### Fields of a byte -/

@[simp] theorem modField_modRMByte (m : BitVec 2) (g r : BitVec 3) : modField (modRMByte m g r) = m := by
  revert m g r; decide

@[simp] theorem regField_modRMByte (m : BitVec 2) (g r : BitVec 3) : regField (modRMByte m g r) = g := by
  revert m g r; decide

@[simp] theorem rmField_modRMByte (m : BitVec 2) (g r : BitVec 3) : rmField (modRMByte m g r) = r := by
  revert m g r; decide

/-- A ModRM byte is its three fields. -/
theorem modRMByte_fields (m : Byte) : modRMByte (modField m) (regField m) (rmField m) = m := by
  revert m; decide

/-! ### Little-endian words -/

@[simp] theorem wordOfBytes_bytesOfWord (w : Word) :
    wordOfBytes (w.extractLsb' 0 8) (w.extractLsb' 8 8) (w.extractLsb' 16 8) (w.extractLsb' 24 8) = w := by
  refine BitVec.eq_of_getLsbD_eq fun i hi => ?_
  simp only [wordOfBytes, BitVec.getLsbD_append, BitVec.getLsbD_extractLsb']
  have : i < 32 := hi
  interval_cases i <;> simp

theorem bytesOfWord_wordOfBytes (b0 b1 b2 b3 : Byte) :
    bytesOfWord (wordOfBytes b0 b1 b2 b3) = [b0, b1, b2, b3] := by
  simp only [bytesOfWord, wordOfBytes, List.cons.injEq, and_true]
  refine ⟨?_, ?_, ?_, ?_⟩ <;>
  · refine BitVec.eq_of_getLsbD_eq fun i hi => ?_
    simp only [BitVec.getLsbD_append, BitVec.getLsbD_extractLsb']
    have : i < 8 := hi
    interval_cases i <;> simp

/-- The value of a little-endian word, byte by byte (R106, 20_memory.md R67). -/
theorem wordOfBytes_toNat (b0 b1 b2 b3 : Byte) :
    (wordOfBytes b0 b1 b2 b3).toNat =
      b0.toNat + 2 ^ 8 * b1.toNat + 2 ^ 16 * b2.toNat + 2 ^ 24 * b3.toNat := by
  have h0 := b0.isLt; have h1 := b1.isLt; have h2 := b2.isLt; have h3 := b3.isLt
  simp only [wordOfBytes, BitVec.toNat_append]
  rw [← Nat.shiftLeft_add_eq_or_of_lt h2, ← Nat.shiftLeft_add_eq_or_of_lt h1, ← Nat.shiftLeft_add_eq_or_of_lt h0]
  simp only [Nat.shiftLeft_eq]
  omega

@[simp] theorem bytesOfWord_length (w : Word) : (bytesOfWord w).length = 4 := rfl

/-! ### Pieces of the stream -/

@[simp] theorem takeByte_cons (b : Byte) (bs : List Byte) : takeByte (b :: bs) = .ok (b, bs) := rfl

@[simp] theorem takeWord_bytesOfWord (w : Word) (bs : List Byte) : takeWord (bytesOfWord w ++ bs) = .ok (w, bs) := by
  simp [takeWord, bytesOfWord]

theorem takeByte_ok {bs rest : List Byte} {b : Byte} : takeByte bs = .ok (b, rest) ↔ bs = b :: rest := by
  cases bs <;> simp [takeByte]

theorem takeWord_ok {bs rest : List Byte} {w : Word} : takeWord bs = .ok (w, rest) ↔ bs = bytesOfWord w ++ rest := by
  constructor
  · intro h
    unfold takeWord at h
    split at h
    · simp only [Except.ok.injEq, Prod.mk.injEq] at h
      obtain ⟨rfl, rfl⟩ := h
      rw [bytesOfWord_wordOfBytes]; rfl
    · simp at h
  · rintro rfl; exact takeWord_bytesOfWord w rest

/-! ### Sequencing -/

/-- An `Except` computation that continues and ends well. -/
theorem Except.bind_ok_iff {ε α β : Type} {x : Except ε α} {f : α → Except ε β} {b : β} :
    (x >>= f) = .ok b ↔ ∃ a, x = .ok a ∧ f a = .ok b := by
  cases x with
  | error e => simp [bind, Except.bind]
  | ok a => simp [bind, Except.bind]

/-- An `Except` computation that continues and ends in an error. -/
theorem Except.bind_error_iff {ε α β : Type} {x : Except ε α} {f : α → Except ε β} {e : ε} :
    (x >>= f) = .error e ↔ x = .error e ∨ ∃ a, x = .ok a ∧ f a = .error e := by
  cases x with
  | error e' => simp [bind, Except.bind]
  | ok a => simp [bind, Except.bind]

@[simp] theorem Except.ok_bind' {ε α β : Type} (a : α) (f : α → Except ε β) : ((.ok a : Except ε α) >>= f) = f a := rfl

@[simp] theorem Except.error_bind' {ε α β : Type} (e : ε) (f : α → Except ε β) :
    ((.error e : Except ε α) >>= f) = .error e := rfl

/-! ### The `r/m32` operand -/

/-- An encoded `r/m32` operand is a ModRM byte with the given `reg` field, and its admitted forms decode back. -/
theorem encodeRM_spec (rm : RM) (g : BitVec 3) (h : rm.wellFormed = true) :
    ∃ m disp, (∀ rest, encodeRM rm g ++ rest = m :: (disp ++ rest)) ∧ encodeRM rm g = m :: disp ∧
      regField m = g ∧ ∀ rest, decodeRM m (disp ++ rest) = .ok (rm, rest) := by
  cases rm with
  | reg r => exact ⟨_, [], by simp [encodeRM], rfl, by simp, by simp [decodeRM]⟩
  | mem b =>
    simp only [RM.wellFormed, Bool.and_eq_true, bne_iff_ne, ne_eq] at h
    exact ⟨_, [], by simp [encodeRM], rfl, by simp, by simp [decodeRM, h]⟩
  | memDisp8 b d =>
    simp only [RM.wellFormed, bne_iff_ne, ne_eq] at h
    exact ⟨_, [d], by simp [encodeRM], rfl, by simp, by simp [decodeRM, h]⟩
  | memDisp32 b d =>
    simp only [RM.wellFormed, bne_iff_ne, ne_eq] at h
    exact ⟨_, bytesOfWord d, by simp [encodeRM], rfl, by simp, by simp [decodeRM, h]⟩

/-- A decoded `r/m32` operand is admitted, and the bytes taken are its encoding. -/
theorem decodeRM_ok {m : Byte} {bs rest : List Byte} {rm : RM} (h : decodeRM m bs = .ok (rm, rest)) :
    rm.wellFormed = true ∧ m :: bs = encodeRM rm (regField m) ++ rest := by
  have hm := modRMByte_fields m
  unfold decodeRM at h
  simp only at h
  split at h
  · next h3 =>
    simp only [Except.ok.injEq, Prod.mk.injEq] at h
    obtain ⟨rfl, rfl⟩ := h
    exact ⟨rfl, by simp [encodeRM, ← h3, hm]⟩
  · split at h
    · simp at h
    · next he =>
      split at h
      · next h0 =>
        split at h
        · simp at h
        · next hb =>
          simp only [Except.ok.injEq, Prod.mk.injEq] at h
          obtain ⟨rfl, rfl⟩ := h
          exact ⟨by simp [RM.wellFormed, he, hb], by simp [encodeRM, ← h0, hm]⟩
      · split at h
        · next h1 =>
          obtain ⟨⟨d, bs'⟩, ht, h⟩ := Except.bind_ok_iff.mp h
          simp only [Except.ok.injEq, Prod.mk.injEq] at h
          obtain ⟨rfl, rfl⟩ := h
          rw [takeByte_ok] at ht
          subst ht
          exact ⟨by simp [RM.wellFormed, he], by simp [encodeRM, ← h1, hm]⟩
        · next h3 h0 h1 =>
          have h2 : modField m = 2 := by
            revert h3 h0 h1; generalize modField m = x; revert x; decide
          obtain ⟨⟨d, bs'⟩, ht, h⟩ := Except.bind_ok_iff.mp h
          simp only [Except.ok.injEq, Prod.mk.injEq] at h
          obtain ⟨rfl, rfl⟩ := h
          rw [takeWord_ok] at ht
          subst ht
          exact ⟨by simp [RM.wellFormed, he], by simp [encodeRM, ← h2, hm]⟩

/-! ### The decoder, piece by piece -/

/-- The opcode map selects the rest of the decode. -/
theorem decode_cons {b : Byte} {op : Opcode} (h : opcodeOf b = some op) (bs : List Byte) :
    decode (b :: bs) = decodeRest op bs := by
  simp [decode, h]

theorem decodeWordField_bytesOfWord (f : Word → Instr) (w : Word) (rest : List Byte) :
    decodeWordField f (bytesOfWord w ++ rest) = .ok (f w, rest) := by simp [decodeWordField]

theorem decodeRmReg_ok {f : RM → Reg → Instr} {m : Byte} {bs rest : List Byte} {i : Instr}
    (h : decodeRmReg f m bs = .ok (i, rest)) :
    ∃ rm r, i = f rm r ∧ rm.wellFormed = true ∧ m :: bs = encodeRM rm r.number ++ rest := by
  obtain ⟨⟨rm, bs'⟩, h1, h2⟩ := Except.bind_ok_iff.mp h
  cases h2
  obtain ⟨hw, he⟩ := decodeRM_ok h1
  exact ⟨rm, _, rfl, hw, by simpa using he⟩

theorem decodeRmOnly_ok {f : RM → Instr} {m : Byte} {bs rest : List Byte} {i : Instr}
    (h : decodeRmOnly f m bs = .ok (i, rest)) :
    ∃ rm, i = f rm ∧ rm.wellFormed = true ∧ m :: bs = encodeRM rm (regField m) ++ rest := by
  obtain ⟨⟨rm, bs'⟩, h1, h2⟩ := Except.bind_ok_iff.mp h
  cases h2
  obtain ⟨hw, he⟩ := decodeRM_ok h1
  exact ⟨rm, rfl, hw, by simpa using he⟩

theorem decodeRmImm8_ok {f : RM → Byte → Instr} {m : Byte} {bs rest : List Byte} {i : Instr}
    (h : decodeRmImm8 f m bs = .ok (i, rest)) :
    ∃ rm imm, i = f rm imm ∧ rm.wellFormed = true ∧ m :: bs = encodeRM rm (regField m) ++ [imm] ++ rest := by
  obtain ⟨⟨rm, bs'⟩, h1, h2⟩ := Except.bind_ok_iff.mp h
  obtain ⟨⟨imm, bs''⟩, h3, h4⟩ := Except.bind_ok_iff.mp h2
  cases h4
  obtain ⟨hw, he⟩ := decodeRM_ok h1
  rw [takeByte_ok.mp h3] at he
  exact ⟨rm, _, rfl, hw, by simpa using he⟩

theorem decodeRmImm32_ok {f : RM → Word → Instr} {m : Byte} {bs rest : List Byte} {i : Instr}
    (h : decodeRmImm32 f m bs = .ok (i, rest)) :
    ∃ rm imm, i = f rm imm ∧ rm.wellFormed = true ∧ m :: bs = encodeRM rm (regField m) ++ bytesOfWord imm ++ rest := by
  obtain ⟨⟨rm, bs'⟩, h1, h2⟩ := Except.bind_ok_iff.mp h
  obtain ⟨⟨imm, bs''⟩, h3, h4⟩ := Except.bind_ok_iff.mp h2
  cases h4
  obtain ⟨hw, he⟩ := decodeRM_ok h1
  rw [takeWord_ok.mp h3] at he
  exact ⟨rm, _, rfl, hw, by simpa using he⟩

theorem decodeWordField_ok {f : Word → Instr} {bs rest : List Byte} {i : Instr}
    (h : decodeWordField f bs = .ok (i, rest)) : ∃ w, i = f w ∧ bs = bytesOfWord w ++ rest := by
  obtain ⟨⟨w, bs'⟩, h1, h2⟩ := Except.bind_ok_iff.mp h
  cases h2
  exact ⟨w, rfl, takeWord_ok.mp h1⟩

theorem decodeByteField_ok {f : Byte → Instr} {bs rest : List Byte} {i : Instr}
    (h : decodeByteField f bs = .ok (i, rest)) : ∃ w, i = f w ∧ bs = w :: rest := by
  obtain ⟨⟨w, bs'⟩, h1, h2⟩ := Except.bind_ok_iff.mp h
  cases h2
  exact ⟨w, rfl, takeByte_ok.mp h1⟩

end Sys2Proof
end

