-- ==== Sys2Proof/Laws/DecodeStream.lean ====
section
/-! SUPPORT. The decoder reads its bytes in ascending order and stops at the first that settles the matter (30_encoding.md
R112): bytes after those change neither an error nor an instruction, and ten bytes are always enough. -/

namespace Sys2Proof

/-- A reader of the stream whose answers are settled by the bytes it reads, `n` at most. -/
structure Settles {α : Type} (n : Nat) (p : List Byte → Except DecodeStop (α × List Byte)) : Prop where
  ok : ∀ bs more a rest, p bs = .ok (a, rest) → p (bs ++ more) = .ok (a, rest ++ more)
  taken : ∀ bs a rest, p bs = .ok (a, rest) → bs.length ≤ rest.length + n
  error : ∀ bs more e, p bs = .error e → e ≠ .outOfBytes → p (bs ++ more) = .error e
  short : ∀ bs, p bs = .error .outOfBytes → bs.length < n

theorem settles_takeByte : Settles 1 takeByte where
  ok bs more a rest h := by rw [takeByte_ok] at h ⊢; subst h; rfl
  taken bs a rest h := by rw [takeByte_ok] at h; subst h; simp
  error bs more e h hne := by
    cases bs with
    | nil => cases h; exact absurd rfl hne
    | cons b bs => cases h
  short bs h := by
    cases bs with
    | nil => simp
    | cons b bs => cases h

theorem settles_takeWord : Settles 4 takeWord where
  ok bs more a rest h := by rw [takeWord_ok] at h ⊢; subst h; simp
  taken bs a rest h := by rw [takeWord_ok] at h; subst h; simp; omega
  error bs more e h hne := by
    unfold takeWord at h
    split at h
    · cases h
    · cases h; exact absurd rfl hne
  short bs h := by
    unfold takeWord at h
    split at h
    · cases h
    · next hb =>
      match bs, hb with
      | [], _ => simp
      | [_], _ => simp
      | [_, _], _ => simp
      | [_, _, _], _ => simp
      | b0 :: b1 :: b2 :: b3 :: bs, hb => exact absurd rfl (hb b0 b1 b2 b3 bs)

theorem Settles.pure {α : Type} (a : α) : Settles 0 (fun bs => (.ok (a, bs) : Except DecodeStop (α × List Byte))) where
  ok bs more a rest h := by cases h; rfl
  taken bs a rest h := by cases h; simp
  error bs more e h := by cases h
  short bs h := by cases h

theorem Settles.fail {α : Type} {e : DecodeStop} (he : e ≠ .outOfBytes) :
    Settles 0 (fun _ => (.error e : Except DecodeStop (α × List Byte))) where
  ok bs more a rest h := by cases h
  taken bs a rest h := by cases h
  error bs more e h _ := by cases h; rfl
  short bs h := by cases h; exact absurd rfl he

theorem Settles.mono {α : Type} {m n : Nat} {p : List Byte → Except DecodeStop (α × List Byte)} (h : Settles m p)
    (hmn : m ≤ n) : Settles n p where
  ok := h.ok
  taken bs a rest e := Nat.le_trans (h.taken bs a rest e) (by omega)
  error := h.error
  short bs e := Nat.lt_of_lt_of_le (h.short bs e) hmn

theorem Settles.bind {α β : Type} {m n : Nat} {p : List Byte → Except DecodeStop (α × List Byte)}
    {q : α → List Byte → Except DecodeStop (β × List Byte)} (hp : Settles m p) (hq : ∀ a, Settles n (q a)) :
    Settles (m + n) (fun bs => do let (a, bs) ← p bs; q a bs) where
  ok bs more b rest h := by
    obtain ⟨⟨a, bs'⟩, h1, h2⟩ := Except.bind_ok_iff.mp h
    exact Except.bind_ok_iff.mpr ⟨_, hp.ok bs more a bs' h1, (hq a).ok bs' more b rest h2⟩
  taken bs b rest h := by
    obtain ⟨⟨a, bs'⟩, h1, h2⟩ := Except.bind_ok_iff.mp h
    have h3 := hp.taken bs a bs' h1
    have h4 := (hq a).taken bs' b rest h2
    omega
  error bs more e h hne := by
    rcases Except.bind_error_iff.mp h with h1 | ⟨⟨a, bs'⟩, h1, h2⟩
    · exact Except.bind_error_iff.mpr (.inl (hp.error bs more e h1 hne))
    · exact Except.bind_error_iff.mpr (.inr ⟨_, hp.ok bs more a bs' h1, (hq a).error bs' more e h2 hne⟩)
  short bs h := by
    rcases Except.bind_error_iff.mp h with h1 | ⟨⟨a, bs'⟩, h1, h2⟩
    · have := hp.short bs h1; omega
    · have h3 := hp.taken bs a bs' h1
      have h4 := (hq a).short bs' h2
      omega

theorem settles_decodeRM (m : Byte) : Settles 4 (decodeRM m) := by
  unfold decodeRM
  simp only
  split
  · exact (Settles.pure _).mono (by omega)
  · split
    · exact (Settles.fail (by decide)).mono (by omega)
    · split
      · split
        · exact (Settles.fail (by decide)).mono (by omega)
        · exact (Settles.pure _).mono (by omega)
      · split
        · exact Settles.mono (m := 1 + 0) (settles_takeByte.bind fun disp => Settles.pure _) (by omega)
        · exact settles_takeWord.bind fun disp => Settles.pure _

theorem settles_decodeRmOnly (f : RM → Instr) (m : Byte) : Settles 8 (decodeRmOnly f m) :=
  Settles.mono (m := 4 + 0) ((settles_decodeRM m).bind fun _ => Settles.pure _) (by omega)

theorem settles_decodeRmReg (f : RM → Reg → Instr) (m : Byte) : Settles 8 (decodeRmReg f m) :=
  Settles.mono (m := 4 + 0)
    ((settles_decodeRM m).bind fun rm => Settles.pure (f rm (Reg.ofNumber (regField m)))) (by omega)

theorem settles_decodeRmImm8 (f : RM → Byte → Instr) (m : Byte) : Settles 8 (decodeRmImm8 f m) :=
  Settles.mono (m := 4 + (1 + 0)) ((settles_decodeRM m).bind fun _ => settles_takeByte.bind fun _ => Settles.pure _)
    (by omega)

theorem settles_decodeRmImm32 (f : RM → Word → Instr) (m : Byte) : Settles 8 (decodeRmImm32 f m) :=
  (settles_decodeRM m).bind fun _ => settles_takeWord.bind fun _ => Settles.pure _

theorem settles_decodeWordField (f : Word → Instr) : Settles 4 (decodeWordField f) :=
  settles_takeWord.bind fun _ => Settles.pure _

theorem settles_decodeByteField (f : Byte → Instr) : Settles 4 (decodeByteField f) :=
  Settles.mono (m := 1 + 0) (settles_takeByte.bind fun _ => Settles.pure _) (by omega)

theorem settles_decodeShiftGroup {k : ShiftOp → Byte → List Byte → DecodeResult} (hk : ∀ op m, Settles 8 (k op m))
    (m : Byte) : Settles 8 (decodeShiftGroup k m) := by
  unfold decodeShiftGroup
  split
  · exact hk _ m
  · exact (Settles.fail (by decide)).mono (by omega)

theorem settles_decodeGroupC7 (m : Byte) : Settles 8 (decodeGroupC7 m) := by
  unfold decodeGroupC7
  split
  · exact settles_decodeRmImm32 _ m
  · exact (Settles.fail (by decide)).mono (by omega)

theorem settles_decodeGroupF7 (m : Byte) : Settles 8 (decodeGroupF7 m) := by
  unfold decodeGroupF7
  split
  · exact settles_decodeRmImm32 _ m
  · split
    · exact settles_decodeRmOnly _ m
    · split
      · exact settles_decodeRmOnly _ m
      · exact (Settles.fail (by decide)).mono (by omega)

theorem settles_decodeGroupFF (m : Byte) : Settles 8 (decodeGroupFF m) := by
  unfold decodeGroupFF
  split
  · exact settles_decodeRmOnly _ m
  · split
    · exact settles_decodeRmOnly _ m
    · exact (Settles.fail (by decide)).mono (by omega)

theorem settles_escape : Settles 9 (decodeRest .escape) := by
  refine Settles.mono (m := 1 + 4) (settles_takeByte.bind
    (q := fun b1 bs => match secondByteOf b1 with
      | some cc => decodeWordField (jccRel32 cc) bs
      | none => .error .secondByte) fun b1 => ?_) (by omega)
  split
  · exact settles_decodeWordField _
  · exact (Settles.fail (by decide)).mono (by omega)

/-- After the opcode byte at most nine more bytes are read. -/
theorem settles_decodeRest (op : Opcode) : Settles 9 (decodeRest op) := by
  cases op with
  | aluRmR n => exact settles_takeByte.bind fun m => settles_decodeRmReg _ m
  | aluRRm n => exact settles_takeByte.bind fun m => settles_decodeRmReg _ m
  | aluEaxImm32 n => exact (settles_decodeWordField _).mono (by omega)
  | escape => exact settles_escape
  | incR r => exact (Settles.pure _).mono (by omega)
  | decR r => exact (Settles.pure _).mono (by omega)
  | pushR r => exact (Settles.pure _).mono (by omega)
  | popR r => exact (Settles.pure _).mono (by omega)
  | pushImm32 => exact (settles_decodeWordField _).mono (by omega)
  | pushImm8 => exact (settles_decodeByteField _).mono (by omega)
  | jccRel8 cc => exact (settles_decodeByteField _).mono (by omega)
  | group81 => exact settles_takeByte.bind fun m =>
    settles_decodeRmImm32 (aluRmImm32 (AluOp.ofNumber (regField m))) m
  | group83 => exact settles_takeByte.bind fun m =>
    settles_decodeRmImm8 (aluRmImm8 (AluOp.ofNumber (regField m))) m
  | testRmR => exact settles_takeByte.bind fun m => settles_decodeRmReg _ m
  | movRmR => exact settles_takeByte.bind fun m => settles_decodeRmReg _ m
  | movRRm => exact settles_takeByte.bind fun m => settles_decodeRmReg _ m
  | nop => exact (Settles.pure _).mono (by omega)
  | testEaxImm32 => exact (settles_decodeWordField _).mono (by omega)
  | movRImm32 r => exact (settles_decodeWordField _).mono (by omega)
  | groupC1 => exact settles_takeByte.bind (settles_decodeShiftGroup fun op => settles_decodeRmImm8 _)
  | ret => exact (Settles.pure _).mono (by omega)
  | groupC7 => exact settles_takeByte.bind settles_decodeGroupC7
  | groupD1 => exact settles_takeByte.bind (settles_decodeShiftGroup fun op => settles_decodeRmOnly _)
  | groupD3 => exact settles_takeByte.bind (settles_decodeShiftGroup fun op => settles_decodeRmOnly _)
  | callRel32 => exact (settles_decodeWordField _).mono (by omega)
  | jmpRel32 => exact (settles_decodeWordField _).mono (by omega)
  | jmpRel8 => exact (settles_decodeByteField _).mono (by omega)
  | hlt => exact (Settles.pure _).mono (by omega)
  | groupF7 => exact settles_takeByte.bind settles_decodeGroupF7
  | groupFF => exact settles_takeByte.bind settles_decodeGroupFF

/-- Decoding is settled by the bytes read, ten at most (R112, R113). -/
theorem settles_decode : Settles 10 decode := by
  refine settles_takeByte.bind (n := 9)
    (q := fun b0 bs => match opcodeOf b0 with
      | some op => decodeRest op bs
      | none => .error .firstByte) fun b0 => ?_
  split
  · exact settles_decodeRest _
  · exact (Settles.fail (by decide)).mono (by omega)

end Sys2Proof
end

