-- ==== Sys2Proof/Laws/State.lean ====
section
/-! SUPPORT. One lemma per field of `State` per update, true by `rfl`, so that no later proof unfolds a record update.
Also what the register accessors read after an update. -/

namespace Sys2Proof.Machine

/-! ### `setReg` -/

@[simp] theorem State.setReg_regs (s : State) (r : Reg) (v : Word) : (s.setReg r v).regs = s.regs.set r v := rfl
@[simp] theorem State.setReg_eip (s : State) (r : Reg) (v : Word) : (s.setReg r v).eip = s.eip := rfl
@[simp] theorem State.setReg_eflags (s : State) (r : Reg) (v : Word) : (s.setReg r v).eflags = s.eflags := rfl
@[simp] theorem State.setReg_mem (s : State) (r : Reg) (v : Word) : (s.setReg r v).mem = s.mem := rfl
@[simp] theorem State.setReg_runState (s : State) (r : Reg) (v : Word) : (s.setReg r v).runState = s.runState := rfl
@[simp] theorem State.setReg_faultKind (s : State) (r : Reg) (v : Word) : (s.setReg r v).faultKind = s.faultKind := rfl
@[simp] theorem State.setReg_bounds (s : State) (r : Reg) (v : Word) : (s.setReg r v).bounds = s.bounds := rfl

/-! ### `setEip` -/

@[simp] theorem State.setEip_regs (s : State) (target : Word) : (s.setEip target).regs = s.regs := rfl
@[simp] theorem State.setEip_eip (s : State) (target : Word) : (s.setEip target).eip = target := rfl
@[simp] theorem State.setEip_eflags (s : State) (target : Word) : (s.setEip target).eflags = s.eflags := rfl
@[simp] theorem State.setEip_mem (s : State) (target : Word) : (s.setEip target).mem = s.mem := rfl
@[simp] theorem State.setEip_runState (s : State) (target : Word) : (s.setEip target).runState = s.runState := rfl
@[simp] theorem State.setEip_faultKind (s : State) (target : Word) : (s.setEip target).faultKind = s.faultKind := rfl
@[simp] theorem State.setEip_bounds (s : State) (target : Word) : (s.setEip target).bounds = s.bounds := rfl

/-! ### `advance` -/

@[simp] theorem State.advance_regs (s : State) (len : Nat) : (s.advance len).regs = s.regs := rfl
@[simp] theorem State.advance_eip (s : State) (len : Nat) : (s.advance len).eip = s.nextEip len := rfl
@[simp] theorem State.advance_eflags (s : State) (len : Nat) : (s.advance len).eflags = s.eflags := rfl
@[simp] theorem State.advance_mem (s : State) (len : Nat) : (s.advance len).mem = s.mem := rfl
@[simp] theorem State.advance_runState (s : State) (len : Nat) : (s.advance len).runState = s.runState := rfl
@[simp] theorem State.advance_faultKind (s : State) (len : Nat) : (s.advance len).faultKind = s.faultKind := rfl
@[simp] theorem State.advance_bounds (s : State) (len : Nat) : (s.advance len).bounds = s.bounds := rfl

/-! ### `raise` -/

@[simp] theorem State.raise_regs (s : State) (f : Fault) : (s.raise f).regs = s.regs := rfl
@[simp] theorem State.raise_eip (s : State) (f : Fault) : (s.raise f).eip = s.eip := rfl
@[simp] theorem State.raise_eflags (s : State) (f : Fault) : (s.raise f).eflags = s.eflags := rfl
@[simp] theorem State.raise_mem (s : State) (f : Fault) : (s.raise f).mem = s.mem := rfl
@[simp] theorem State.raise_runState (s : State) (f : Fault) : (s.raise f).runState = .faulted := rfl
@[simp] theorem State.raise_faultKind (s : State) (f : Fault) : (s.raise f).faultKind = (s.faultKind <|> some f) := rfl
@[simp] theorem State.raise_bounds (s : State) (f : Fault) : (s.raise f).bounds = s.bounds := rfl

/-! ### `enter` -/

@[simp] theorem State.enter_regs (s : State) : (s.enter).regs = s.regs := rfl
@[simp] theorem State.enter_eip (s : State) : (s.enter).eip = s.eip := rfl
@[simp] theorem State.enter_eflags (s : State) : (s.enter).eflags = s.eflags := rfl
@[simp] theorem State.enter_mem (s : State) : (s.enter).mem = s.mem := rfl
@[simp] theorem State.enter_runState (s : State) : (s.enter).runState = .running := rfl
@[simp] theorem State.enter_faultKind (s : State) : (s.enter).faultKind = s.faultKind := rfl
@[simp] theorem State.enter_bounds (s : State) : (s.enter).bounds = s.bounds := rfl

/-! ### `setFlag` -/

@[simp] theorem State.setFlag_regs (s : State) (f : Flag) (b : Bool) : (s.setFlag f b).regs = s.regs := rfl
@[simp] theorem State.setFlag_eip (s : State) (f : Flag) (b : Bool) : (s.setFlag f b).eip = s.eip := rfl
@[simp] theorem State.setFlag_eflags (s : State) (f : Flag) (b : Bool) : (s.setFlag f b).eflags = writeBit s.eflags (flagBit f) b := rfl
@[simp] theorem State.setFlag_mem (s : State) (f : Flag) (b : Bool) : (s.setFlag f b).mem = s.mem := rfl
@[simp] theorem State.setFlag_runState (s : State) (f : Flag) (b : Bool) : (s.setFlag f b).runState = s.runState := rfl
@[simp] theorem State.setFlag_faultKind (s : State) (f : Flag) (b : Bool) : (s.setFlag f b).faultKind = s.faultKind := rfl
@[simp] theorem State.setFlag_bounds (s : State) (f : Flag) (b : Bool) : (s.setFlag f b).bounds = s.bounds := rfl

/-! ### `setFlagsWord` -/

@[simp] theorem State.setFlagsWord_regs (s : State) (w : Word) : (s.setFlagsWord w).regs = s.regs := rfl
@[simp] theorem State.setFlagsWord_eip (s : State) (w : Word) : (s.setFlagsWord w).eip = s.eip := rfl
@[simp] theorem State.setFlagsWord_eflags (s : State) (w : Word) : (s.setFlagsWord w).eflags = w := rfl
@[simp] theorem State.setFlagsWord_mem (s : State) (w : Word) : (s.setFlagsWord w).mem = s.mem := rfl
@[simp] theorem State.setFlagsWord_runState (s : State) (w : Word) : (s.setFlagsWord w).runState = s.runState := rfl
@[simp] theorem State.setFlagsWord_faultKind (s : State) (w : Word) : (s.setFlagsWord w).faultKind = s.faultKind := rfl
@[simp] theorem State.setFlagsWord_bounds (s : State) (w : Word) : (s.setFlagsWord w).bounds = s.bounds := rfl

/-! ### `writeFlags` -/

@[simp] theorem State.writeFlags_regs (s : State) (m : FlagMap) : (s.writeFlags m).regs = s.regs := rfl
@[simp] theorem State.writeFlags_eip (s : State) (m : FlagMap) : (s.writeFlags m).eip = s.eip := rfl
@[simp] theorem State.writeFlags_eflags (s : State) (m : FlagMap) : (s.writeFlags m).eflags = m.apply s.eflags := rfl
@[simp] theorem State.writeFlags_mem (s : State) (m : FlagMap) : (s.writeFlags m).mem = s.mem := rfl
@[simp] theorem State.writeFlags_runState (s : State) (m : FlagMap) : (s.writeFlags m).runState = s.runState := rfl
@[simp] theorem State.writeFlags_faultKind (s : State) (m : FlagMap) : (s.writeFlags m).faultKind = s.faultKind := rfl
@[simp] theorem State.writeFlags_bounds (s : State) (m : FlagMap) : (s.writeFlags m).bounds = s.bounds := rfl

/-! ### `placeAtEip` -/

@[simp] theorem State.placeAtEip_regs (s : State) (bytes : List Byte) : (s.placeAtEip bytes).regs = s.regs := rfl
@[simp] theorem State.placeAtEip_eip (s : State) (bytes : List Byte) : (s.placeAtEip bytes).eip = s.eip := rfl
@[simp] theorem State.placeAtEip_eflags (s : State) (bytes : List Byte) : (s.placeAtEip bytes).eflags = s.eflags := rfl
@[simp] theorem State.placeAtEip_mem (s : State) (bytes : List Byte) : (s.placeAtEip bytes).mem = s.mem.writeRun s.eip.toNat bytes := rfl
@[simp] theorem State.placeAtEip_runState (s : State) (bytes : List Byte) : (s.placeAtEip bytes).runState = .ready := rfl
@[simp] theorem State.placeAtEip_faultKind (s : State) (bytes : List Byte) : (s.placeAtEip bytes).faultKind = none := rfl
@[simp] theorem State.placeAtEip_bounds (s : State) (bytes : List Byte) : (s.placeAtEip bytes).bounds = s.bounds.withText s.eip.toNat (s.eip.toNat + bytes.length) := rfl

/-! ### Registers -/

@[simp] theorem Regs.get_set_same (g : Regs) (r : Reg) (v : Word) : (g.set r v).get r = v := by
  cases r <;> rfl

theorem Regs.get_set_other (g : Regs) {r q : Reg} (v : Word) (h : q ≠ r) : (g.set r v).get q = g.get q := by
  cases r <;> cases q <;> first | rfl | exact absurd rfl h

theorem Regs.get_set (g : Regs) (r q : Reg) (v : Word) :
    (g.set r v).get q = if q = r then v else g.get q := by
  split
  · next h => subst h; exact g.get_set_same q v
  · next h => exact g.get_set_other v h

/-- Registers that read alike are alike. -/
theorem Regs.ext_get {g h : Regs} (H : ∀ r, g.get r = h.get r) : g = h := by
  cases g; cases h
  have H0 := H .eax; have H1 := H .ecx; have H2 := H .edx; have H3 := H .ebx
  have H4 := H .esp; have H5 := H .ebp; have H6 := H .esi; have H7 := H .edi
  simp only [Regs.get] at *
  simp_all

theorem Regs.set_get_self (g : Regs) (r : Reg) : g.set r (g.get r) = g := by
  cases r <;> rfl

theorem Regs.set_set_same (g : Regs) (r : Reg) (v w : Word) : (g.set r v).set r w = g.set r w := by
  cases r <;> rfl

@[simp] theorem State.setReg_reg_same (s : State) (r : Reg) (v : Word) : (s.setReg r v).reg r = v :=
  s.regs.get_set_same r v

theorem State.setReg_reg_other (s : State) {r q : Reg} (v : Word) (h : q ≠ r) : (s.setReg r v).reg q = s.reg q :=
  s.regs.get_set_other v h

theorem State.setReg_reg (s : State) (r q : Reg) (v : Word) :
    (s.setReg r v).reg q = if q = r then v else s.reg q := s.regs.get_set r q v

@[simp] theorem State.setEip_reg (s : State) (target : Word) (r : Reg) : (s.setEip target).reg r = s.reg r := rfl
@[simp] theorem State.advance_reg (s : State) (len : Nat) (r : Reg) : (s.advance len).reg r = s.reg r := rfl
@[simp] theorem State.raise_reg (s : State) (f : Fault) (r : Reg) : (s.raise f).reg r = s.reg r := rfl
@[simp] theorem State.enter_reg (s : State) (r : Reg) : (s.enter).reg r = s.reg r := rfl
@[simp] theorem State.writeFlags_reg (s : State) (m : FlagMap) (r : Reg) : (s.writeFlags m).reg r = s.reg r := rfl

@[simp] theorem State.setReg_testFlag (s : State) (r : Reg) (v : Word) (f : Flag) :
    (s.setReg r v).testFlag f = s.testFlag f := rfl
@[simp] theorem State.setEip_testFlag (s : State) (target : Word) (f : Flag) :
    (s.setEip target).testFlag f = s.testFlag f := rfl
@[simp] theorem State.advance_testFlag (s : State) (len : Nat) (f : Flag) :
    (s.advance len).testFlag f = s.testFlag f := rfl
@[simp] theorem State.raise_testFlag (s : State) (e : Fault) (f : Flag) :
    (s.raise e).testFlag f = s.testFlag f := rfl

@[simp] theorem State.setReg_nextEip (s : State) (r : Reg) (v : Word) (len : Nat) :
    (s.setReg r v).nextEip len = s.nextEip len := rfl
@[simp] theorem State.writeFlags_nextEip (s : State) (m : FlagMap) (len : Nat) :
    (s.writeFlags m).nextEip len = s.nextEip len := rfl

end Sys2Proof.Machine
end

