-- ==== Sys2Proof/Laws/Flags.lean ====
section
/-! SUPPORT. What a flag write changes and what it keeps (10_state.md R26, R27, 40_alu_flags.md R161), and the ALU cores'
results and carries as arithmetic (R152, R153, R157 to R159). -/

namespace Sys2Proof.Machine

theorem flagBit_lt (f : Flag) : flagBit f < 32 := by cases f <;> decide

theorem flagBit_inj {f g : Flag} (h : flagBit f = flagBit g) : f = g := by
  cases f <;> cases g <;> first | rfl | simp [flagBit] at h

/-- One bit is written, every other bit is kept. -/
theorem getLsbD_writeBit (w : Word) (i j : Nat) (b : Bool) (hj : j < 32) :
    (writeBit w i b).getLsbD j = if i = j then b else w.getLsbD j := by
  unfold writeBit
  cases b
  · simp only [Bool.false_eq_true, if_false, BitVec.getLsbD_and, BitVec.getLsbD_not, BitVec.getLsbD_twoPow]
    by_cases h : i = j
    · subst h; simp [hj]
    · simp [h, hj]
  · simp only [if_true, BitVec.getLsbD_or, BitVec.getLsbD_twoPow]
    by_cases h : i = j
    · subst h; simp [hj]
    · simp [h]

theorem getLsbD_writeFlag? (w : Word) (f : Flag) (o : Option Bool) (j : Nat) (hj : j < 32) :
    (writeFlag? w f o).getLsbD j = if flagBit f = j then o.getD (w.getLsbD j) else w.getLsbD j := by
  cases o with
  | none => simp [writeFlag?]
  | some b => rw [writeFlag?, getLsbD_writeBit _ _ _ _ hj]; rfl

/-- A flag after `flags <- m`: the map's entry, or the old value (R161). -/
theorem flagOf_apply (m : FlagMap) (w : Word) (f : Flag) : flagOf (m.apply w) f = (m.get f).getD (flagOf w f) := by
  have hf := flagBit_lt f
  simp only [flagOf, FlagMap.apply, getLsbD_writeFlag? _ _ _ _ hf]
  cases f <;> simp [FlagMap.get, flagBit]

/-- A bit that holds no flag keeps its value through `flags <- m` (10_state.md R27). -/
theorem getLsbD_apply_reserved (m : FlagMap) (w : Word) (j : Nat) (h : ∀ f, flagBit f ≠ j) :
    (m.apply w).getLsbD j = w.getLsbD j := by
  by_cases hj : j < 32
  · have h0 := h .cf; have h1 := h .pf; have h2 := h .af; have h3 := h .zf; have h4 := h .sf; have h5 := h .of
    simp only [FlagMap.apply, getLsbD_writeFlag? _ _ _ _ hj, h0, h1, h2, h3, h4, h5, if_false]
  · simp [BitVec.getLsbD_of_ge _ _ (Nat.le_of_not_lt hj)]

theorem State.testFlag_writeFlags (s : State) (m : FlagMap) (f : Flag) :
    (s.writeFlags m).testFlag f = (m.get f).getD (s.testFlag f) := flagOf_apply m s.eflags f

/-- The empty map writes nothing. -/
@[simp] theorem FlagMap.apply_empty (w : Word) : FlagMap.apply {} w = w := rfl

/-- Every flag of a full map is written. -/
@[simp] theorem allFlags_get (r : Word) (cf of af : Bool) (f : Flag) :
    (allFlags r cf of af).get f = some (match f with
      | .cf => cf | .pf => parityFlag r | .af => af | .zf => zeroFlag r | .sf => signFlag r | .of => of) := by
  cases f <;> rfl

/-! ### Results as numbers -/

theorem addCore_toNat (a b : Word) (c : Bool) :
    (addCore a b c).value.toNat = (a.toNat + b.toNat + c.toNat) % 2 ^ 32 := by simp [addCore]

theorem subCore_toNat (a b : Word) (c : Bool) :
    (subCore a b c).value.toNat = (a.toNat + 2 ^ 32 - b.toNat + 2 ^ 32 - c.toNat) % 2 ^ 32 := by
  have ha := a.isLt; have hb := b.isLt
  cases c <;> simp only [subCore, BitVec.toNat_sub, BitVec.toNat_ofNat, Bool.toNat_false, Bool.toNat_true] <;> omega

theorem zeroFlag_iff (r : Word) : zeroFlag r = true ↔ r = 0 := by simp [zeroFlag]

theorem signFlag_iff (r : Word) : signFlag r = true ↔ 2 ^ 31 ≤ r.toNat := by
  simp [signFlag, BitVec.msb_eq_decide]

theorem parityFlag_eq (r : Word) :
    parityFlag r = decide ((List.range 8).countP (fun k => r.toNat.testBit k) % 2 = 0) := rfl

end Sys2Proof.Machine
end

