-- ==== Sys2Proof/Laws/Memory.lean ====
section
/-! SUPPORT. The laws of memory cells: read after write, the canonical form, and runs of bytes (20_memory.md R65, R66,
R78). -/

namespace Sys2Proof.Machine

/-! ### One cell -/

theorem Memory.read_write (m : Memory) (a x : Nat) (v : Byte) (h : m.Pairwise (fun c d => c.1 < d.1)) :
    (m.write a v).read x = if x = a then v else m.read x := by
  induction m with
  | nil =>
    simp only [Memory.write]
    split
    · next hv => subst hv; simp [Memory.read]
    · simp [Memory.read]
  | cons c m ih =>
    obtain ⟨k, w⟩ := c
    have hm := (List.pairwise_cons.mp h).2
    have hk := (List.pairwise_cons.mp h).1
    have above : ∀ y, y < k + 1 → Memory.read m y = Memory.unlisted := by
      intro y hy
      clear ih h
      induction m with
      | nil => rfl
      | cons d m ih =>
        have h1 : k < d.1 := hk d (by simp)
        have h2 : y ≠ d.1 := by omega
        simp only [Memory.read, h2, if_false]
        exact ih (List.pairwise_cons.mp hm).2 (fun e he => hk e (by simp [he]))
    simp only [Memory.write]
    split
    · next ha =>
      split
      · next hv =>
        subst hv
        simp only [Memory.read]
        split
        · next hx => subst hx; simp [show x ≠ a by omega]
        · split
          · next hx => exact above x (by omega)
          · rfl
      · simp [Memory.read]
    · next ha =>
      split
      · next hak =>
        subst hak
        split
        · next hv =>
          subst hv
          simp only [Memory.read]
          by_cases hx : x = a
          · subst hx; simp [above x (by omega)]
          · simp [hx]
        · simp only [Memory.read]
          by_cases hx : x = a <;> simp [hx]
      · next hak =>
        simp only [Memory.read]
        by_cases hx : x = k
        · subst hx; simp [show x ≠ a by omega]
        · simp [hx, ih hm]

/-- Where a write can put a key. -/
theorem Memory.key_of_mem_write {m : Memory} {a : Nat} {v : Byte} {c : Host.Cell} (h : c ∈ m.write a v) :
    c ∈ m ∨ c = (a, v) := by
  induction m with
  | nil =>
    simp only [Memory.write] at h
    split at h <;> simp_all
  | cons d m ih =>
    obtain ⟨k, w⟩ := d
    simp only [Memory.write] at h
    split at h
    · split at h
      · exact .inl h
      · rcases List.mem_cons.mp h with h | h
        · exact .inr h
        · exact .inl h
    · split at h
      · split at h
        · exact .inl (List.mem_cons_of_mem _ h)
        · rcases List.mem_cons.mp h with h | h
          · exact .inr h
          · exact .inl (List.mem_cons_of_mem _ h)
      · rcases List.mem_cons.mp h with h | h
        · exact .inl (by simp [h])
        · exact (ih h).imp (List.mem_cons_of_mem _) id

/-- A write keeps the canonical form. -/
theorem Memory.write_wf {m : Memory} (a : Nat) (v : Byte) (h : m.wf) : (m.write a v).wf := by
  obtain ⟨hs, hv⟩ := h
  induction m with
  | nil =>
    simp only [Memory.write]
    split <;> simp_all [Memory.wf]
  | cons d m ih =>
    obtain ⟨k, w⟩ := d
    have hs' := List.pairwise_cons.mp hs
    have hm := ih hs'.2 (fun c hc => hv c (List.mem_cons_of_mem _ hc))
    have hw : w ≠ Memory.unlisted := hv (k, w) (by simp)
    have hvm : ∀ c ∈ m, c.2 ≠ Memory.unlisted := fun c hc => hv c (List.mem_cons_of_mem _ hc)
    simp only [Memory.write]
    split
    · next hak =>
      split
      · exact ⟨hs, hv⟩
      · next hne =>
        refine ⟨List.pairwise_cons.mpr ⟨?_, hs⟩, ?_⟩
        · intro c hc
          rcases List.mem_cons.mp hc with rfl | hc
          · exact hak
          · exact Nat.lt_trans hak (hs'.1 c hc)
        · intro c hc
          rcases List.mem_cons.mp hc with rfl | hc
          · exact hne
          · exact hv c hc
    · split
      · next hak =>
        subst hak
        split
        · exact ⟨hs'.2, hvm⟩
        · next hne =>
          refine ⟨List.pairwise_cons.mpr ⟨hs'.1, hs'.2⟩, ?_⟩
          intro c hc
          rcases List.mem_cons.mp hc with rfl | hc
          · exact hne
          · exact hvm c hc
      · next hlt hne =>
        refine ⟨List.pairwise_cons.mpr ⟨?_, hm.1⟩, ?_⟩
        · intro c hc
          rcases Memory.key_of_mem_write hc with hc | rfl
          · exact hs'.1 c hc
          · simp only; omega
        · intro c hc
          rcases List.mem_cons.mp hc with rfl | hc
          · exact hw
          · exact hm.2 c hc

theorem Memory.read_write_same {m : Memory} (h : m.wf) (a : Nat) (v : Byte) : (m.write a v).read a = v := by
  simp [Memory.read_write m a a v h.1]

theorem Memory.read_write_other {m : Memory} (h : m.wf) {a x : Nat} (v : Byte) (hx : x ≠ a) :
    (m.write a v).read x = m.read x := by
  simp [Memory.read_write m a x v h.1, hx]

/-! ### Runs of bytes -/

@[simp] theorem Memory.readRun_length (m : Memory) (a n : Nat) : (m.readRun a n).length = n := by
  induction n generalizing a with
  | zero => rfl
  | succ n ih => simp [Memory.readRun, ih]

theorem Memory.readRun_getElem? (m : Memory) (a n k : Nat) (h : k < n) :
    (m.readRun a n)[k]? = some (m.read (a + k)) := by
  induction n generalizing a k with
  | zero => omega
  | succ n ih =>
    cases k with
    | zero => rfl
    | succ k =>
      have := ih (a + 1) k (by omega)
      simp only [Memory.readRun, List.getElem?_cons_succ, this]
      congr 2; omega

theorem Memory.readRun_add (m : Memory) (a n k : Nat) :
    m.readRun a (n + k) = m.readRun a n ++ m.readRun (a + n) k := by
  induction n generalizing a with
  | zero => simp [Memory.readRun]
  | succ n ih =>
    rw [show n + 1 + k = (n + k) + 1 by omega]
    simp only [Memory.readRun, ih, List.cons_append]
    rw [show a + 1 + n = a + (n + 1) by omega]

/-- Runs of two memories that read alike there are alike. -/
theorem Memory.readRun_congr {m m' : Memory} {a n : Nat} (h : ∀ k < n, m.read (a + k) = m'.read (a + k)) :
    m.readRun a n = m'.readRun a n := by
  induction n generalizing a with
  | zero => rfl
  | succ n ih =>
    simp only [Memory.readRun]
    congr 1
    · simpa using h 0 (by omega)
    · refine ih fun k hk => ?_
      have := h (k + 1) (by omega)
      rwa [show a + (k + 1) = a + 1 + k by omega] at this

/-- A run of writes keeps the canonical form. -/
theorem Memory.writeRun_wf {m : Memory} (a : Nat) (vs : List Byte) (h : m.wf) : (m.writeRun a vs).wf := by
  induction vs generalizing m a with
  | nil => exact h
  | cons v vs ih => exact ih (a + 1) (Memory.write_wf a v h)

/-- What a cell holds after a run of writes: its byte of the run, or what it held. -/
theorem Memory.read_writeRun {m : Memory} (a x : Nat) (vs : List Byte) (h : m.wf) :
    (m.writeRun a vs).read x = if a ≤ x then vs.getD (x - a) (m.read x) else m.read x := by
  induction vs generalizing m a with
  | nil => simp [Memory.writeRun]
  | cons v vs ih =>
    rw [Memory.writeRun, ih (a + 1) (Memory.write_wf a v h), Memory.read_write m a x v h.1]
    by_cases hx : x = a
    · subst hx; simp
    · by_cases hlt : a + 1 ≤ x
      · obtain ⟨d, rfl⟩ : ∃ d, x = a + 1 + d := ⟨x - (a + 1), by omega⟩
        simp only [hlt, if_true, show a ≤ a + 1 + d by omega, hx, if_false,
          show a + 1 + d - (a + 1) = d by omega, show a + 1 + d - a = d + 1 by omega, List.getD_cons_succ]
      · simp [hlt, hx, show ¬ a ≤ x by omega]

/-- A run of writes leaves every cell outside it as it was. -/
theorem Memory.read_writeRun_outside {m : Memory} {a x : Nat} {vs : List Byte} (h : m.wf)
    (hx : x < a ∨ a + vs.length ≤ x) : (m.writeRun a vs).read x = m.read x := by
  rw [Memory.read_writeRun a x vs h]
  split
  · rw [List.getD_eq_default _ _ (by omega)]
  · rfl

/-- A run of writes holds its bytes. -/
theorem Memory.readRun_writeRun {m : Memory} (a : Nat) (vs : List Byte) (h : m.wf) :
    (m.writeRun a vs).readRun a vs.length = vs := by
  refine List.ext_getElem? fun k => ?_
  by_cases hk : k < vs.length
  · rw [Memory.readRun_getElem? _ _ _ _ hk, Memory.read_writeRun _ _ _ h]
    simp [hk, List.getD_eq_getElem?_getD]
  · rw [List.getElem?_eq_none (by simp; omega), List.getElem?_eq_none (by omega)]

/-- The cells of a run of writes lie in the memory or in the run. -/
theorem Memory.key_of_mem_writeRun {m : Memory} {a : Nat} {vs : List Byte} {c : Host.Cell}
    (h : c ∈ m.writeRun a vs) : c ∈ m ∨ (a ≤ c.1 ∧ c.1 < a + vs.length) := by
  induction vs generalizing m a with
  | nil => exact .inl h
  | cons v vs ih =>
    rcases ih h with h | h
    · rcases Memory.key_of_mem_write h with h | rfl
      · exact .inl h
      · exact .inr (by simp)
    · exact .inr (by simp only [List.length_cons]; omega)

/-! ### The canonical form determines the memory -/

theorem Memory.read_below {m : Memory} {k y : Nat} (h : ∀ c ∈ m, k < c.1) (hy : y ≤ k) : m.read y = Memory.unlisted := by
  induction m with
  | nil => rfl
  | cons d m ih =>
    have := h d (by simp)
    rw [Memory.read, if_neg (by omega)]
    exact ih (fun c hc => h c (by simp [hc]))

/-- Two memories in canonical form that hold the same byte at every address are the same list. -/
theorem Memory.ext_read {m m' : Memory} (h : m.wf) (h' : m'.wf) (he : ∀ a, m.read a = m'.read a) : m = m' := by
  induction m generalizing m' with
  | nil =>
    cases m' with
    | nil => rfl
    | cons d m' =>
      have := he d.1
      rw [show Memory.read (d :: m') d.1 = d.2 by simp [Memory.read]] at this
      exact absurd this.symm (h'.2 d (by simp))
  | cons c m ih =>
    have hc := (List.pairwise_cons.mp h.1).1
    have hm : Memory.wf m := ⟨(List.pairwise_cons.mp h.1).2, fun x hx => h.2 x (by simp [hx])⟩
    cases m' with
    | nil =>
      have := he c.1
      rw [show Memory.read (c :: m) c.1 = c.2 by simp [Memory.read]] at this
      exact absurd this (h.2 c (by simp))
    | cons d m' =>
      have hd := (List.pairwise_cons.mp h'.1).1
      have hm' : Memory.wf m' := ⟨(List.pairwise_cons.mp h'.1).2, fun x hx => h'.2 x (by simp [hx])⟩
      obtain ⟨k, v⟩ := c
      obtain ⟨l, w⟩ := d
      have hk := he k
      have hl := he l
      simp only [Memory.read, if_true] at hk hl
      have hkl : k = l := by
        rcases Nat.lt_trichotomy k l with hlt | heq | hlt
        · rw [if_neg (by omega), Memory.read_below hd (by simp only; omega)] at hk
          exact absurd hk (h.2 _ List.mem_cons_self)
        · exact heq
        · rw [if_neg (by omega), Memory.read_below hc (by simp only; omega)] at hl
          exact absurd hl.symm (h'.2 _ List.mem_cons_self)
      subst hkl
      simp only [if_true] at hk
      subst hk
      congr 1
      refine ih hm hm' fun a => ?_
      have ha := he a
      simp only [Memory.read] at ha
      by_cases hak : a = k
      · subst hak
        rw [Memory.read_below hc (Nat.le_refl _), Memory.read_below hd (Nat.le_refl _)]
      · simpa only [if_neg hak] using ha

/-! ### Bounds -/

theorem Bounds.covers_iff (b : Bounds) (a n : Nat) : b.covers a n = true ↔ b.memStart ≤ a ∧ a + n ≤ b.memEnd := by
  simp [Bounds.covers]

theorem State.load_of_covers {s : State} {a n : Nat} (h : s.bounds.covers a n = true) :
    s.load a n = .ok (s.mem.readRun a n) := by simp [State.load, h]

theorem State.load_of_not_covers {s : State} {a n : Nat} (h : s.bounds.covers a n = false) :
    s.load a n = .error .outOfBounds := by simp [State.load, h]

/-- A load answers its bytes exactly in bounds, and its one error otherwise. -/
theorem State.load_cases (s : State) (a n : Nat) :
    (s.bounds.covers a n = true ∧ s.load a n = .ok (s.mem.readRun a n)) ∨
    (s.bounds.covers a n = false ∧ s.load a n = .error .outOfBounds) := by
  cases h : s.bounds.covers a n
  · exact .inr ⟨rfl, State.load_of_not_covers h⟩
  · exact .inl ⟨rfl, State.load_of_covers h⟩

/-- A store writes its bytes exactly in bounds, and its one error otherwise. -/
theorem State.store_cases (s : State) (a : Nat) (vs : List Byte) :
    (s.bounds.covers a vs.length = true ∧ s.store a vs = .ok { s with mem := s.mem.writeRun a vs }) ∨
    (s.bounds.covers a vs.length = false ∧ s.store a vs = .error .outOfBounds) := by
  cases h : s.bounds.covers a vs.length <;> simp [State.store, h]

end Sys2Proof.Machine
end

