-- ==== Sys2Proof/Laws/Ops.lean ====
section
/-! SUPPORT. One lemma per shared operation of Machine/Ops.lean and per operand access, each saying all the operation can
do: `memRead`, `memWrite`, `readOp`, `writeOp`, `raise`, `attempt`, `fetchRun`. -/

namespace Sys2Proof.Machine

/-! ### Taking an error -/

theorem State.raise_eq_faultedWith (s : State) (f : Fault) : s.raise f = faultedWith s f := by
  cases h : s.faultKind <;> simp [State.raise, faultedWith, h]

@[simp] theorem State.attempt_ok {α : Type} (s : State) (a : α) (k : α → State) : s.attempt (.ok a) k = k a := rfl
@[simp] theorem State.attempt_error {α : Type} (s : State) (f : Fault) (k : α → State) :
    s.attempt (.error f) k = s.raise f := rfl

/-! ### Words in memory -/

/-- The word at an address as the memory holds it. -/
def Memory.word (m : Memory) (a : Nat) : Word :=
  wordOfBytes (m.read a) (m.read (a + 1)) (m.read (a + 2)) (m.read (a + 3))

theorem wordOfRun_readRun (m : Memory) (a : Nat) : wordOfRun (m.readRun a 4) = m.word a := rfl

theorem State.memRead_eq (s : State) (a : Word) :
    s.memRead a = if s.bounds.covers a.toNat 4 then .ok (s.mem.word a.toNat) else .error .outOfBounds := by
  unfold State.memRead State.load
  split <;> rfl

theorem State.memRead_of_covers {s : State} {a : Word} (h : s.bounds.covers a.toNat 4 = true) :
    s.memRead a = .ok (s.mem.word a.toNat) := by rw [State.memRead_eq, if_pos h]

theorem State.memRead_of_not_covers {s : State} {a : Word} (h : ¬ s.bounds.covers a.toNat 4 = true) :
    s.memRead a = .error .outOfBounds := by rw [State.memRead_eq, if_neg h]

theorem State.memRead_ok {s : State} {a v : Word} (h : s.memRead a = .ok v) :
    s.bounds.covers a.toNat 4 = true ∧ v = s.mem.word a.toNat := by
  by_cases hc : s.bounds.covers a.toNat 4 = true
  · rw [State.memRead_of_covers hc] at h
    exact ⟨hc, (Except.ok.inj h).symm⟩
  · rw [State.memRead_of_not_covers hc] at h; cases h

theorem State.memWrite_eq (s : State) (a v : Word) :
    s.memWrite a v = if s.bounds.covers a.toNat 4 then
      .ok { s with mem := s.mem.writeRun a.toNat (bytesOfWord v) } else .error .outOfBounds := rfl

/-- The word just written is what a read finds. -/
theorem Memory.word_writeRun {m : Memory} (a : Nat) (v : Word) (h : m.wf) :
    (m.writeRun a (bytesOfWord v)).word a = v := by
  rw [← wordOfRun_readRun, ← bytesOfWord_length v, Memory.readRun_writeRun a _ h]
  exact wordOfBytes_bytesOfWord v

/-! ### Operands -/

theorem State.readOp_cases (s : State) (o : Operand) :
    (Accessible s o ∧ ∃ v, s.readOp o = .ok v) ∨ (¬ Accessible s o ∧ s.readOp o = .error .outOfBounds) := by
  cases o with
  | reg r => exact .inl ⟨trivial, _, rfl⟩
  | imm v => exact .inl ⟨trivial, _, rfl⟩
  | mem b d =>
    simp only [State.readOp, State.memRead_eq, Accessible, ← Bounds.covers_iff]
    split <;> simp_all

theorem State.readOp_ok_iff (s : State) (o : Operand) : (∃ v, s.readOp o = .ok v) ↔ Accessible s o := by
  rcases s.readOp_cases o with ⟨h, v, hv⟩ | ⟨h, hv⟩ <;> simp [h, hv]

theorem State.accessible_of_readOp {s : State} {o : Operand} {v : Word} (h : s.readOp o = .ok v) : Accessible s o :=
  (s.readOp_ok_iff o).mp ⟨v, h⟩

theorem State.readOp_error {s : State} {o : Operand} (h : ¬ Accessible s o) : s.readOp o = .error .outOfBounds := by
  rcases s.readOp_cases o with ⟨h', _⟩ | ⟨_, hv⟩
  · exact absurd h' h
  · exact hv

/-- Reading an operand looks at the registers, the memory and the bounds alone. -/
theorem State.readOp_congr {s t : State} (hr : t.regs = s.regs) (hm : t.mem = s.mem) (hb : t.bounds = s.bounds)
    (o : Operand) : t.readOp o = s.readOp o := by
  cases o <;> simp [State.readOp, State.memRead_eq, State.effectiveAddress, State.reg, hr, hm, hb]

@[simp] theorem State.advance_readOp (s : State) (len : Nat) (o : Operand) : (s.advance len).readOp o = s.readOp o :=
  State.readOp_congr rfl rfl rfl o
@[simp] theorem State.setEip_readOp (s : State) (target : Word) (o : Operand) : (s.setEip target).readOp o = s.readOp o :=
  State.readOp_congr rfl rfl rfl o
@[simp] theorem State.writeFlags_readOp (s : State) (m : FlagMap) (o : Operand) : (s.writeFlags m).readOp o = s.readOp o :=
  State.readOp_congr rfl rfl rfl o

/-- The state with a register destination or a memory destination written; an immediate is never written. -/
def State.put (s : State) (o : Operand) (v : Word) : State :=
  match o with
  | .reg r => s.setReg r v
  | .imm _ => s
  | .mem b d => { s with mem := s.mem.writeRun (s.effectiveAddress b d).toNat (bytesOfWord v) }

theorem State.writeOp_ok {s : State} {o : Operand} (h : Accessible s o) (v : Word) : s.writeOp o v = .ok (s.put o v) := by
  cases o with
  | reg r => rfl
  | imm w => rfl
  | mem b d =>
    simp only [Accessible, ← Bounds.covers_iff] at h
    simp [State.writeOp, State.memWrite_eq, State.put, h]

theorem State.writeOp_error {s : State} {o : Operand} (h : ¬ Accessible s o) (v : Word) :
    s.writeOp o v = .error .outOfBounds := by
  cases o with
  | reg r => exact absurd trivial h
  | imm w => exact absurd trivial h
  | mem b d =>
    simp only [Accessible, ← Bounds.covers_iff] at h
    simp [State.writeOp, State.memWrite_eq, h]

@[simp] theorem State.put_eip (s : State) (o : Operand) (v : Word) : (s.put o v).eip = s.eip := by cases o <;> rfl
@[simp] theorem State.put_eflags (s : State) (o : Operand) (v : Word) : (s.put o v).eflags = s.eflags := by
  cases o <;> rfl
@[simp] theorem State.put_runState (s : State) (o : Operand) (v : Word) : (s.put o v).runState = s.runState := by
  cases o <;> rfl
@[simp] theorem State.put_faultKind (s : State) (o : Operand) (v : Word) : (s.put o v).faultKind = s.faultKind := by
  cases o <;> rfl
@[simp] theorem State.put_bounds (s : State) (o : Operand) (v : Word) : (s.put o v).bounds = s.bounds := by
  cases o <;> rfl
@[simp] theorem State.put_testFlag (s : State) (o : Operand) (v : Word) (f : Flag) :
    (s.put o v).testFlag f = s.testFlag f := by simp [State.testFlag]
@[simp] theorem State.put_nextEip (s : State) (o : Operand) (v : Word) (len : Nat) :
    (s.put o v).nextEip len = s.nextEip len := by simp [State.nextEip]

theorem State.put_reg_of_ne (s : State) {o : Operand} {r : Reg} (v : Word) (h : o ≠ .reg r) :
    (s.put o v).reg r = s.reg r := by
  cases o with
  | reg q => exact s.setReg_reg_other v (fun e => h (by rw [e]))
  | imm w => rfl
  | mem b d => rfl

/-- A destination just written reads back. -/
theorem State.readOp_put {s : State} {o : Operand} (v : Word) (hw : s.mem.wf) (h : Accessible s o)
    (hi : ∀ w, o ≠ .imm w) : (s.put o v).readOp o = .ok v := by
  cases o with
  | reg r => simp [State.put, State.readOp]
  | imm w => exact absurd rfl (hi w)
  | mem b d =>
    simp only [Accessible, ← Bounds.covers_iff] at h
    change State.memRead { s with mem := s.mem.writeRun _ _ } (s.effectiveAddress b d) = _
    simp [State.memRead_eq, h, Memory.word_writeRun _ _ hw]

/-- Writing a destination keeps the canonical form. -/
theorem State.put_wf {s : State} (o : Operand) (v : Word) (h : s.mem.wf) : (s.put o v).mem.wf := by
  cases o with
  | reg r => exact h
  | imm w => exact h
  | mem b d => exact Memory.writeRun_wf _ _ h

/-- Writing a destination leaves every byte outside a memory destination's four as it was. -/
theorem State.put_read {s : State} {o : Operand} {a : Nat} (v : Word) (h : s.mem.wf)
    (hout : ∀ b d, o = .mem b d →
      a < (s.effectiveAddress b d).toNat ∨ (s.effectiveAddress b d).toNat + 4 ≤ a) :
    (s.put o v).mem.read a = s.mem.read a := by
  cases o with
  | reg r => rfl
  | imm w => rfl
  | mem b d => exact Memory.read_writeRun_outside h (hout b d rfl)

/-- Writing a destination touches cells inside the memory alone. -/
theorem State.put_inside {s : State} {o : Operand} {v : Word} (h : Accessible s o)
    (hin : ∀ c ∈ s.mem, s.bounds.memStart ≤ c.1 ∧ c.1 < s.bounds.memEnd) :
    ∀ c ∈ (s.put o v).mem, s.bounds.memStart ≤ c.1 ∧ c.1 < s.bounds.memEnd := by
  cases o with
  | reg r => exact hin
  | imm w => exact hin
  | mem b d =>
    intro c hc
    rcases Memory.key_of_mem_writeRun hc with hc | hc
    · exact hin c hc
    · simp only [Accessible, bytesOfWord_length] at h hc; omega

theorem rmOperand_ne_imm (rm : RM) (w : Word) : rmOperand rm ≠ .imm w := by cases rm <;> simp [rmOperand]

/-! ### Fetching -/

/-- A fetch gives the bytes from an address up to the end of the memory, `n` at most. -/
theorem State.fetchRun_eq (s : State) (n a : Nat) (h : s.bounds.memStart ≤ a) :
    s.fetchRun n a = s.mem.readRun a (min n (s.bounds.memEnd - a)) := by
  induction n generalizing a with
  | zero => simp [State.fetchRun, Memory.readRun]
  | succ n ih =>
    simp only [State.fetchRun, State.load]
    by_cases hc : s.bounds.covers a 1 = true
    · have := (Bounds.covers_iff _ _ _).mp hc
      simp only [hc, if_true, ih (a + 1) (by omega)]
      rw [show min (n + 1) (s.bounds.memEnd - a) = 1 + min n (s.bounds.memEnd - (a + 1)) by omega,
        Memory.readRun_add]
    · have : ¬ (s.bounds.memStart ≤ a ∧ a + 1 ≤ s.bounds.memEnd) := fun h => hc ((Bounds.covers_iff _ _ _).mpr h)
      simp only [hc]
      rw [show min (n + 1) (s.bounds.memEnd - a) = 0 by omega]
      rfl

end Sys2Proof.Machine
end

