-- ==== Sys2Proof/Laws/Exec.lean ====
section
/-! SUPPORT. Every instruction is of one of the spec's forms, and what `exec` does with a form is one shared body: with
these a proof about all instructions is a proof about ten bodies. Then one lemma per shared body, saying all it can do. -/

namespace Sys2Proof.Machine

/-! ### Lengths (30_encoding.md R113) -/

theorem dispSize_le (rm : RM) : dispSize rm ≤ 4 := by cases rm <;> simp [dispSize]

theorem encodeRM_length (rm : RM) (g : BitVec 3) : (encodeRM rm g).length = 1 + dispSize rm := by cases rm <;> rfl

theorem length_opM (b : Byte) (rm : RM) (g : BitVec 3) : (b :: encodeRM rm g).length = lenM rm := by
  cases rm <;> rfl

theorem length_opMI8 (b imm : Byte) (rm : RM) (g : BitVec 3) : (b :: (encodeRM rm g ++ [imm])).length = lenMI8 rm := by
  cases rm <;> rfl

theorem length_opMI32 (b : Byte) (imm : Word) (rm : RM) (g : BitVec 3) :
    (b :: (encodeRM rm g ++ bytesOfWord imm)).length = lenMI32 rm := by
  cases rm <;> rfl

/-! ### The forms of `exec` -/

/-- The core of a two-operand operation (41_arith_logic.md R181 to R188). -/
def aluCore (s : State) : AluOp → Word → Word → AluResult
  | .add => addCoreOf
  | .or => orCoreOf
  | .adc => adcCoreWith s
  | .sbb => sbbCoreWith s
  | .and => andCoreOf
  | .sub => subCoreOf
  | .xor => xorCoreOf
  | .cmp => cmpCoreOf

/-- The core of a one-operand operation (42_unary_shift.md R201 to R204). -/
def unaryCore : UnaryOp → Word → AluResult
  | .inc => incCore
  | .dec => decCore
  | .not => notCore
  | .neg => negCore

/-- The core of a shift (42_unary_shift.md R207 to R209). -/
def shiftCore : ShiftOp → Word → Nat → AluResult
  | .shl => shlCore
  | .shr => shrCore
  | .sar => sarCore

theorem exec_of_aluForm {i : Instr} {op : AluOp} {dst src : Operand} (h : aluForm i = some (op, dst, src)) (s : State) :
    exec i s = .next (if op = .cmp then compareOperands (aluCore s op) dst src (encode i).length s
      else twoOperand (aluCore s op) dst src (encode i).length s) := by
  cases i <;> simp only [aluForm, Option.some.injEq, Prod.mk.injEq, reduceCtorEq] at h <;>
  · obtain ⟨rfl, rfl, rfl⟩ := h
    first
    | rfl
    | (simp only [encode, length_opM, length_opMI8, length_opMI32]; rfl)

theorem exec_of_testForm {i : Instr} {fst snd : Operand} (h : testForm i = some (fst, snd)) (s : State) :
    exec i s = .next (compareOperands testCoreOf fst snd (encode i).length s) := by
  cases i <;> simp only [testForm, Option.some.injEq, Prod.mk.injEq, reduceCtorEq] at h <;>
  · obtain ⟨rfl, rfl⟩ := h
    first
    | rfl
    | (simp only [encode, length_opM, length_opMI32]; rfl)

theorem exec_of_unaryForm {i : Instr} {op : UnaryOp} {dst : Operand} (h : unaryForm i = some (op, dst)) (s : State) :
    exec i s = .next (oneOperand (unaryCore op) dst (encode i).length s) := by
  cases i <;> simp only [unaryForm, Option.some.injEq, Prod.mk.injEq, reduceCtorEq] at h <;>
  · obtain ⟨rfl, rfl⟩ := h
    first
    | rfl
    | (simp only [encode, length_opM]; rfl)

theorem shiftCount_eq (w : Word) : shiftCount w = w.toNat % 32 := by
  simp only [shiftCount, BitVec.toNat_and]
  exact Nat.and_two_pow_sub_one_eq_mod w.toNat 5

theorem shiftCount_zeroExtend (imm : Byte) : shiftCount (imm.zeroExtend 32) = imm.toNat % 32 := by
  have := imm.isLt
  rw [shiftCount_eq]
  simp only [BitVec.toNat_setWidth]
  omega

/-- A shift of a form: its count is the form's, and it runs the shared body on a source of that count. -/
theorem exec_of_shiftForm {s : State} {i : Instr} {op : ShiftOp} {dst : Operand} {c : Nat}
    (h : shiftForm s i = some (op, dst, c)) :
    ∃ source, shiftCount source = c ∧ exec i s = .next (shiftOperand (shiftCore op) dst source (encode i).length s) := by
  cases i <;> simp only [shiftForm, Option.some.injEq, Prod.mk.injEq, reduceCtorEq] at h <;>
  · obtain ⟨rfl, rfl, rfl⟩ := h
    first
    | exact ⟨1, rfl, by simp only [encode, length_opM]; rfl⟩
    | exact ⟨s.reg .ecx, shiftCount_eq _, by simp only [encode, length_opM]; rfl⟩
    | (next imm => exact ⟨imm.zeroExtend 32, shiftCount_zeroExtend imm, by simp only [encode, length_opMI8]; rfl⟩)

theorem exec_of_moveForm {i : Instr} {dst src : Operand} (h : moveForm i = some (dst, src)) (s : State) :
    exec i s = .next (moveOperand dst src (encode i).length s) := by
  cases i <;> simp only [moveForm, Option.some.injEq, Prod.mk.injEq, reduceCtorEq] at h <;>
  · obtain ⟨rfl, rfl⟩ := h
    first
    | rfl
    | (simp only [encode, length_opM, length_opMI32]; rfl)

theorem exec_of_pushForm {s : State} {i : Instr} {v : Word} (h : pushForm s i = some v) :
    exec i s = .next (pushThen v (fun t => t.advance (encode i).length) s) := by
  cases i <;> simp only [pushForm, Option.some.injEq, reduceCtorEq] at h <;>
  · obtain rfl := h
    rfl

theorem exec_of_jmpForm {i : Instr} {rel : Word} (h : jmpForm i = some rel) (s : State) :
    exec i s = .next (s.setEip (s.relativeTarget rel (encode i).length)) := by
  cases i <;> simp only [jmpForm, Option.some.injEq, reduceCtorEq] at h <;>
  · obtain rfl := h
    rfl

theorem exec_of_jccForm {i : Instr} {cc : Cond} {rel : Word} (h : jccForm i = some (cc, rel)) (s : State) :
    exec i s = .next (jumpIf cc rel (encode i).length s) := by
  cases i <;> simp only [jccForm, Option.some.injEq, Prod.mk.injEq, reduceCtorEq] at h <;>
  · obtain ⟨rfl, rfl⟩ := h
    rfl

/-- Every instruction is of one form. -/
theorem form_cases (s : State) (i : Instr) :
    (∃ op dst src, aluForm i = some (op, dst, src)) ∨ (∃ fst snd, testForm i = some (fst, snd)) ∨
    (∃ op dst, unaryForm i = some (op, dst)) ∨ (∃ op dst c, shiftForm s i = some (op, dst, c)) ∨
    (∃ dst src, moveForm i = some (dst, src)) ∨ (∃ v, pushForm s i = some v) ∨ (∃ rel, jmpForm i = some rel) ∨
    (∃ cc rel, jccForm i = some (cc, rel)) ∨ (∃ r, i = .popR r) ∨ (∃ rel, i = .callRel32 rel) ∨
    i = .ret ∨ i = .nop ∨ i = .hlt := by
  cases i <;> simp [aluForm, testForm, unaryForm, shiftForm, moveForm, pushForm, jmpForm, jccForm]

/-- An immediate is never a destination (30_encoding.md R105). -/
theorem aluForm_dst_ne_imm {i : Instr} {op : AluOp} {dst src : Operand} (h : aluForm i = some (op, dst, src))
    (w : Word) : dst ≠ .imm w := by
  cases i <;> simp only [aluForm, Option.some.injEq, Prod.mk.injEq, reduceCtorEq] at h <;>
  · obtain ⟨rfl, rfl, rfl⟩ := h
    first
    | exact rmOperand_ne_imm _ _
    | simp

theorem unaryForm_dst_ne_imm {i : Instr} {op : UnaryOp} {dst : Operand} (h : unaryForm i = some (op, dst))
    (w : Word) : dst ≠ .imm w := by
  cases i <;> simp only [unaryForm, Option.some.injEq, Prod.mk.injEq, reduceCtorEq] at h <;>
  · obtain ⟨rfl, rfl⟩ := h
    first
    | exact rmOperand_ne_imm _ _
    | simp

theorem shiftForm_dst_ne_imm {s : State} {i : Instr} {op : ShiftOp} {dst : Operand} {c : Nat}
    (h : shiftForm s i = some (op, dst, c)) (w : Word) : dst ≠ .imm w := by
  cases i <;> simp only [shiftForm, Option.some.injEq, Prod.mk.injEq, reduceCtorEq] at h <;>
  · obtain ⟨rfl, rfl, rfl⟩ := h
    exact rmOperand_ne_imm _ _

theorem moveForm_dst_ne_imm {i : Instr} {dst src : Operand} (h : moveForm i = some (dst, src))
    (w : Word) : dst ≠ .imm w := by
  cases i <;> simp only [moveForm, Option.some.injEq, Prod.mk.injEq, reduceCtorEq] at h <;>
  · obtain ⟨rfl, rfl⟩ := h
    first
    | exact rmOperand_ne_imm _ _
    | simp

/-! ### The shared bodies -/

/-- `twoOperand`: with both operands accessible, the result put in the destination, the flags, the advance; otherwise the
error with nothing written. -/
theorem twoOperand_ok {core : Word → Word → AluResult} {dst src : Operand} {len : Nat} {s : State} {a b : Word}
    (ha : s.readOp dst = .ok a) (hb : s.readOp src = .ok b) :
    twoOperand core dst src len s = ((s.put dst (core a b).value).writeFlags (core a b).flags).advance len := by
  simp [twoOperand, ha, hb, State.writeOp_ok (State.accessible_of_readOp ha)]

theorem twoOperand_error {core : Word → Word → AluResult} {dst src : Operand} {len : Nat} {s : State}
    (h : ¬ Accessible s dst ∨ ¬ Accessible s src) : twoOperand core dst src len s = s.raise .outOfBounds := by
  rcases s.readOp_cases dst with ⟨h1, a, ha⟩ | ⟨h1, ha⟩
  · have hs : ¬ Accessible s src := h.resolve_left (not_not.mpr h1)
    simp [twoOperand, ha, State.readOp_error hs]
  · simp [twoOperand, ha]

theorem compareOperands_ok {core : Word → Word → AluResult} {fst snd : Operand} {len : Nat} {s : State} {a b : Word}
    (ha : s.readOp fst = .ok a) (hb : s.readOp snd = .ok b) :
    compareOperands core fst snd len s = (s.writeFlags (core a b).flags).advance len := by
  simp [compareOperands, ha, hb]

theorem compareOperands_error {core : Word → Word → AluResult} {fst snd : Operand} {len : Nat} {s : State}
    (h : ¬ Accessible s fst ∨ ¬ Accessible s snd) : compareOperands core fst snd len s = s.raise .outOfBounds := by
  rcases s.readOp_cases fst with ⟨h1, a, ha⟩ | ⟨h1, ha⟩
  · have hs : ¬ Accessible s snd := h.resolve_left (not_not.mpr h1)
    simp [compareOperands, ha, State.readOp_error hs]
  · simp [compareOperands, ha]

theorem oneOperand_ok {core : Word → AluResult} {dst : Operand} {len : Nat} {s : State} {a : Word}
    (ha : s.readOp dst = .ok a) :
    oneOperand core dst len s = ((s.put dst (core a).value).writeFlags (core a).flags).advance len := by
  simp [oneOperand, ha, State.writeOp_ok (State.accessible_of_readOp ha)]

theorem oneOperand_error {core : Word → AluResult} {dst : Operand} {len : Nat} {s : State} (h : ¬ Accessible s dst) :
    oneOperand core dst len s = s.raise .outOfBounds := by
  simp [oneOperand, State.readOp_error h]

theorem shiftOperand_ok {core : Word → Nat → AluResult} {dst : Operand} {source : Word} {len : Nat} {s : State} {a : Word}
    (ha : s.readOp dst = .ok a) :
    shiftOperand core dst source len s = if shiftCount source = 0 then s.advance len else
      ((s.put dst (core a (shiftCount source)).value).writeFlags (core a (shiftCount source)).flags).advance len := by
  simp [shiftOperand, ha, State.writeOp_ok (State.accessible_of_readOp ha)]

theorem shiftOperand_error {core : Word → Nat → AluResult} {dst : Operand} {source : Word} {len : Nat} {s : State}
    (h : ¬ Accessible s dst) : shiftOperand core dst source len s = s.raise .outOfBounds := by
  simp [shiftOperand, State.readOp_error h]

theorem moveOperand_ok {dst src : Operand} {len : Nat} {s : State} {v : Word} (hd : Accessible s dst)
    (hv : s.readOp src = .ok v) : moveOperand dst src len s = (s.put dst v).advance len := by
  simp [moveOperand, hv, State.writeOp_ok hd]

theorem moveOperand_error {dst src : Operand} {len : Nat} {s : State} (h : ¬ Accessible s dst ∨ ¬ Accessible s src) :
    moveOperand dst src len s = s.raise .outOfBounds := by
  rcases s.readOp_cases src with ⟨h1, a, ha⟩ | ⟨h1, ha⟩
  · have hd : ¬ Accessible s dst := h.resolve_right (not_not.mpr h1)
    simp [moveOperand, ha, State.writeOp_error hd]
  · simp [moveOperand, ha]

/-- The state in which a push continues: `esp` four lower and the value in the slot. -/
def State.pushed (s : State) (v : Word) : State :=
  { s with regs := s.regs.set .esp (s.reg .esp - 4), mem := s.mem.writeRun (s.reg .esp - 4).toNat (bytesOfWord v) }

@[simp] theorem State.pushed_eip (s : State) (v : Word) : (s.pushed v).eip = s.eip := rfl
@[simp] theorem State.pushed_eflags (s : State) (v : Word) : (s.pushed v).eflags = s.eflags := rfl
@[simp] theorem State.pushed_runState (s : State) (v : Word) : (s.pushed v).runState = s.runState := rfl
@[simp] theorem State.pushed_faultKind (s : State) (v : Word) : (s.pushed v).faultKind = s.faultKind := rfl
@[simp] theorem State.pushed_bounds (s : State) (v : Word) : (s.pushed v).bounds = s.bounds := rfl
@[simp] theorem State.pushed_nextEip (s : State) (v : Word) (len : Nat) :
    (s.pushed v).nextEip len = s.nextEip len := rfl
@[simp] theorem State.pushed_esp (s : State) (v : Word) : (s.pushed v).reg .esp = s.reg .esp - 4 := rfl

theorem State.pushed_reg (s : State) (v : Word) (r : Reg) (h : r ≠ .esp) : (s.pushed v).reg r = s.reg r :=
  s.regs.get_set_other _ h

/-- The value just pushed is the word in the slot. -/
theorem State.pushed_word {s : State} (v : Word) (h : s.mem.wf) : (s.pushed v).mem.word (s.reg .esp - 4).toNat = v :=
  Memory.word_writeRun _ v h

theorem pushThen_eq (v : Word) (k : State → State) (s : State) :
    pushThen v k s = if s.bounds.covers (s.reg .esp - 4).toNat 4 then k (s.pushed v)
      else (s.setReg .esp (s.reg .esp - 4)).raise .outOfBounds := by
  have h : (s.setReg .esp (s.reg .esp - 4)).memWrite (s.reg .esp - 4) v =
      if s.bounds.covers (s.reg .esp - 4).toNat 4 then .ok (s.pushed v) else .error .outOfBounds := rfl
  rw [pushThen, State.setReg_reg_same, h]
  split <;> rfl

theorem popThen_eq (k : Word → State → State) (s : State) :
    popThen k s = if s.bounds.covers (s.reg .esp).toNat 4 then
      k (s.mem.word (s.reg .esp).toNat) (s.setReg .esp (s.reg .esp + 4)) else s.raise .outOfBounds := by
  simp only [popThen, State.memRead_eq]
  split <;> rfl

end Sys2Proof.Machine
end

