-- ==== Sys2Proof/Laws/Effect.lean ====
section
/-! SUPPORT. Everything an instruction can do to the state, said once for all instructions: an error taken, one destination
and some flags written, a push, a pop, a jump, or the halt. Frames and invariants are read off from this. -/

namespace Sys2Proof.Machine

/-- What `exec i s` can leave. `wrote` with an immediate as its operand is an instruction that writes flags alone, or
nothing but `eip`. -/
inductive Effect (s : State) (i : Instr) : State → Prop where
  | raised : Effect s i (s.raise .outOfBounds)
  | pushRaised (hr : Reg.esp ∈ writtenRegs s i) (hp : (∃ v, pushForm s i = some v) ∨ ∃ rel, i = .callRel32 rel)
      (hc : ¬ s.bounds.covers (s.reg .esp - 4).toNat 4 = true) :
      Effect s i ((s.setReg .esp (s.reg .esp - 4)).raise .outOfBounds)
  | wrote (o : Operand) (v : Word) (m : FlagMap) (ha : Accessible s o) (hr : ∀ r, o = .reg r → r ∈ writtenRegs s i)
      (hs : ∀ b d, o = .mem b d → storeAddress s i = some (s.effectiveAddress b d))
      (hm : ∀ f, f ∉ writtenFlags s i → m.get f = none) :
      Effect s i (((s.put o v).writeFlags m).advance (encode i).length)
  | pushed (v e : Word) (hr : Reg.esp ∈ writtenRegs s i) (hs : storeAddress s i = some (s.reg .esp - 4))
      (hc : s.bounds.covers (s.reg .esp - 4).toNat 4 = true)
      (he : e = s.nextEip (encode i).length ∨ ∃ rel, i = .callRel32 rel) : Effect s i ((s.pushed v).setEip e)
  | popped (r : Reg) (v e : Word) (hr : Reg.esp ∈ writtenRegs s i) (hr' : r ∈ writtenRegs s i)
      (he : e = s.nextEip (encode i).length ∨ i = .ret) :
      Effect s i (((s.setReg .esp (s.reg .esp + 4)).setReg r v).setEip e)
  | jumped (e : Word) (hj : (∃ rel, jmpForm i = some rel) ∨ ∃ x, jccForm i = some x) : Effect s i (s.setEip e)
  | halted (hi : i = .hlt) : Effect s i { s.advance (encode i).length with runState := .halted }

/-- A result operand is a register the instruction may write, or the address it stores to. -/
theorem resultOperand_written {s : State} {i : Instr} {o : Operand} (h : resultOperand s i = some o) :
    (∀ r, o = .reg r → r ∈ writtenRegs s i) ∧
    (∀ b d, o = .mem b d → storeAddress s i = some (s.effectiveAddress b d)) := by
  have hr : writtenRegs s i = (match resultOperand s i with
      | some (.reg r) => [r] | some (.mem _ _) => [] | some (.imm _) => [] | none => []) := by
    cases i <;> first | rfl | (simp [resultOperand, aluForm, unaryForm, shiftForm, moveForm] at h)
  have hs : storeAddress s i = (match resultOperand s i with
      | some (.mem b d) => some (s.effectiveAddress b d) | some (.reg _) => none | some (.imm _) => none | none => none) := by
    cases i <;> first | rfl | (simp [resultOperand, aluForm, unaryForm, shiftForm, moveForm] at h)
  rw [hr, hs, h]
  exact ⟨fun r e => by subst e; simp, fun b d e => by subst e; rfl⟩

theorem forms_of_testForm {i : Instr} {x} (h : testForm i = some x) :
    aluForm i = none := by
  cases i <;> simp_all [aluForm, testForm]

theorem forms_of_unaryForm {i : Instr} {x} (h : unaryForm i = some x) :
    aluForm i = none ∧ testForm i = none := by
  cases i <;> simp_all [aluForm, testForm, unaryForm]

theorem forms_of_shiftForm {s : State} {i : Instr} {x} (h : shiftForm s i = some x) :
    aluForm i = none ∧ testForm i = none ∧ unaryForm i = none := by
  cases i <;> simp_all [aluForm, testForm, unaryForm, shiftForm]

theorem forms_of_moveForm {s : State} {i : Instr} {x} (h : moveForm i = some x) :
    aluForm i = none ∧ testForm i = none ∧ unaryForm i = none ∧ shiftForm s i = none := by
  cases i <;> simp_all [aluForm, testForm, unaryForm, shiftForm, moveForm]

theorem flag_mem_all (f : Flag) : f ∈ [Flag.cf, .pf, .af, .zf, .sf, .of] := by cases f <;> decide

theorem effect_wrote_imm {s : State} {i : Instr} (m : FlagMap) (hm : ∀ f, f ∉ writtenFlags s i → m.get f = none) :
    Effect s i ((s.writeFlags m).advance (encode i).length) :=
  Effect.wrote (.imm 0) 0 m trivial (by simp) (by simp) hm

theorem effect_alu {i : Instr} {s t : State} {op : AluOp} {dst src : Operand} (hf : aluForm i = some (op, dst, src))
    (h : exec i s = .next t) : Effect s i t := by
  have hw : writtenFlags s i = [.cf, .pf, .af, .zf, .sf, .of] := by simp only [writtenFlags, hf]
  rw [exec_of_aluForm hf, Host.Outcome.next.injEq] at h
  subst h
  split
  · by_cases hacc : Accessible s dst ∧ Accessible s src
    · obtain ⟨⟨x, hx⟩, y, hy⟩ := And.intro ((s.readOp_ok_iff dst).mpr hacc.1) ((s.readOp_ok_iff src).mpr hacc.2)
      rw [compareOperands_ok hx hy]
      exact effect_wrote_imm _ fun f hn => absurd (hw ▸ flag_mem_all f) hn
    · rw [compareOperands_error (not_and_or.mp hacc)]
      exact .raised
  · next hop =>
    by_cases hacc : Accessible s dst ∧ Accessible s src
    · obtain ⟨⟨x, hx⟩, y, hy⟩ := And.intro ((s.readOp_ok_iff dst).mpr hacc.1) ((s.readOp_ok_iff src).mpr hacc.2)
      rw [twoOperand_ok hx hy]
      have hro : resultOperand s i = some dst := by simp only [resultOperand, hf, if_neg hop]
      exact .wrote dst _ _ hacc.1 (resultOperand_written hro).1 (resultOperand_written hro).2
        fun f hn => absurd (hw ▸ flag_mem_all f) hn
    · rw [twoOperand_error (not_and_or.mp hacc)]
      exact .raised

theorem effect_test {i : Instr} {s t : State} {a b : Operand} (hf : testForm i = some (a, b))
    (h : exec i s = .next t) : Effect s i t := by
  have hw : writtenFlags s i = [.cf, .pf, .af, .zf, .sf, .of] := by
    simp only [writtenFlags, hf, forms_of_testForm hf]
  rw [exec_of_testForm hf, Host.Outcome.next.injEq] at h
  subst h
  by_cases hacc : Accessible s a ∧ Accessible s b
  · obtain ⟨⟨x, hx⟩, y, hy⟩ := And.intro ((s.readOp_ok_iff a).mpr hacc.1) ((s.readOp_ok_iff b).mpr hacc.2)
    rw [compareOperands_ok hx hy]
    exact effect_wrote_imm _ fun f hn => absurd (hw ▸ flag_mem_all f) hn
  · rw [compareOperands_error (not_and_or.mp hacc)]
    exact .raised

theorem effect_unary {i : Instr} {s t : State} {op : UnaryOp} {dst : Operand} (hf : unaryForm i = some (op, dst))
    (h : exec i s = .next t) : Effect s i t := by
  obtain ⟨h1, h2⟩ := forms_of_unaryForm hf
  rw [exec_of_unaryForm hf, Host.Outcome.next.injEq] at h
  subst h
  by_cases hacc : Accessible s dst
  · obtain ⟨x, hx⟩ := (s.readOp_ok_iff dst).mpr hacc
    rw [oneOperand_ok hx]
    have hro : resultOperand s i = some dst := by simp only [resultOperand, hf, h1]
    refine .wrote dst _ _ hacc (resultOperand_written hro).1 (resultOperand_written hro).2 fun f hn => ?_
    simp only [writtenFlags, h1, h2, hf] at hn
    cases op <;> cases f <;> first | rfl | (simp at hn)
  · rw [oneOperand_error hacc]
    exact .raised

theorem effect_shift {i : Instr} {s t : State} {op : ShiftOp} {dst : Operand} {c : Nat}
    (hf : shiftForm s i = some (op, dst, c)) (h : exec i s = .next t) : Effect s i t := by
  obtain ⟨h1, h2, h3⟩ := forms_of_shiftForm hf
  obtain ⟨source, rfl, hx⟩ := exec_of_shiftForm hf
  rw [hx, Host.Outcome.next.injEq] at h
  subst h
  by_cases hacc : Accessible s dst
  · obtain ⟨x, hx⟩ := (s.readOp_ok_iff dst).mpr hacc
    rw [shiftOperand_ok hx]
    split
    · exact effect_wrote_imm {} fun f _ => by cases f <;> rfl
    · next hc =>
      have hw : writtenFlags s i = [.cf, .pf, .af, .zf, .sf, .of] := by
        simp only [writtenFlags, h1, h2, h3, hf, if_neg hc]
      have hro : resultOperand s i = some dst := by simp only [resultOperand, hf, h1, h3, if_neg hc]
      exact .wrote dst _ _ hacc (resultOperand_written hro).1 (resultOperand_written hro).2
        fun f hn => absurd (hw ▸ flag_mem_all f) hn
  · rw [shiftOperand_error hacc]
    exact .raised

theorem effect_move {i : Instr} {s t : State} {dst src : Operand} (hf : moveForm i = some (dst, src))
    (h : exec i s = .next t) : Effect s i t := by
  obtain ⟨h1, h2, h3, h4⟩ := forms_of_moveForm (s := s) hf
  rw [exec_of_moveForm hf, Host.Outcome.next.injEq] at h
  subst h
  by_cases hacc : Accessible s dst ∧ Accessible s src
  · obtain ⟨x, hx⟩ := (s.readOp_ok_iff src).mpr hacc.2
    rw [moveOperand_ok hacc.1 hx]
    have hro : resultOperand s i = some dst := by simp only [resultOperand, hf, h1, h3, h4]
    exact .wrote dst x {} hacc.1 (resultOperand_written hro).1 (resultOperand_written hro).2
      fun f _ => by cases f <;> rfl
  · rw [moveOperand_error (not_and_or.mp hacc)]
    exact .raised

theorem pushForm_written {s : State} {i : Instr} {v : Word} (hf : pushForm s i = some v) :
    Reg.esp ∈ writtenRegs s i ∧ storeAddress s i = some (s.reg .esp - 4) := by
  cases i <;> first
    | exact ⟨List.mem_cons_self, rfl⟩
    | (simp only [pushForm, reduceCtorEq] at hf)

theorem effect_push {i : Instr} {s t : State} {v : Word} (hf : pushForm s i = some v)
    (h : exec i s = .next t) : Effect s i t := by
  obtain ⟨hr, hs⟩ := pushForm_written hf
  rw [exec_of_pushForm hf, pushThen_eq, Host.Outcome.next.injEq] at h
  subst h
  split
  · next hc => exact .pushed v _ hr hs hc (.inl rfl)
  · next hc => exact .pushRaised hr (.inl ⟨v, hf⟩) hc

theorem effect_pop {r : Reg} {s t : State} (h : exec (.popR r) s = .next t) : Effect s (.popR r) t := by
  change Host.Outcome.next (popThen (fun v t => (t.setReg r v).advance 1) s) = _ at h
  rw [popThen_eq, Host.Outcome.next.injEq] at h
  subst h
  split
  · exact .popped r _ _ List.mem_cons_self (List.mem_cons_of_mem _ List.mem_cons_self) (.inl rfl)
  · exact .raised

theorem effect_call {rel : Word} {s t : State} (h : exec (.callRel32 rel) s = .next t) :
    Effect s (.callRel32 rel) t := by
  change Host.Outcome.next (pushThen (s.nextEip 5) (fun t => t.setEip (s.relativeTarget rel 5)) s) = _ at h
  rw [pushThen_eq, Host.Outcome.next.injEq] at h
  subst h
  split
  · next hc => exact .pushed _ _ List.mem_cons_self rfl hc (.inr ⟨rel, rfl⟩)
  · next hc => exact .pushRaised List.mem_cons_self (.inr ⟨rel, rfl⟩) hc

theorem effect_ret {s t : State} (h : exec .ret s = .next t) : Effect s .ret t := by
  change Host.Outcome.next (popThen (fun v t => t.setEip v) s) = _ at h
  rw [popThen_eq, Host.Outcome.next.injEq] at h
  subst h
  split
  · have := Effect.popped (s := s) (i := .ret) .esp (s.reg .esp + 4) (s.mem.word (s.reg .esp).toNat)
      List.mem_cons_self List.mem_cons_self (.inr rfl)
    simpa only [State.setReg, Regs.set_set_same] using this
  · exact .raised

/-- The one inversion lemma of `exec`. -/
theorem exec_effect {i : Instr} {s t : State} (h : exec i s = .next t) : Effect s i t := by
  rcases form_cases s i with ⟨_, _, _, hf⟩ | ⟨_, _, hf⟩ | ⟨_, _, hf⟩ | ⟨_, _, _, hf⟩ | ⟨_, _, hf⟩ |
    ⟨_, hf⟩ | ⟨rel, hf⟩ | ⟨cc, rel, hf⟩ | ⟨r, rfl⟩ | ⟨rel, rfl⟩ | rfl | rfl | rfl
  · exact effect_alu hf h
  · exact effect_test hf h
  · exact effect_unary hf h
  · exact effect_shift hf h
  · exact effect_move hf h
  · exact effect_push hf h
  · rw [exec_of_jmpForm hf, Host.Outcome.next.injEq] at h
    subst h
    exact .jumped _ (.inl ⟨rel, hf⟩)
  · rw [exec_of_jccForm hf, Host.Outcome.next.injEq] at h
    subst h
    unfold jumpIf
    split
    · exact .jumped _ (.inr ⟨_, hf⟩)
    · exact .jumped _ (.inr ⟨_, hf⟩)
  · exact effect_pop h
  · exact effect_call h
  · exact effect_ret h
  · change Host.Outcome.next (s.advance 1) = _ at h
    rw [Host.Outcome.next.injEq] at h
    subst h
    exact effect_wrote_imm {} fun f _ => by cases f <;> rfl
  · change Host.Outcome.next ({ s.advance 1 with runState := .halted } : State) = _ at h
    rw [Host.Outcome.next.injEq] at h
    subst h
    exact .halted rfl

/-- Every instruction answers a next state: errors are taken (60_exceptions.md R305). -/
theorem exec_next (i : Instr) (s : State) : ∃ t, exec i s = .next t := by
  cases i <;> exact ⟨_, rfl⟩

end Sys2Proof.Machine
end

