-- ==== Sys2Proof/Laws/PerInstr.lean ====
section
/-! SUPPORT. Laws of the instruction as syntax, one lemma per constructor: an encoding has 1 to 10 bytes (30_encoding.md
R113). -/

namespace Sys2Proof.Laws.EncodedLength

open Sys2Proof Sys2Proof.Machine

/-- The shortest instruction is 1 byte, the longest 10 (30_encoding.md R113). -/
def Statement (i : Instr) : Prop := 1 ≤ (encode i).length ∧ (encode i).length ≤ 10

theorem of_lenM {i : Instr} {rm : RM} (h : (encode i).length = lenM rm) : Statement i := by
  have := dispSize_le rm
  unfold Statement; rw [h, lenM]; omega

theorem of_lenMI8 {i : Instr} {rm : RM} (h : (encode i).length = lenMI8 rm) : Statement i := by
  have := dispSize_le rm
  unfold Statement; rw [h, lenMI8]; omega

theorem of_lenMI32 {i : Instr} {rm : RM} (h : (encode i).length = lenMI32 rm) : Statement i := by
  have := dispSize_le rm
  unfold Statement; rw [h, lenMI32]; omega

theorem of_length {i : Instr} (n : Nat) (h : (encode i).length = n) (h1 : 1 ≤ n) (h2 : n ≤ 10) : Statement i := by
  unfold Statement; omega

theorem addRmR (rm : RM) (r : Reg) : Statement (.addRmR rm r) := of_lenM (length_opM _ _ _)
theorem addRRm (r : Reg) (rm : RM) : Statement (.addRRm r rm) := of_lenM (length_opM _ _ _)
theorem addEaxImm32 (imm : Word) : Statement (.addEaxImm32 imm) := of_length 5 rfl (by decide) (by decide)
theorem addRmImm32 (rm : RM) (imm : Word) : Statement (.addRmImm32 rm imm) := of_lenMI32 (length_opMI32 _ _ _ _)
theorem addRmImm8 (rm : RM) (imm : Byte) : Statement (.addRmImm8 rm imm) := of_lenMI8 (length_opMI8 _ _ _ _)
theorem orRmR (rm : RM) (r : Reg) : Statement (.orRmR rm r) := of_lenM (length_opM _ _ _)
theorem orRRm (r : Reg) (rm : RM) : Statement (.orRRm r rm) := of_lenM (length_opM _ _ _)
theorem orEaxImm32 (imm : Word) : Statement (.orEaxImm32 imm) := of_length 5 rfl (by decide) (by decide)
theorem orRmImm32 (rm : RM) (imm : Word) : Statement (.orRmImm32 rm imm) := of_lenMI32 (length_opMI32 _ _ _ _)
theorem orRmImm8 (rm : RM) (imm : Byte) : Statement (.orRmImm8 rm imm) := of_lenMI8 (length_opMI8 _ _ _ _)
theorem adcRmR (rm : RM) (r : Reg) : Statement (.adcRmR rm r) := of_lenM (length_opM _ _ _)
theorem adcRRm (r : Reg) (rm : RM) : Statement (.adcRRm r rm) := of_lenM (length_opM _ _ _)
theorem adcEaxImm32 (imm : Word) : Statement (.adcEaxImm32 imm) := of_length 5 rfl (by decide) (by decide)
theorem adcRmImm32 (rm : RM) (imm : Word) : Statement (.adcRmImm32 rm imm) := of_lenMI32 (length_opMI32 _ _ _ _)
theorem adcRmImm8 (rm : RM) (imm : Byte) : Statement (.adcRmImm8 rm imm) := of_lenMI8 (length_opMI8 _ _ _ _)
theorem sbbRmR (rm : RM) (r : Reg) : Statement (.sbbRmR rm r) := of_lenM (length_opM _ _ _)
theorem sbbRRm (r : Reg) (rm : RM) : Statement (.sbbRRm r rm) := of_lenM (length_opM _ _ _)
theorem sbbEaxImm32 (imm : Word) : Statement (.sbbEaxImm32 imm) := of_length 5 rfl (by decide) (by decide)
theorem sbbRmImm32 (rm : RM) (imm : Word) : Statement (.sbbRmImm32 rm imm) := of_lenMI32 (length_opMI32 _ _ _ _)
theorem sbbRmImm8 (rm : RM) (imm : Byte) : Statement (.sbbRmImm8 rm imm) := of_lenMI8 (length_opMI8 _ _ _ _)
theorem andRmR (rm : RM) (r : Reg) : Statement (.andRmR rm r) := of_lenM (length_opM _ _ _)
theorem andRRm (r : Reg) (rm : RM) : Statement (.andRRm r rm) := of_lenM (length_opM _ _ _)
theorem andEaxImm32 (imm : Word) : Statement (.andEaxImm32 imm) := of_length 5 rfl (by decide) (by decide)
theorem andRmImm32 (rm : RM) (imm : Word) : Statement (.andRmImm32 rm imm) := of_lenMI32 (length_opMI32 _ _ _ _)
theorem andRmImm8 (rm : RM) (imm : Byte) : Statement (.andRmImm8 rm imm) := of_lenMI8 (length_opMI8 _ _ _ _)
theorem subRmR (rm : RM) (r : Reg) : Statement (.subRmR rm r) := of_lenM (length_opM _ _ _)
theorem subRRm (r : Reg) (rm : RM) : Statement (.subRRm r rm) := of_lenM (length_opM _ _ _)
theorem subEaxImm32 (imm : Word) : Statement (.subEaxImm32 imm) := of_length 5 rfl (by decide) (by decide)
theorem subRmImm32 (rm : RM) (imm : Word) : Statement (.subRmImm32 rm imm) := of_lenMI32 (length_opMI32 _ _ _ _)
theorem subRmImm8 (rm : RM) (imm : Byte) : Statement (.subRmImm8 rm imm) := of_lenMI8 (length_opMI8 _ _ _ _)
theorem xorRmR (rm : RM) (r : Reg) : Statement (.xorRmR rm r) := of_lenM (length_opM _ _ _)
theorem xorRRm (r : Reg) (rm : RM) : Statement (.xorRRm r rm) := of_lenM (length_opM _ _ _)
theorem xorEaxImm32 (imm : Word) : Statement (.xorEaxImm32 imm) := of_length 5 rfl (by decide) (by decide)
theorem xorRmImm32 (rm : RM) (imm : Word) : Statement (.xorRmImm32 rm imm) := of_lenMI32 (length_opMI32 _ _ _ _)
theorem xorRmImm8 (rm : RM) (imm : Byte) : Statement (.xorRmImm8 rm imm) := of_lenMI8 (length_opMI8 _ _ _ _)
theorem cmpRmR (rm : RM) (r : Reg) : Statement (.cmpRmR rm r) := of_lenM (length_opM _ _ _)
theorem cmpRRm (r : Reg) (rm : RM) : Statement (.cmpRRm r rm) := of_lenM (length_opM _ _ _)
theorem cmpEaxImm32 (imm : Word) : Statement (.cmpEaxImm32 imm) := of_length 5 rfl (by decide) (by decide)
theorem cmpRmImm32 (rm : RM) (imm : Word) : Statement (.cmpRmImm32 rm imm) := of_lenMI32 (length_opMI32 _ _ _ _)
theorem cmpRmImm8 (rm : RM) (imm : Byte) : Statement (.cmpRmImm8 rm imm) := of_lenMI8 (length_opMI8 _ _ _ _)
theorem testRmR (rm : RM) (r : Reg) : Statement (.testRmR rm r) := of_lenM (length_opM _ _ _)
theorem testEaxImm32 (imm : Word) : Statement (.testEaxImm32 imm) := of_length 5 rfl (by decide) (by decide)
theorem testRmImm32 (rm : RM) (imm : Word) : Statement (.testRmImm32 rm imm) := of_lenMI32 (length_opMI32 _ _ _ _)
theorem incR (r : Reg) : Statement (.incR r) := of_length 1 rfl (by decide) (by decide)
theorem decR (r : Reg) : Statement (.decR r) := of_length 1 rfl (by decide) (by decide)
theorem incRm (rm : RM) : Statement (.incRm rm) := of_lenM (length_opM _ _ _)
theorem decRm (rm : RM) : Statement (.decRm rm) := of_lenM (length_opM _ _ _)
theorem notRm (rm : RM) : Statement (.notRm rm) := of_lenM (length_opM _ _ _)
theorem negRm (rm : RM) : Statement (.negRm rm) := of_lenM (length_opM _ _ _)
theorem shlRm1 (rm : RM) : Statement (.shlRm1 rm) := of_lenM (length_opM _ _ _)
theorem shlRmImm8 (rm : RM) (imm : Byte) : Statement (.shlRmImm8 rm imm) := of_lenMI8 (length_opMI8 _ _ _ _)
theorem shlRmCl (rm : RM) : Statement (.shlRmCl rm) := of_lenM (length_opM _ _ _)
theorem shrRm1 (rm : RM) : Statement (.shrRm1 rm) := of_lenM (length_opM _ _ _)
theorem shrRmImm8 (rm : RM) (imm : Byte) : Statement (.shrRmImm8 rm imm) := of_lenMI8 (length_opMI8 _ _ _ _)
theorem shrRmCl (rm : RM) : Statement (.shrRmCl rm) := of_lenM (length_opM _ _ _)
theorem sarRm1 (rm : RM) : Statement (.sarRm1 rm) := of_lenM (length_opM _ _ _)
theorem sarRmImm8 (rm : RM) (imm : Byte) : Statement (.sarRmImm8 rm imm) := of_lenMI8 (length_opMI8 _ _ _ _)
theorem sarRmCl (rm : RM) : Statement (.sarRmCl rm) := of_lenM (length_opM _ _ _)
theorem movRmR (rm : RM) (r : Reg) : Statement (.movRmR rm r) := of_lenM (length_opM _ _ _)
theorem movRRm (r : Reg) (rm : RM) : Statement (.movRRm r rm) := of_lenM (length_opM _ _ _)
theorem movRImm32 (r : Reg) (imm : Word) : Statement (.movRImm32 r imm) := of_length 5 rfl (by decide) (by decide)
theorem movRmImm32 (rm : RM) (imm : Word) : Statement (.movRmImm32 rm imm) := of_lenMI32 (length_opMI32 _ _ _ _)
theorem nop : Statement (.nop) := of_length 1 rfl (by decide) (by decide)
theorem pushR (r : Reg) : Statement (.pushR r) := of_length 1 rfl (by decide) (by decide)
theorem pushImm32 (imm : Word) : Statement (.pushImm32 imm) := of_length 5 rfl (by decide) (by decide)
theorem pushImm8 (imm : Byte) : Statement (.pushImm8 imm) := of_length 2 rfl (by decide) (by decide)
theorem popR (r : Reg) : Statement (.popR r) := of_length 1 rfl (by decide) (by decide)
theorem jmpRel8 (rel : Byte) : Statement (.jmpRel8 rel) := of_length 2 rfl (by decide) (by decide)
theorem jmpRel32 (rel : Word) : Statement (.jmpRel32 rel) := of_length 5 rfl (by decide) (by decide)
theorem joRel8 (rel : Byte) : Statement (.joRel8 rel) := of_length 2 rfl (by decide) (by decide)
theorem jnoRel8 (rel : Byte) : Statement (.jnoRel8 rel) := of_length 2 rfl (by decide) (by decide)
theorem jbRel8 (rel : Byte) : Statement (.jbRel8 rel) := of_length 2 rfl (by decide) (by decide)
theorem jaeRel8 (rel : Byte) : Statement (.jaeRel8 rel) := of_length 2 rfl (by decide) (by decide)
theorem jeRel8 (rel : Byte) : Statement (.jeRel8 rel) := of_length 2 rfl (by decide) (by decide)
theorem jneRel8 (rel : Byte) : Statement (.jneRel8 rel) := of_length 2 rfl (by decide) (by decide)
theorem jbeRel8 (rel : Byte) : Statement (.jbeRel8 rel) := of_length 2 rfl (by decide) (by decide)
theorem jaRel8 (rel : Byte) : Statement (.jaRel8 rel) := of_length 2 rfl (by decide) (by decide)
theorem jsRel8 (rel : Byte) : Statement (.jsRel8 rel) := of_length 2 rfl (by decide) (by decide)
theorem jnsRel8 (rel : Byte) : Statement (.jnsRel8 rel) := of_length 2 rfl (by decide) (by decide)
theorem jpRel8 (rel : Byte) : Statement (.jpRel8 rel) := of_length 2 rfl (by decide) (by decide)
theorem jnpRel8 (rel : Byte) : Statement (.jnpRel8 rel) := of_length 2 rfl (by decide) (by decide)
theorem jlRel8 (rel : Byte) : Statement (.jlRel8 rel) := of_length 2 rfl (by decide) (by decide)
theorem jgeRel8 (rel : Byte) : Statement (.jgeRel8 rel) := of_length 2 rfl (by decide) (by decide)
theorem jleRel8 (rel : Byte) : Statement (.jleRel8 rel) := of_length 2 rfl (by decide) (by decide)
theorem jgRel8 (rel : Byte) : Statement (.jgRel8 rel) := of_length 2 rfl (by decide) (by decide)
theorem joRel32 (rel : Word) : Statement (.joRel32 rel) := of_length 6 rfl (by decide) (by decide)
theorem jnoRel32 (rel : Word) : Statement (.jnoRel32 rel) := of_length 6 rfl (by decide) (by decide)
theorem jbRel32 (rel : Word) : Statement (.jbRel32 rel) := of_length 6 rfl (by decide) (by decide)
theorem jaeRel32 (rel : Word) : Statement (.jaeRel32 rel) := of_length 6 rfl (by decide) (by decide)
theorem jeRel32 (rel : Word) : Statement (.jeRel32 rel) := of_length 6 rfl (by decide) (by decide)
theorem jneRel32 (rel : Word) : Statement (.jneRel32 rel) := of_length 6 rfl (by decide) (by decide)
theorem jbeRel32 (rel : Word) : Statement (.jbeRel32 rel) := of_length 6 rfl (by decide) (by decide)
theorem jaRel32 (rel : Word) : Statement (.jaRel32 rel) := of_length 6 rfl (by decide) (by decide)
theorem jsRel32 (rel : Word) : Statement (.jsRel32 rel) := of_length 6 rfl (by decide) (by decide)
theorem jnsRel32 (rel : Word) : Statement (.jnsRel32 rel) := of_length 6 rfl (by decide) (by decide)
theorem jpRel32 (rel : Word) : Statement (.jpRel32 rel) := of_length 6 rfl (by decide) (by decide)
theorem jnpRel32 (rel : Word) : Statement (.jnpRel32 rel) := of_length 6 rfl (by decide) (by decide)
theorem jlRel32 (rel : Word) : Statement (.jlRel32 rel) := of_length 6 rfl (by decide) (by decide)
theorem jgeRel32 (rel : Word) : Statement (.jgeRel32 rel) := of_length 6 rfl (by decide) (by decide)
theorem jleRel32 (rel : Word) : Statement (.jleRel32 rel) := of_length 6 rfl (by decide) (by decide)
theorem jgRel32 (rel : Word) : Statement (.jgRel32 rel) := of_length 6 rfl (by decide) (by decide)
theorem callRel32 (rel : Word) : Statement (.callRel32 rel) := of_length 5 rfl (by decide) (by decide)
theorem ret : Statement (.ret) := of_length 1 rfl (by decide) (by decide)
theorem hlt : Statement (.hlt) := of_length 1 rfl (by decide) (by decide)

end Sys2Proof.Laws.EncodedLength
end

