-- ==== Sys2Proof/Laws/Step.lean ====
section
/-! SUPPORT. What a step can do: the run-state test, the decode phase, the instruction and the halt check
(60_exceptions.md R300 to R303). -/

namespace Sys2Proof.Machine

theorem step_not_ready {s : State} (h : s.runState ≠ .ready) : step s = .next (s.raise .invalidState) := by
  unfold step stepWith; rw [if_neg h]

theorem step_ready_ok {s : State} {i : Instr} {t : State} (h : s.runState = .ready) (hd : s.enter.fetchDecode = .ok i)
    (ht : exec i s.enter = .next t) : step s = .next t.haltCheck := by
  unfold step stepWith
  rw [if_pos h, hd]
  simp only [ht, endStep]

theorem step_ready_error {s : State} {f : Fault} (h : s.runState = .ready) (hd : s.enter.fetchDecode = .error f) :
    step s = .next (s.enter.raise f) := by
  unfold step stepWith
  rw [if_pos h, hd]

/-- Everything a step can do. -/
theorem step_cases {s t : State} (h : step s = .next t) :
    (s.runState ≠ .ready ∧ t = s.raise .invalidState) ∨
    (s.runState = .ready ∧ ∃ f, s.enter.fetchDecode = .error f ∧ t = s.enter.raise f) ∨
    (s.runState = .ready ∧ ∃ i u, s.enter.fetchDecode = .ok i ∧ exec i s.enter = .next u ∧ t = u.haltCheck) := by
  by_cases hr : s.runState = .ready
  · cases hd : s.enter.fetchDecode with
    | error f =>
      rw [step_ready_error hr hd, Host.Outcome.next.injEq] at h
      exact .inr (.inl ⟨hr, f, rfl, h.symm⟩)
    | ok i =>
      obtain ⟨u, hu⟩ := exec_next i s.enter
      rw [step_ready_ok hr hd hu, Host.Outcome.next.injEq] at h
      exact .inr (.inr ⟨hr, i, u, rfl, hu, h.symm⟩)
  · rw [step_not_ready hr, Host.Outcome.next.injEq] at h
    exact .inl ⟨hr, h.symm⟩

/-- Every step answers a next state. -/
theorem step_next (s : State) : ∃ t, step s = .next t := by
  by_cases hr : s.runState = .ready
  · cases hd : s.enter.fetchDecode with
    | error f => exact ⟨_, step_ready_error hr hd⟩
    | ok i =>
      obtain ⟨u, hu⟩ := exec_next i s.enter
      exact ⟨_, step_ready_ok hr hd hu⟩
  · exact ⟨_, step_not_ready hr⟩

/-! ### The halt check -/

@[simp] theorem State.haltCheck_regs (s : State) : s.haltCheck.regs = s.regs := by
  unfold State.haltCheck; split <;> rfl
@[simp] theorem State.haltCheck_eip (s : State) : s.haltCheck.eip = s.eip := by
  unfold State.haltCheck; split <;> rfl
@[simp] theorem State.haltCheck_eflags (s : State) : s.haltCheck.eflags = s.eflags := by
  unfold State.haltCheck; split <;> rfl
@[simp] theorem State.haltCheck_mem (s : State) : s.haltCheck.mem = s.mem := by
  unfold State.haltCheck; split <;> rfl
@[simp] theorem State.haltCheck_faultKind (s : State) : s.haltCheck.faultKind = s.faultKind := by
  unfold State.haltCheck; split <;> rfl
@[simp] theorem State.haltCheck_bounds (s : State) : s.haltCheck.bounds = s.bounds := by
  unfold State.haltCheck; split <;> rfl

theorem State.haltCheck_running {s : State} (h : s.runState = .running) :
    s.haltCheck = { s with runState := if s.eipInText then .ready else .halted } := by
  unfold State.haltCheck; rw [h]

theorem State.haltCheck_other {s : State} (h : s.runState ≠ .running) : s.haltCheck = s := by
  unfold State.haltCheck; split <;> simp_all

theorem State.eipInText_iff (s : State) :
    s.eipInText = true ↔ s.bounds.textStart ≤ s.eip.toNat ∧ s.eip.toNat < s.bounds.textEnd := by
  simp [State.eipInText]

/-! ### The decode phase -/

/-- What the decode phase reads: the bytes from `eip` to the end of the memory, ten at most. -/
theorem State.fetchDecode_eq {s : State} (h : s.bounds.memStart ≤ s.eip.toNat) :
    s.fetchDecode = match decode (s.mem.readRun s.eip.toNat (min maxLength (s.bounds.memEnd - s.eip.toNat))) with
      | .ok (i, _) => .ok i
      | .error stop => .error (faultOfStop stop) :=
  congrArg (fun bytes => match decode bytes with
    | .ok (i, _) => Except.ok i
    | .error stop => Except.error (faultOfStop stop)) (State.fetchRun_eq _ _ _ h)

/-- Any run of bytes from `eip` inside the memory that decodes gives the instruction the decode phase finds. -/
theorem State.fetchDecode_of_ok {s : State} {n : Nat} {i : Instr} {rest : List Byte}
    (h : s.bounds.memStart ≤ s.eip.toNat) (hn : s.eip.toNat + n ≤ s.bounds.memEnd)
    (hd : decode (s.mem.readRun s.eip.toNat n) = .ok (i, rest)) : s.fetchDecode = .ok i := by
  rw [State.fetchDecode_eq h, maxLength]
  by_cases hk : n ≤ min 10 (s.bounds.memEnd - s.eip.toNat)
  · obtain ⟨m, hm⟩ := Nat.exists_eq_add_of_le hk
    rw [hm, Memory.readRun_add, settles_decode.ok _ _ _ _ hd]
  · obtain ⟨m, hm⟩ := Nat.exists_eq_add_of_le (show 10 ≤ n by omega)
    rw [show min 10 (s.bounds.memEnd - s.eip.toNat) = 10 by omega]
    rw [hm, Memory.readRun_add] at hd
    cases hx : decode (s.mem.readRun s.eip.toNat 10) with
    | ok p =>
      rw [settles_decode.ok _ _ _ _ hx] at hd
      cases hd; rfl
    | error e =>
      by_cases he : e = .outOfBytes
      · subst he; simpa using settles_decode.short _ hx
      · rw [settles_decode.error _ _ _ hx he] at hd; cases hd

/-- Any run of bytes from `eip` inside the memory that the decoder refuses gives the error of the decode phase. -/
theorem State.fetchDecode_of_error {s : State} {n : Nat} {e : DecodeStop}
    (h : s.bounds.memStart ≤ s.eip.toNat) (hn : s.eip.toNat + n ≤ s.bounds.memEnd)
    (hd : decode (s.mem.readRun s.eip.toNat n) = .error e) (he : e ≠ .outOfBytes) : s.fetchDecode = .error (faultOfStop e) := by
  rw [State.fetchDecode_eq h, maxLength]
  by_cases hk : n ≤ min 10 (s.bounds.memEnd - s.eip.toNat)
  · obtain ⟨m, hm⟩ := Nat.exists_eq_add_of_le hk
    rw [hm, Memory.readRun_add, settles_decode.error _ _ _ hd he]
  · obtain ⟨m, hm⟩ := Nat.exists_eq_add_of_le (show 10 ≤ n by omega)
    rw [show min 10 (s.bounds.memEnd - s.eip.toNat) = 10 by omega]
    rw [hm, Memory.readRun_add] at hd
    cases hx : decode (s.mem.readRun s.eip.toNat 10) with
    | ok p => rw [settles_decode.ok _ _ _ _ hx] at hd; cases hd
    | error e' =>
      by_cases he' : e' = .outOfBytes
      · subst he'; exact absurd (settles_decode.short _ hx) (by simp)
      · rw [settles_decode.error _ _ _ hx he'] at hd; cases hd; rfl

/-- When the bytes up to the end of the memory do not settle the decode, the fetch passes the end. -/
theorem State.fetchDecode_of_short {s : State} {n : Nat} (h : s.bounds.memStart ≤ s.eip.toNat)
    (hn : s.eip.toNat + n = s.bounds.memEnd) (hd : decode (s.mem.readRun s.eip.toNat n) = .error .outOfBytes) :
    s.fetchDecode = .error .outOfBounds := by
  have := settles_decode.short _ hd
  rw [Memory.readRun_length] at this
  rw [State.fetchDecode_eq h, maxLength, show min 10 (s.bounds.memEnd - s.eip.toNat) = n by omega, hd]
  rfl

/-- The decode phase raises `OutOfBoundsError` or `DecodeError`. -/
theorem State.fetchDecode_error {s : State} {f : Fault} (h : s.fetchDecode = .error f) : f = .outOfBounds ∨ f = .decode := by
  unfold State.fetchDecode at h
  split at h
  · cases h
  · next stop _ =>
    obtain rfl := Except.error.inj h
    cases stop <;> simp [faultOfStop]

/-! ### Runs -/

theorem core_run_succ (M : Host.Core) (n : Nat) {s t : M.State} (h : M.step s = .next t) :
    M.run (n + 1) s = M.run n t := by
  simp only [Host.Core.run, h]

theorem run_zero (s : State) : Sys2Proof.core.run 0 s = .next s := rfl

theorem run_succ (n : Nat) {s t : State} (h : step s = .next t) :
    Sys2Proof.core.run (n + 1) s = Sys2Proof.core.run n t := core_run_succ Sys2Proof.core n h

theorem State.raise_raise (s : State) (f g : Fault) : (s.raise f).raise g = s.raise f := by
  cases h : s.faultKind <;> simp [State.raise, h]

/-- Once an error is taken no step changes anything (60_exceptions.md R301, R305, R312). -/
theorem run_raise (n : Nat) (s : State) (f : Fault) : Sys2Proof.core.run n (s.raise f) = .next (s.raise f) := by
  induction n with
  | zero => rfl
  | succ n ih => rw [run_succ n (step_not_ready (by simp)), State.raise_raise, ih]

end Sys2Proof.Machine
end

