-- ==== Sys2Proof/Tests/Slice0.lean ====
section
/-! SUPPORT. The model's own tests: ill-formed terms refused, words written out from the spec's encodings decoded, one
step of each instruction with the expected values of spec/95_test_vectors.md or of a rule's worked example, and for each
statement of Certificates/Slice0/Obligations.lean that has hypotheses a witness that meets them. -/

namespace Sys2Proof.Tests

open Sys2Proof Sys2Proof.Machine

/-! ### Helpers -/

/-- The machine of 95_test_vectors.md section 1: `MEM_START` 0, `memSize` 0x100, the text at 0, `entryPoint` 0. -/
def machineWith (text : List Byte) (regs : List (ViewName × Word) := []) (data stack : List Byte := []) : State :=
  hostInitialize 0 { memSize := 0x100, entryPoint := 0, text := text, data := data, stack := stack, regs := regs }
    State.reset

/-- The state of an outcome that is a next state. -/
def stateOf : Host.Outcome State Fault Refusal → State
  | .next s => s
  | .fault _ => State.reset
  | .refused _ => State.reset

/-- The machine after its first step. -/
def after (text : List Byte) (regs : List (ViewName × Word) := []) (data stack : List Byte := []) : State :=
  stateOf (step (machineWith text regs data stack))

/-- `eip` after the first step with each of the nine flag words of the table of 95_test_vectors.md section 3.6. -/
def eipByFlags (text : List Byte) : List Word :=
  [0x000, 0x001, 0x004, 0x040, 0x080, 0x800, 0x880, 0x041, 0x8C0].map fun f => (after text [(.eflags, f)]).eip

/-! ### Well-formedness: the forms 30_encoding.md R103 refuses -/

theorem test_esp_base_is_ill_formed : (Instr.addRmR (.mem .esp) .eax).wellFormed = false := by decide

theorem test_esp_base_disp8_is_ill_formed : (Instr.movRRm .eax (.memDisp8 .esp 4)).wellFormed = false := by decide

theorem test_esp_base_disp32_is_ill_formed : (Instr.movRRm .eax (.memDisp32 .esp 4)).wellFormed = false := by decide

theorem test_ebp_base_is_ill_formed : (Instr.movRRm .eax (.mem .ebp)).wellFormed = false := by decide

theorem test_other_forms_are_well_formed :
    (Instr.movRRm .eax (.memDisp8 .ebp 0)).wellFormed = true ∧ (Instr.movRRm .eax (.memDisp32 .ebp 0)).wellFormed = true ∧
    (Instr.movRmR (.reg .ebp) .esp).wellFormed = true ∧ (Instr.movRmR (.reg .esp) .eax).wellFormed = true ∧
    (Instr.incRm (.mem .edi)).wellFormed = true ∧ Instr.ret.wellFormed = true := by decide

/-! ### Decoding: every row of spec/opcode_table.json, a word written out from its encoding -/

theorem test_decode_add :
    decode [0x01, 0xD8, 0xCC] = .ok (.addRmR (.reg .eax) .ebx, [0xCC]) ∧
    decode [0x03, 0x43, 0x04, 0xCC] = .ok (.addRRm .eax (.memDisp8 .ebx 0x04), [0xCC]) ∧
    decode [0x05, 0x78, 0x56, 0x34, 0x92, 0xCC] = .ok (.addEaxImm32 0x92345678, [0xCC]) ∧
    decode [0x81, 0x03, 0x00, 0xFF, 0x01, 0x02, 0xCC] = .ok (.addRmImm32 (.mem .ebx) 0x0201FF00, [0xCC]) ∧
    decode [0x83, 0x83, 0x10, 0x00, 0x00, 0x80, 0xF0, 0xCC] = .ok (.addRmImm8 (.memDisp32 .ebx 0x80000010) 0xF0, [0xCC]) := by
  decide

theorem test_decode_or :
    decode [0x09, 0xD8, 0xCC] = .ok (.orRmR (.reg .eax) .ebx, [0xCC]) ∧
    decode [0x0B, 0x43, 0x04, 0xCC] = .ok (.orRRm .eax (.memDisp8 .ebx 0x04), [0xCC]) ∧
    decode [0x0D, 0x78, 0x56, 0x34, 0x92, 0xCC] = .ok (.orEaxImm32 0x92345678, [0xCC]) ∧
    decode [0x81, 0x0B, 0x00, 0xFF, 0x01, 0x02, 0xCC] = .ok (.orRmImm32 (.mem .ebx) 0x0201FF00, [0xCC]) ∧
    decode [0x83, 0x8B, 0x10, 0x00, 0x00, 0x80, 0xF0, 0xCC] = .ok (.orRmImm8 (.memDisp32 .ebx 0x80000010) 0xF0, [0xCC]) := by
  decide

theorem test_decode_adc :
    decode [0x11, 0xD8, 0xCC] = .ok (.adcRmR (.reg .eax) .ebx, [0xCC]) ∧
    decode [0x13, 0x43, 0x04, 0xCC] = .ok (.adcRRm .eax (.memDisp8 .ebx 0x04), [0xCC]) ∧
    decode [0x15, 0x78, 0x56, 0x34, 0x92, 0xCC] = .ok (.adcEaxImm32 0x92345678, [0xCC]) ∧
    decode [0x81, 0x13, 0x00, 0xFF, 0x01, 0x02, 0xCC] = .ok (.adcRmImm32 (.mem .ebx) 0x0201FF00, [0xCC]) ∧
    decode [0x83, 0x93, 0x10, 0x00, 0x00, 0x80, 0xF0, 0xCC] = .ok (.adcRmImm8 (.memDisp32 .ebx 0x80000010) 0xF0, [0xCC]) := by
  decide

theorem test_decode_sbb :
    decode [0x19, 0xD8, 0xCC] = .ok (.sbbRmR (.reg .eax) .ebx, [0xCC]) ∧
    decode [0x1B, 0x43, 0x04, 0xCC] = .ok (.sbbRRm .eax (.memDisp8 .ebx 0x04), [0xCC]) ∧
    decode [0x1D, 0x78, 0x56, 0x34, 0x92, 0xCC] = .ok (.sbbEaxImm32 0x92345678, [0xCC]) ∧
    decode [0x81, 0x1B, 0x00, 0xFF, 0x01, 0x02, 0xCC] = .ok (.sbbRmImm32 (.mem .ebx) 0x0201FF00, [0xCC]) ∧
    decode [0x83, 0x9B, 0x10, 0x00, 0x00, 0x80, 0xF0, 0xCC] = .ok (.sbbRmImm8 (.memDisp32 .ebx 0x80000010) 0xF0, [0xCC]) := by
  decide

theorem test_decode_and :
    decode [0x21, 0xD8, 0xCC] = .ok (.andRmR (.reg .eax) .ebx, [0xCC]) ∧
    decode [0x23, 0x43, 0x04, 0xCC] = .ok (.andRRm .eax (.memDisp8 .ebx 0x04), [0xCC]) ∧
    decode [0x25, 0x78, 0x56, 0x34, 0x92, 0xCC] = .ok (.andEaxImm32 0x92345678, [0xCC]) ∧
    decode [0x81, 0x23, 0x00, 0xFF, 0x01, 0x02, 0xCC] = .ok (.andRmImm32 (.mem .ebx) 0x0201FF00, [0xCC]) ∧
    decode [0x83, 0xA3, 0x10, 0x00, 0x00, 0x80, 0xF0, 0xCC] = .ok (.andRmImm8 (.memDisp32 .ebx 0x80000010) 0xF0, [0xCC]) := by
  decide

theorem test_decode_sub :
    decode [0x29, 0xD8, 0xCC] = .ok (.subRmR (.reg .eax) .ebx, [0xCC]) ∧
    decode [0x2B, 0x43, 0x04, 0xCC] = .ok (.subRRm .eax (.memDisp8 .ebx 0x04), [0xCC]) ∧
    decode [0x2D, 0x78, 0x56, 0x34, 0x92, 0xCC] = .ok (.subEaxImm32 0x92345678, [0xCC]) ∧
    decode [0x81, 0x2B, 0x00, 0xFF, 0x01, 0x02, 0xCC] = .ok (.subRmImm32 (.mem .ebx) 0x0201FF00, [0xCC]) ∧
    decode [0x83, 0xAB, 0x10, 0x00, 0x00, 0x80, 0xF0, 0xCC] = .ok (.subRmImm8 (.memDisp32 .ebx 0x80000010) 0xF0, [0xCC]) := by
  decide

theorem test_decode_xor :
    decode [0x31, 0xD8, 0xCC] = .ok (.xorRmR (.reg .eax) .ebx, [0xCC]) ∧
    decode [0x33, 0x43, 0x04, 0xCC] = .ok (.xorRRm .eax (.memDisp8 .ebx 0x04), [0xCC]) ∧
    decode [0x35, 0x78, 0x56, 0x34, 0x92, 0xCC] = .ok (.xorEaxImm32 0x92345678, [0xCC]) ∧
    decode [0x81, 0x33, 0x00, 0xFF, 0x01, 0x02, 0xCC] = .ok (.xorRmImm32 (.mem .ebx) 0x0201FF00, [0xCC]) ∧
    decode [0x83, 0xB3, 0x10, 0x00, 0x00, 0x80, 0xF0, 0xCC] = .ok (.xorRmImm8 (.memDisp32 .ebx 0x80000010) 0xF0, [0xCC]) := by
  decide

theorem test_decode_cmp :
    decode [0x39, 0xD8, 0xCC] = .ok (.cmpRmR (.reg .eax) .ebx, [0xCC]) ∧
    decode [0x3B, 0x43, 0x04, 0xCC] = .ok (.cmpRRm .eax (.memDisp8 .ebx 0x04), [0xCC]) ∧
    decode [0x3D, 0x78, 0x56, 0x34, 0x92, 0xCC] = .ok (.cmpEaxImm32 0x92345678, [0xCC]) ∧
    decode [0x81, 0x3B, 0x00, 0xFF, 0x01, 0x02, 0xCC] = .ok (.cmpRmImm32 (.mem .ebx) 0x0201FF00, [0xCC]) ∧
    decode [0x83, 0xBB, 0x10, 0x00, 0x00, 0x80, 0xF0, 0xCC] = .ok (.cmpRmImm8 (.memDisp32 .ebx 0x80000010) 0xF0, [0xCC]) := by
  decide

theorem test_decode_test :
    decode [0x85, 0x4E, 0xFC, 0xCC] = .ok (.testRmR (.memDisp8 .esi 0xFC) .ecx, [0xCC]) ∧
    decode [0xA9, 0xFF, 0x00, 0x00, 0x00, 0xCC] = .ok (.testEaxImm32 0xFF, [0xCC]) ∧
    decode [0xF7, 0x83, 0x50, 0x00, 0x00, 0x00, 0x01, 0x00, 0x00, 0x00, 0xCC] = .ok (.testRmImm32 (.memDisp32 .ebx 0x50) 1, [0xCC]) := by
  decide

theorem test_decode_inc :
    decode [0x44, 0xCC] = .ok (.incR .esp, [0xCC]) ∧
    decode [0x47, 0xCC] = .ok (.incR .edi, [0xCC]) ∧
    decode [0xFF, 0x00, 0xCC] = .ok (.incRm (.mem .eax), [0xCC]) := by
  decide

theorem test_decode_dec :
    decode [0x48, 0xCC] = .ok (.decR .eax, [0xCC]) ∧
    decode [0x4F, 0xCC] = .ok (.decR .edi, [0xCC]) ∧
    decode [0xFF, 0x4D, 0x00, 0xCC] = .ok (.decRm (.memDisp8 .ebp 0), [0xCC]) := by
  decide

theorem test_decode_not_neg :
    decode [0xF7, 0x13, 0xCC] = .ok (.notRm (.mem .ebx), [0xCC]) ∧
    decode [0xF7, 0xD8, 0xCC] = .ok (.negRm (.reg .eax), [0xCC]) := by
  decide

theorem test_decode_shl :
    decode [0xD1, 0x22, 0xCC] = .ok (.shlRm1 (.mem .edx), [0xCC]) ∧
    decode [0xC1, 0xE1, 0x1F, 0xCC] = .ok (.shlRmImm8 (.reg .ecx) 0x1F, [0xCC]) ∧
    decode [0xD3, 0x67, 0x80, 0xCC] = .ok (.shlRmCl (.memDisp8 .edi 0x80), [0xCC]) := by
  decide

theorem test_decode_shr :
    decode [0xD1, 0x2A, 0xCC] = .ok (.shrRm1 (.mem .edx), [0xCC]) ∧
    decode [0xC1, 0xE9, 0x1F, 0xCC] = .ok (.shrRmImm8 (.reg .ecx) 0x1F, [0xCC]) ∧
    decode [0xD3, 0x6F, 0x80, 0xCC] = .ok (.shrRmCl (.memDisp8 .edi 0x80), [0xCC]) := by
  decide

theorem test_decode_sar :
    decode [0xD1, 0x3A, 0xCC] = .ok (.sarRm1 (.mem .edx), [0xCC]) ∧
    decode [0xC1, 0xF9, 0x1F, 0xCC] = .ok (.sarRmImm8 (.reg .ecx) 0x1F, [0xCC]) ∧
    decode [0xD3, 0x7F, 0x80, 0xCC] = .ok (.sarRmCl (.memDisp8 .edi 0x80), [0xCC]) := by
  decide

theorem test_decode_mov :
    decode [0x89, 0xE5, 0xCC] = .ok (.movRmR (.reg .ebp) .esp, [0xCC]) ∧
    decode [0x8B, 0x83, 0x80, 0x00, 0x00, 0x00, 0xCC] = .ok (.movRRm .eax (.memDisp32 .ebx 0x80), [0xCC]) ∧
    decode [0xB8, 0x44, 0x33, 0x22, 0x11, 0xCC] = .ok (.movRImm32 .eax 0x11223344, [0xCC]) ∧
    decode [0xBF, 0x01, 0x00, 0x00, 0x00, 0xCC] = .ok (.movRImm32 .edi 1, [0xCC]) ∧
    decode [0xC7, 0x83, 0x10, 0x00, 0x00, 0x00, 0x01, 0x00, 0x00, 0x00, 0xCC] = .ok (.movRmImm32 (.memDisp32 .ebx 0x10) 1, [0xCC]) := by
  decide

theorem test_decode_nop_push_pop :
    decode [0x90, 0xCC] = .ok (.nop, [0xCC]) ∧
    decode [0x50, 0xCC] = .ok (.pushR .eax, [0xCC]) ∧
    decode [0x57, 0xCC] = .ok (.pushR .edi, [0xCC]) ∧
    decode [0x68, 0x80, 0x00, 0x00, 0x00, 0xCC] = .ok (.pushImm32 0x80, [0xCC]) ∧
    decode [0x6A, 0xFF, 0xCC] = .ok (.pushImm8 0xFF, [0xCC]) ∧
    decode [0x58, 0xCC] = .ok (.popR .eax, [0xCC]) ∧
    decode [0x5C, 0xCC] = .ok (.popR .esp, [0xCC]) := by
  decide

theorem test_decode_jmp_call_ret_hlt :
    decode [0xEB, 0xFE, 0xCC] = .ok (.jmpRel8 0xFE, [0xCC]) ∧
    decode [0xE9, 0xFB, 0xFF, 0xFF, 0xFF, 0xCC] = .ok (.jmpRel32 0xFFFFFFFB, [0xCC]) ∧
    decode [0xE8, 0x04, 0x00, 0x00, 0x00, 0xCC] = .ok (.callRel32 4, [0xCC]) ∧
    decode [0xC3, 0xCC] = .ok (.ret, [0xCC]) ∧
    decode [0xF4, 0xCC] = .ok (.hlt, [0xCC]) := by
  decide

theorem test_decode_jcc_short_low :
    decode [0x70, 0x02, 0xCC] = .ok (.joRel8 2, [0xCC]) ∧
    decode [0x71, 0x02, 0xCC] = .ok (.jnoRel8 2, [0xCC]) ∧
    decode [0x72, 0x02, 0xCC] = .ok (.jbRel8 2, [0xCC]) ∧
    decode [0x73, 0x02, 0xCC] = .ok (.jaeRel8 2, [0xCC]) ∧
    decode [0x74, 0x02, 0xCC] = .ok (.jeRel8 2, [0xCC]) ∧
    decode [0x75, 0x02, 0xCC] = .ok (.jneRel8 2, [0xCC]) ∧
    decode [0x76, 0x02, 0xCC] = .ok (.jbeRel8 2, [0xCC]) ∧
    decode [0x77, 0x02, 0xCC] = .ok (.jaRel8 2, [0xCC]) := by
  decide

theorem test_decode_jcc_near_low :
    decode [0x0F, 0x80, 0x01, 0x00, 0x00, 0x80, 0xCC] = .ok (.joRel32 0x80000001, [0xCC]) ∧
    decode [0x0F, 0x81, 0x01, 0x00, 0x00, 0x80, 0xCC] = .ok (.jnoRel32 0x80000001, [0xCC]) ∧
    decode [0x0F, 0x82, 0x01, 0x00, 0x00, 0x80, 0xCC] = .ok (.jbRel32 0x80000001, [0xCC]) ∧
    decode [0x0F, 0x83, 0x01, 0x00, 0x00, 0x80, 0xCC] = .ok (.jaeRel32 0x80000001, [0xCC]) ∧
    decode [0x0F, 0x84, 0x01, 0x00, 0x00, 0x80, 0xCC] = .ok (.jeRel32 0x80000001, [0xCC]) ∧
    decode [0x0F, 0x85, 0x01, 0x00, 0x00, 0x80, 0xCC] = .ok (.jneRel32 0x80000001, [0xCC]) ∧
    decode [0x0F, 0x86, 0x01, 0x00, 0x00, 0x80, 0xCC] = .ok (.jbeRel32 0x80000001, [0xCC]) ∧
    decode [0x0F, 0x87, 0x01, 0x00, 0x00, 0x80, 0xCC] = .ok (.jaRel32 0x80000001, [0xCC]) := by
  decide

theorem test_decode_jcc_short_high :
    decode [0x78, 0x02, 0xCC] = .ok (.jsRel8 2, [0xCC]) ∧
    decode [0x79, 0x02, 0xCC] = .ok (.jnsRel8 2, [0xCC]) ∧
    decode [0x7A, 0x02, 0xCC] = .ok (.jpRel8 2, [0xCC]) ∧
    decode [0x7B, 0x02, 0xCC] = .ok (.jnpRel8 2, [0xCC]) ∧
    decode [0x7C, 0x02, 0xCC] = .ok (.jlRel8 2, [0xCC]) ∧
    decode [0x7D, 0x02, 0xCC] = .ok (.jgeRel8 2, [0xCC]) ∧
    decode [0x7E, 0x02, 0xCC] = .ok (.jleRel8 2, [0xCC]) ∧
    decode [0x7F, 0x02, 0xCC] = .ok (.jgRel8 2, [0xCC]) := by
  decide

theorem test_decode_jcc_near_high :
    decode [0x0F, 0x88, 0x01, 0x00, 0x00, 0x80, 0xCC] = .ok (.jsRel32 0x80000001, [0xCC]) ∧
    decode [0x0F, 0x89, 0x01, 0x00, 0x00, 0x80, 0xCC] = .ok (.jnsRel32 0x80000001, [0xCC]) ∧
    decode [0x0F, 0x8A, 0x01, 0x00, 0x00, 0x80, 0xCC] = .ok (.jpRel32 0x80000001, [0xCC]) ∧
    decode [0x0F, 0x8B, 0x01, 0x00, 0x00, 0x80, 0xCC] = .ok (.jnpRel32 0x80000001, [0xCC]) ∧
    decode [0x0F, 0x8C, 0x01, 0x00, 0x00, 0x80, 0xCC] = .ok (.jlRel32 0x80000001, [0xCC]) ∧
    decode [0x0F, 0x8D, 0x01, 0x00, 0x00, 0x80, 0xCC] = .ok (.jgeRel32 0x80000001, [0xCC]) ∧
    decode [0x0F, 0x8E, 0x01, 0x00, 0x00, 0x80, 0xCC] = .ok (.jleRel32 0x80000001, [0xCC]) ∧
    decode [0x0F, 0x8F, 0x01, 0x00, 0x00, 0x80, 0xCC] = .ok (.jgRel32 0x80000001, [0xCC]) := by
  decide

/-- Refusals of 95_test_vectors.md section 3.7, each settled before the bytes that are missing. -/
theorem test_decode_refuses_opcodes :
    decode [0x00] = .error .firstByte ∧ decode [0x66, 0x01, 0xD8] = .error .firstByte ∧
    decode [0x93] = .error .firstByte ∧ decode [0xC2, 0x04, 0x00] = .error .firstByte ∧
    decode [0x0F, 0xAF, 0xC3] = .error .secondByte ∧ decode [0x0F, 0x90, 0x00] = .error .secondByte := by
  decide

/-- The same for group digits. -/
theorem test_decode_refuses_digits :
    decode [0xC1, 0xC0] = .error .digit ∧ decode [0xD3, 0xF0] = .error .digit ∧ decode [0xF7, 0xC8] = .error .digit ∧
    decode [0xFF, 0x30] = .error .digit ∧ decode [0xC7, 0xC8] = .error .digit := by
  decide

/-- The same for ModRM forms, and lists of bytes that end before the decode settles. -/
theorem test_decode_refuses_forms :
    decode [0x81, 0x04] = .error .modRM ∧ decode [0x8B, 0x44] = .error .modRM ∧ decode [0x8B, 0x84] = .error .modRM ∧
    decode [0x8B, 0x05] = .error .modRM ∧
    decode [0x0F] = .error .outOfBytes ∧ decode [0x81, 0xC0, 0x00] = .error .outOfBytes := by
  decide

/-- Table numbering: the first byte in bits 7..0, operand bytes above `nbits` zero. -/
theorem test_decodeTableWord :
    decodeTableWord 16 0xD801 = some (.addRmR (.reg .eax) .ebx) ∧
    decodeTableWord 8 0xB8 = some (.movRImm32 .eax 0) ∧
    decodeTableWord 16 0x840F = some (.jeRel32 0) ∧ decodeTableWord 8 0x66 = none := by
  decide

/-- A word placed by `withFetchWord` runs as the first instruction after reset. -/
theorem test_withFetchWord :
    (stateOf (step (State.reset.withFetchWord 16 0x05C7))).faultKind = some .decode ∧
    (stateOf (step (State.reset.withFetchWord 40 0x1234567805))).reg .eax = 0x12345678 ∧
    (stateOf (step (State.reset.withFetchWord 40 0x1234567805))).runState = .ready := by
  decide

/-! ### One step of each instruction -/

/-- Vector A3. -/
theorem test_add_overflow :
    let t := after [0x01, 0xD8] [(.eax, 0x7FFFFFFF), (.ebx, 1)]
    t.reg .eax = 0x80000000 ∧ t.eflags = 0x894 ∧ t.eip = 2 := by
  decide

/-- Vector A31. -/
theorem test_add_memory_destination :
    let t := after [0x01, 0x03] [(.eax, 1), (.ebx, 0x0A)] [0x01, 0x00, 0x00, 0x00, 0x02, 0x00, 0x00, 0x00, 0xFF, 0xFF, 0xFF, 0xFF]
    t.mem.readRun 0x0A 4 = [0x00, 0x00, 0x00, 0x00] ∧ t.eflags = 0x55 ∧ t.reg .ebx = 0x0A := by
  decide

/-- Vector A8. -/
theorem test_adc_carry_out :
    let t := after [0x11, 0xD8] [(.eax, 0xFFFFFFFF), (.ebx, 0xFFFFFFFF), (.eflags, 1)]
    t.reg .eax = 0xFFFFFFFF ∧ t.eflags = 0x95 := by
  decide

/-- Vector A9. -/
theorem test_adc_overflow_by_carry :
    let t := after [0x11, 0xD8] [(.eax, 0x7FFFFFFF), (.ebx, 0), (.eflags, 1)]
    t.reg .eax = 0x80000000 ∧ t.eflags = 0x894 := by
  decide

/-- Vector A11. -/
theorem test_sub_borrow :
    let t := after [0x29, 0xD8] [(.eax, 3), (.ebx, 5)]
    t.reg .eax = 0xFFFFFFFE ∧ t.eflags = 0x91 := by
  decide

/-- Vector A12. -/
theorem test_sub_overflow :
    let t := after [0x29, 0xD8] [(.eax, 0x80000000), (.ebx, 1)]
    t.reg .eax = 0x7FFFFFFF ∧ t.eflags = 0x814 := by
  decide

/-- Vector A15. -/
theorem test_sbb_wraps_to_zero :
    let t := after [0x19, 0xD8] [(.eax, 0), (.ebx, 0xFFFFFFFF), (.eflags, 1)]
    t.reg .eax = 0 ∧ t.eflags = 0x55 := by
  decide

/-- Vector A16. -/
theorem test_sbb_overflow_by_borrow :
    let t := after [0x19, 0xD8] [(.eax, 0x80000000), (.ebx, 0), (.eflags, 1)]
    t.reg .eax = 0x7FFFFFFF ∧ t.eflags = 0x814 := by
  decide

/-- Vector A18. -/
theorem test_cmp_signed :
    let t := after [0x39, 0xD8] [(.eax, 0x7FFFFFFF), (.ebx, 0xFFFFFFFF)]
    t.reg .eax = 0x7FFFFFFF ∧ t.eflags = 0x885 := by
  decide

/-- Vector A32. -/
theorem test_cmp_memory :
    let t := after [0x39, 0x03] [(.eax, 1), (.ebx, 2)] [0x01, 0x00, 0x00, 0x00, 0x02, 0x00, 0x00, 0x00, 0xFF, 0xFF, 0xFF, 0xFF]
    t.mem.readRun 2 4 = [0x01, 0x00, 0x00, 0x00] ∧ t.eflags = 0x44 := by
  decide

/-- Vector A27. -/
theorem test_and_sign_extends :
    let t := after [0x83, 0xE0, 0xF0] [(.eax, 0x1234567F)]
    t.reg .eax = 0x12345670 ∧ t.eip = 3 := by
  decide

/-- Vector A26. -/
theorem test_or_imm32 :
    let t := after [0x81, 0xCB, 0x00, 0xFF, 0x00, 0x00] [(.ebx, 0xFF)]
    t.reg .ebx = 0xFFFF ∧ t.eip = 6 := by
  decide

/-- Vector A28. -/
theorem test_xor_sign_extends :
    let t := after [0x83, 0xF0, 0xFF] [(.eax, 0x0000FFFF)]
    t.reg .eax = 0xFFFF0000 ∧ t.eip = 3 := by
  decide

/-- Vector A20: the flags, `AF` free. -/
theorem test_and_flags :
    (after [0x21, 0xD8] [(.eax, 0xF0F0F0F0), (.ebx, 0x0F0F0F0F), (.eflags, 0x801)]).eflags =
      0x44 ||| (if Config.archUndef .and .af 0xF0F0F0F0 0x0F0F0F0F then 0x10 else 0) := by
  have h : (after [0x21, 0xD8] [(.eax, 0xF0F0F0F0), (.ebx, 0x0F0F0F0F), (.eflags, 0x801)]).eflags =
      (allFlags 0 false false
        (Config.archUndef .and .af 0xF0F0F0F0 0x0F0F0F0F)).apply 0x801 := by rfl
  rw [h]
  generalize Config.archUndef .and .af 0xF0F0F0F0 0x0F0F0F0F = u
  revert u
  decide

/-- Vector A21: the flags, `AF` free. -/
theorem test_or_flags :
    (after [0x09, 0xD8] [(.eax, 0x80000000), (.ebx, 1), (.eflags, 0x801)]).eflags =
      0x80 ||| (if Config.archUndef .or .af 0x80000000 1 then 0x10 else 0) := by
  have h : (after [0x09, 0xD8] [(.eax, 0x80000000), (.ebx, 1), (.eflags, 0x801)]).eflags =
      (allFlags 0x80000001 false false
        (Config.archUndef .or .af 0x80000000 1)).apply 0x801 := by rfl
  rw [h]
  generalize Config.archUndef .or .af 0x80000000 1 = u
  revert u
  decide

/-- Vector A22: the flags, `AF` free. -/
theorem test_xor_flags :
    (after [0x31, 0xC0] [(.eax, 0xDEADBEEF), (.eflags, 0x881)]).eflags =
      0x44 ||| (if Config.archUndef .xor .af 0xDEADBEEF 0xDEADBEEF then 0x10 else 0) := by
  have h : (after [0x31, 0xC0] [(.eax, 0xDEADBEEF), (.eflags, 0x881)]).eflags =
      (allFlags 0 false false
        (Config.archUndef .xor .af 0xDEADBEEF 0xDEADBEEF)).apply 0x881 := by rfl
  rw [h]
  generalize Config.archUndef .xor .af 0xDEADBEEF 0xDEADBEEF = u
  revert u
  decide

/-- Vector A23: the flags, `AF` free. -/
theorem test_test_flags :
    (after [0x85, 0xC0] [(.eax, 0x80000000)]).eflags =
      0x84 ||| (if Config.archUndef .test .af 0x80000000 0x80000000 then 0x10 else 0) := by
  have h : (after [0x85, 0xC0] [(.eax, 0x80000000)]).eflags =
      (allFlags 0x80000000 false false
        (Config.archUndef .test .af 0x80000000 0x80000000)).apply 0 := by rfl
  rw [h]
  generalize Config.archUndef .test .af 0x80000000 0x80000000 = u
  revert u
  decide

/-- Vector A25. -/
theorem test_test_imm32 :
    let t := after [0xF7, 0xC3, 0x01, 0x00, 0x00, 0x00] [(.ebx, 3)]
    t.reg .ebx = 3 ∧ t.eip = 6 ∧ t.mem.readRun 0 2 = [0xF7, 0xC3] := by
  decide

/-- Vector U1. -/
theorem test_inc_keeps_carry :
    let t := after [0x40] [(.eax, 0xFFFFFFFF), (.eflags, 1)]
    t.reg .eax = 0 ∧ t.eflags = 0x55 := by
  decide

/-- Vector U17. -/
theorem test_inc_esp :
    let t := after [0x44]
    t.reg .esp = 0x101 ∧ t.eip = 1 ∧ t.eflags = 0 := by
  decide

/-- Vector of `DEC` at the most negative number (42_unary_shift.md R202). -/
theorem test_dec_keeps_carry :
    let t := after [0x48] [(.eax, 0x80000000), (.eflags, 1)]
    t.reg .eax = 0x7FFFFFFF ∧ t.eflags = 0x815 := by
  decide

/-- Vector U13. -/
theorem test_neg_most_negative :
    let t := after [0xF7, 0xD8] [(.eax, 0x80000000)]
    t.reg .eax = 0x80000000 ∧ t.eflags = 0x885 := by
  decide

/-- Vector U12. -/
theorem test_neg_zero :
    let t := after [0xF7, 0xD8] [(.eax, 0), (.eflags, 1)]
    t.reg .eax = 0 ∧ t.eflags = 0x44 := by
  decide

/-- Vector U15. -/
theorem test_not_keeps_flags :
    let t := after [0xF7, 0xD0] [(.eax, 0x0F0F0F0F), (.eflags, 0x8D5)]
    t.reg .eax = 0xF0F0F0F0 ∧ t.eflags = 0x8D5 := by
  decide

/-- Vector U16. -/
theorem test_not_memory :
    let t := after [0xF7, 0x13] [(.ebx, 0x80)]
    t.mem.readRun 0x80 4 = [0xFF, 0xFF, 0xFF, 0xFF] ∧ t.reg .ebx = 0x80 := by
  decide

/-- Vector H6. -/
theorem test_shl_count_zero :
    let t := after [0xC1, 0xE0, 0x20] [(.eax, 0x12345678), (.eflags, 0x8D5)]
    t.reg .eax = 0x12345678 ∧ t.eflags = 0x8D5 ∧ t.eip = 3 := by
  decide

/-- Vector H4: the flags, `AF` and `OF` free. -/
theorem test_shl_by_four :
    (after [0xC1, 0xE0, 0x04] [(.eax, 0x12345678)]).eflags =
      0x01 ||| (if Config.archUndef .shl .af 0x12345678 4 then 0x10 else 0) |||
      (if Config.archUndef .shl .of 0x12345678 4 then 0x800 else 0) := by
  have h : (after [0xC1, 0xE0, 0x04] [(.eax, 0x12345678)]).eflags =
      (allFlags 0x23456780 true (Config.archUndef .shl .of 0x12345678 4)
        (Config.archUndef .shl .af 0x12345678 4)).apply 0 := by rfl
  rw [h]
  generalize Config.archUndef .shl .af 0x12345678 4 = u
  generalize Config.archUndef .shl .of 0x12345678 4 = o
  revert u o
  decide

/-- Vector H11. -/
theorem test_shr_by_cl :
    let t := after [0xD3, 0xE8] [(.eax, 0xFFFFFFFF), (.ecx, 0x21)]
    t.reg .eax = 0x7FFFFFFF ∧ t.reg .ecx = 0x21 ∧ t.eip = 2 := by
  decide

/-- Vector H9: the flags, `AF` free. -/
theorem test_shr_flags :
    (after [0xD1, 0xE8] [(.eax, 0x80000001)]).eflags =
      0x805 ||| (if Config.archUndef .shr .af 0x80000001 1 then 0x10 else 0) := by
  have h : (after [0xD1, 0xE8] [(.eax, 0x80000001)]).eflags =
      (allFlags 0x40000000 true true
        (Config.archUndef .shr .af 0x80000001 1)).apply 0 := by rfl
  rw [h]
  generalize Config.archUndef .shr .af 0x80000001 1 = u
  revert u
  decide

/-- Vector H14. -/
theorem test_sar_keeps_sign :
    let t := after [0xC1, 0xF8, 0x1F] [(.eax, 0x80000000)]
    t.reg .eax = 0xFFFFFFFF ∧ t.eip = 3 := by
  decide

/-- Vector H13: the flags, `AF` free. -/
theorem test_sar_flags :
    (after [0xD1, 0xF8] [(.eax, 0x80000001)]).eflags =
      0x85 ||| (if Config.archUndef .sar .af 0x80000001 1 then 0x10 else 0) := by
  have h : (after [0xD1, 0xF8] [(.eax, 0x80000001)]).eflags =
      (allFlags 0xC0000000 true false
        (Config.archUndef .sar .af 0x80000001 1)).apply 0 := by rfl
  rw [h]
  generalize Config.archUndef .sar .af 0x80000001 1 = u
  revert u
  decide

/-- Vector M7. -/
theorem test_mov_load_wraps_address :
    let t := after [0x8B, 0x83, 0x80, 0x00, 0x00, 0x00] [(.ebx, 0xFFFFFF86)] [0xEF, 0xBE, 0xAD, 0xDE]
    t.reg .eax = 0xDEADBEEF ∧ t.eip = 6 := by
  decide

/-- Vector M5. -/
theorem test_mov_store :
    let t := after [0x89, 0x43, 0x04] [(.ebx, 0x40), (.eax, 0x11223344)]
    t.mem.readRun 0x44 4 = [0x44, 0x33, 0x22, 0x11] ∧ t.reg .eax = 0x11223344 ∧ t.eflags = 0 := by
  decide

/-- Vector M17. -/
theorem test_nop :
    let t := after [0x90] [(.eflags, 0x8D5)]
    t.eip = 1 ∧ t.eflags = 0x8D5 ∧ t.regs = (machineWith [0x90]).regs := by
  decide

/-- Vector K4. -/
theorem test_push_esp :
    let t := after [0x54]
    t.reg .esp = 0xFC ∧ t.mem.readRun 0xFC 4 = [0x00, 0x01, 0x00, 0x00] := by
  decide

/-- Vector K8. -/
theorem test_push_fault_keeps_esp :
    let t := after [0x50] [(.esp, 2), (.eax, 1)]
    t.reg .esp = 0xFFFFFFFE ∧ t.eip = 0 ∧ t.faultKind = some .outOfBounds := by
  decide

/-- Vector K6. -/
theorem test_pop_esp :
    let t := after [0x5C] [] [] [0x40, 0x00, 0x00, 0x00]
    t.reg .esp = 0x40 ∧ t.eip = 1 := by
  decide

/-- Vector K7. -/
theorem test_pop_empty_stack :
    let t := after [0x58] [(.eax, 5)]
    t.reg .eax = 5 ∧ t.reg .esp = 0x100 ∧ t.faultKind = some .outOfBounds := by
  decide

/-- Vector J6. -/
theorem test_jmp_backward_out :
    let t := after [0xEB, 0x80]
    t.eip = 0xFFFFFF82 ∧ t.runState = .halted ∧ t.faultKind = none := by
  decide

/-- Vector J3. -/
theorem test_jmp_self :
    let t := after [0xE9, 0xFB, 0xFF, 0xFF, 0xFF]
    t.eip = 0 ∧ t.runState = .ready := by
  decide

/-- Vector J11. -/
theorem test_call :
    let t := after [0xE8, 0x01, 0x00, 0x00, 0x00, 0x90, 0xC3]
    t.reg .esp = 0xFC ∧ t.mem.readRun 0xFC 4 = [0x05, 0x00, 0x00, 0x00] ∧ t.eip = 6 ∧ t.runState = .ready := by
  decide

/-- Vector J14. -/
theorem test_call_fault :
    let t := after [0xE8, 0x00, 0x00, 0x00, 0x00] [(.esp, 3)]
    t.reg .esp = 0xFFFFFFFF ∧ t.eip = 0 ∧ t.faultKind = some .outOfBounds := by
  decide

/-- Vector J12. -/
theorem test_ret :
    let t := after [0xC3] [] [] [0x00, 0x01, 0x00, 0x00]
    t.reg .esp = 0x100 ∧ t.eip = 0x100 ∧ t.runState = .halted := by
  decide

/-- Vector J15. -/
theorem test_hlt :
    let t := after [0xF4, 0x90]
    t.eip = 1 ∧ t.runState = .halted ∧ t.faultKind = none := by
  decide

/-! The rows of the table of conditional jumps (95_test_vectors.md section 3.6), short and near form. -/

theorem test_jo :
    eipByFlags [0x70, 2, 0x90, 0x90, 0x90, 0x90] = [2, 2, 2, 2, 2, 4, 4, 2, 4] ∧
    eipByFlags [0x0F, 0x80, 2, 0, 0, 0, 0x90, 0x90, 0x90, 0x90] = [6, 6, 6, 6, 6, 8, 8, 6, 8] := by
  decide

theorem test_jno :
    eipByFlags [0x71, 2, 0x90, 0x90, 0x90, 0x90] = [4, 4, 4, 4, 4, 2, 2, 4, 2] ∧
    eipByFlags [0x0F, 0x81, 2, 0, 0, 0, 0x90, 0x90, 0x90, 0x90] = [8, 8, 8, 8, 8, 6, 6, 8, 6] := by
  decide

theorem test_jb :
    eipByFlags [0x72, 2, 0x90, 0x90, 0x90, 0x90] = [2, 4, 2, 2, 2, 2, 2, 4, 2] ∧
    eipByFlags [0x0F, 0x82, 2, 0, 0, 0, 0x90, 0x90, 0x90, 0x90] = [6, 8, 6, 6, 6, 6, 6, 8, 6] := by
  decide

theorem test_jae :
    eipByFlags [0x73, 2, 0x90, 0x90, 0x90, 0x90] = [4, 2, 4, 4, 4, 4, 4, 2, 4] ∧
    eipByFlags [0x0F, 0x83, 2, 0, 0, 0, 0x90, 0x90, 0x90, 0x90] = [8, 6, 8, 8, 8, 8, 8, 6, 8] := by
  decide

theorem test_je :
    eipByFlags [0x74, 2, 0x90, 0x90, 0x90, 0x90] = [2, 2, 2, 4, 2, 2, 2, 4, 4] ∧
    eipByFlags [0x0F, 0x84, 2, 0, 0, 0, 0x90, 0x90, 0x90, 0x90] = [6, 6, 6, 8, 6, 6, 6, 8, 8] := by
  decide

theorem test_jne :
    eipByFlags [0x75, 2, 0x90, 0x90, 0x90, 0x90] = [4, 4, 4, 2, 4, 4, 4, 2, 2] ∧
    eipByFlags [0x0F, 0x85, 2, 0, 0, 0, 0x90, 0x90, 0x90, 0x90] = [8, 8, 8, 6, 8, 8, 8, 6, 6] := by
  decide

theorem test_jbe :
    eipByFlags [0x76, 2, 0x90, 0x90, 0x90, 0x90] = [2, 4, 2, 4, 2, 2, 2, 4, 4] ∧
    eipByFlags [0x0F, 0x86, 2, 0, 0, 0, 0x90, 0x90, 0x90, 0x90] = [6, 8, 6, 8, 6, 6, 6, 8, 8] := by
  decide

theorem test_ja :
    eipByFlags [0x77, 2, 0x90, 0x90, 0x90, 0x90] = [4, 2, 4, 2, 4, 4, 4, 2, 2] ∧
    eipByFlags [0x0F, 0x87, 2, 0, 0, 0, 0x90, 0x90, 0x90, 0x90] = [8, 6, 8, 6, 8, 8, 8, 6, 6] := by
  decide

theorem test_js :
    eipByFlags [0x78, 2, 0x90, 0x90, 0x90, 0x90] = [2, 2, 2, 2, 4, 2, 4, 2, 4] ∧
    eipByFlags [0x0F, 0x88, 2, 0, 0, 0, 0x90, 0x90, 0x90, 0x90] = [6, 6, 6, 6, 8, 6, 8, 6, 8] := by
  decide

theorem test_jns :
    eipByFlags [0x79, 2, 0x90, 0x90, 0x90, 0x90] = [4, 4, 4, 4, 2, 4, 2, 4, 2] ∧
    eipByFlags [0x0F, 0x89, 2, 0, 0, 0, 0x90, 0x90, 0x90, 0x90] = [8, 8, 8, 8, 6, 8, 6, 8, 6] := by
  decide

theorem test_jp :
    eipByFlags [0x7A, 2, 0x90, 0x90, 0x90, 0x90] = [2, 2, 4, 2, 2, 2, 2, 2, 2] ∧
    eipByFlags [0x0F, 0x8A, 2, 0, 0, 0, 0x90, 0x90, 0x90, 0x90] = [6, 6, 8, 6, 6, 6, 6, 6, 6] := by
  decide

theorem test_jnp :
    eipByFlags [0x7B, 2, 0x90, 0x90, 0x90, 0x90] = [4, 4, 2, 4, 4, 4, 4, 4, 4] ∧
    eipByFlags [0x0F, 0x8B, 2, 0, 0, 0, 0x90, 0x90, 0x90, 0x90] = [8, 8, 6, 8, 8, 8, 8, 8, 8] := by
  decide

theorem test_jl :
    eipByFlags [0x7C, 2, 0x90, 0x90, 0x90, 0x90] = [2, 2, 2, 2, 4, 4, 2, 2, 2] ∧
    eipByFlags [0x0F, 0x8C, 2, 0, 0, 0, 0x90, 0x90, 0x90, 0x90] = [6, 6, 6, 6, 8, 8, 6, 6, 6] := by
  decide

theorem test_jge :
    eipByFlags [0x7D, 2, 0x90, 0x90, 0x90, 0x90] = [4, 4, 4, 4, 2, 2, 4, 4, 4] ∧
    eipByFlags [0x0F, 0x8D, 2, 0, 0, 0, 0x90, 0x90, 0x90, 0x90] = [8, 8, 8, 8, 6, 6, 8, 8, 8] := by
  decide

theorem test_jle :
    eipByFlags [0x7E, 2, 0x90, 0x90, 0x90, 0x90] = [2, 2, 2, 4, 4, 4, 2, 4, 4] ∧
    eipByFlags [0x0F, 0x8E, 2, 0, 0, 0, 0x90, 0x90, 0x90, 0x90] = [6, 6, 6, 8, 8, 8, 6, 8, 8] := by
  decide

theorem test_jg :
    eipByFlags [0x7F, 2, 0x90, 0x90, 0x90, 0x90] = [4, 4, 4, 2, 2, 2, 4, 2, 2] ∧
    eipByFlags [0x0F, 0x8F, 2, 0, 0, 0, 0x90, 0x90, 0x90, 0x90] = [8, 8, 8, 6, 6, 6, 8, 6, 6] := by
  decide

/-! ### `Initialize`, the fetch, the run state and the host's ports -/

/-- `Initialize` with sections of given lengths. -/
def laidOut (base memSize textLen dataLen bss stackLen : Nat) : State :=
  hostInitialize base
    { memSize := memSize, entryPoint := 0, text := List.replicate textLen 0x90
      data := List.replicate dataLen 1, bss := bss, stack := List.replicate stackLen 2 } State.reset

/-- Vectors Y1 and Y2 (95_test_vectors.md section 3.8): the layout at two bases. -/
theorem test_initialize_layout :
    (laidOut 0 0x100 5 3 8 6).bounds = ⟨0, 0, 5, 5, 8, 0x10, 0x100⟩ ∧
    (laidOut 0x1000 0x100 5 3 8 6).bounds = ⟨0x1000, 0x1000, 0x1005, 0x1005, 0x1008, 0x1010, 0x1100⟩ ∧
    (laidOut 0x1000 0x100 5 3 8 6).reg .esp = 0x10FA ∧
    (laidOut 0x1000 0x100 5 3 8 6).mem.readRun 0x1004 5 = [0x90, 1, 1, 1, 0] := by
  decide

/-- Vectors Y4, Y5, Y8, Y9: the last sizes that fit and the first that do not. -/
theorem test_initialize_overflow :
    (laidOut 0 0x10 8 7 0 0).faultKind = none ∧ (laidOut 0 0x10 8 8 0 0).faultKind = some .layoutOverflow ∧
    (laidOut 0 0x10 8 4 2 2).faultKind = none ∧ (laidOut 0 0x10 8 4 2 3).faultKind = some .layoutOverflow := by
  decide

/-- A machine of another memory size, with no section but the text. -/
def smallMachine (memSize : Nat) (text : List Byte) : State :=
  hostInitialize 0 { memSize := memSize, entryPoint := 0, text := text } State.reset

/-- Vectors F1, F2, F4 and F7: the fetch is bounded by the memory, not by the text, and stops where the decode settles. -/
theorem test_fetch_bounds :
    (stateOf (step (smallMachine 3 [0x81, 0xC0]))).faultKind = some .outOfBounds ∧
    (stateOf (step (smallMachine 3 [0x83, 0xC0]))).eip = 3 ∧
    (stateOf (step (smallMachine 3 [0x81, 0x04]))).faultKind = some .decode ∧
    (stateOf (step (smallMachine 6 [0x8B, 0x83]))).reg .eax = 0x0000838B := by
  decide

/-- Vectors T1 and T2: the error latched first is kept, and a step of a halted machine is refused and faults it. -/
theorem test_faults_are_latched :
    (stateOf (step { machineWith [0x90] with runState := .faulted, faultKind := some .decode })).faultKind = some .decode ∧
    (stateOf (step (after [0x90]))).faultKind = some .invalidState ∧
    (stateOf (step (after [0x90]))).runState = .faulted ∧ stepResult (after [0x90]) (stateOf (step (after [0x90]))) =
      some (.error .invalidState) := by
  decide

/-- Vectors N1 to N4 and N7: the host's ports. -/
theorem test_ports :
    let s := stateOf (hostStore 0x10 [1, 2, 3] (machineWith [0x90]))
    (stateOf (hostStore 0x11 [0xAA] s)).mem.readRun 0x10 4 = [0x01, 0xAA, 0x03, 0x00] ∧
    s.load 0x10 3 = .ok [1, 2, 3] ∧ s.load 0xFF 2 = .error .outOfBounds ∧ s.load 0x100 1 = .error .outOfBounds := by
  decide

/-- Vectors T9 and T10: an `eip` entry is ignored, and an `esp` entry wins over the returned stack pointer. -/
theorem test_initialize_presets :
    (machineWith [0x90] [(.eip, 0x50)]).eip = 0 ∧
    (machineWith [0x90] [(.esp, 0x80)] [] [1, 2, 3, 4, 5, 6, 7, 8]).reg .esp = 0x80 ∧
    (machineWith [0x90] [] [] [1, 2, 3, 4, 5, 6, 7, 8]).reg .esp = 0xF8 := by
  decide

/-! ### Witnesses: states and operands that meet the hypotheses of each statement -/

theorem witness_DecodeOfEncodeIsTheInstruction :
    (Instr.movRmImm32 (.memDisp32 .edi 0xFFFFFFFF) 0x80000000).wellFormed = true ∧
    (Instr.addRmR (.memDisp8 .ebp 0x80) .esp).wellFormed = true ∧ (Instr.decRm (.mem .edi)).wellFormed = true ∧
    (Instr.jgRel32 0xFFFFFFFF).wellFormed = true := by decide

theorem witness_DecodedBytesAreTheEncoding :
    decode [0xC7, 0x87, 0xFF, 0xFF, 0xFF, 0xFF, 0x00, 0x00, 0x00, 0x80, 0x12] =
      .ok (.movRmImm32 (.memDisp32 .edi 0xFFFFFFFF) 0x80000000, [0x12]) := by decide

theorem witness_LengthIsFixedByFormatAndMod :
    (encode (.addRmImm32 (.memDisp32 .ebx 1) 2)).take 2 = (encode (.addRmImm32 (.memDisp32 .ebx 3) 4)).take 2 ∧
    (encode (.addRmImm32 (.memDisp32 .ebx 1) 2)).length = 10 ∧ (encode (.movRmImm32 (.memDisp32 .ebp 1) 2)).length = 10 ∧
    (encode (.testRmImm32 (.memDisp32 .ebx 1) 2)).length = 10 ∧ (encode .ret).length = 1 := by decide

/-- Two encodings that agree on the first byte alone, without a ModRM byte; two with it that differ in `rm` alone; and the
decoder on the longest encoding. -/
theorem witness_LengthIsFixedByFormatAndMod_bytes :
    (encode (.pushImm8 0) = [0x6A, 0x00] ∧ encode (.pushImm8 0xFF) = [0x6A, 0xFF] ∧ 0x6A ∉ modRMFirstBytes) ∧
    (encode (.negRm (.mem .eax)) = [0xF7, 0x18] ∧ encode (.negRm (.mem .edi)) = [0xF7, 0x1F] ∧
      0xF7 ∈ modRMFirstBytes ∧ 0x18 / 64 = 0x1F / 64 ∧ 0x18 / 8 % 8 = 0x1F / 8 % 8) ∧
    decode [0x81, 0x80, 0, 0, 0, 0, 1, 2, 3, 4] = .ok (.addRmImm32 (.memDisp32 .eax 0) 0x04030201, []) := by decide

/-- The formats of 30_encoding.md R101 cover exactly the admitted first bytes. -/
theorem test_formats_cover_the_opcode_map :
    ∀ b : Byte, (formatOf b 0).isSome = decide (b.toNat ∈ admittedFirstBytes) := by decide

theorem witness_UnadmittedEncodingsAreRefused :
    (0x00 ∉ admittedFirstBytes ∧ 0xF2 ∉ admittedFirstBytes ∧ 0x82 ∉ admittedFirstBytes ∧ 0x01 ∈ admittedFirstBytes ∧
      0xFF ∈ admittedFirstBytes) ∧
    ((0x7F : Byte).toNat < 0x80 ∧ 0x8F < (0x90 : Byte).toNat) ∧
    ((0xD3, [4, 5, 7]) ∈ admittedDigits ∧ 0xF0 / 8 % 8 ∉ [4, 5, 7] ∧ 0xC0 / 8 % 8 ∉ [4, 5, 7]) := by decide

theorem witness_UnadmittedEncodingsAreRefused_modRM :
    ((0x01 ∈ modRMFirstBytes ∧ refusedModRM 0x04 ∧ ∀ ds, (0x01, ds) ∈ admittedDigits → 0x04 / 8 % 8 ∈ ds) ∧
     (0x8B ∈ modRMFirstBytes ∧ refusedModRM 0x84 ∧ ∀ ds, (0x8B, ds) ∈ admittedDigits → 0x84 / 8 % 8 ∈ ds) ∧
     (0xF7 ∈ modRMFirstBytes ∧ refusedModRM 0x1D ∧ ∀ ds, (0xF7, ds) ∈ admittedDigits → 0x1D / 8 % 8 ∈ ds)) := by
  refine ⟨⟨by decide, ?_, ?_⟩, ⟨by decide, ?_, ?_⟩, ⟨by decide, ?_, ?_⟩⟩
  all_goals first
    | (simp [refusedModRM]; done)
    | simp [admittedDigits]

theorem witness_RedundantEncodingsAgree :
    let s := machineWith [0x01, 0x03] [(.eax, 1), (.ecx, 0x21)]
    (aluForm (.addRmR (.reg .eax) .ebx) ≠ none ∧
      aluForm (.addRmR (.reg .eax) .ebx) = aluForm (.addRRm .eax (.reg .ebx))) ∧
    (testForm (.testEaxImm32 0xFF) ≠ none ∧ testForm (.testEaxImm32 0xFF) = testForm (.testRmImm32 (.reg .eax) 0xFF)) ∧
    (unaryForm (.incR .esp) ≠ none ∧ unaryForm (.incR .esp) = unaryForm (.incRm (.reg .esp))) ∧
    (shiftForm s (.shlRm1 (.mem .ebx)) ≠ none ∧ shiftForm s (.shlRm1 (.mem .ebx)) = shiftForm s (.shlRmCl (.mem .ebx))) ∧
    (moveForm (.movRImm32 .edi 7) ≠ none ∧ moveForm (.movRImm32 .edi 7) = moveForm (.movRmImm32 (.reg .edi) 7)) ∧
    (pushForm s (.pushImm8 0x80) ≠ none ∧ pushForm s (.pushImm8 0x80) = pushForm s (.pushImm32 0xFFFFFF80)) ∧
    (jmpForm (.jmpRel8 0xFE) ≠ none ∧ jmpForm (.jmpRel8 0xFE) = jmpForm (.jmpRel32 0xFFFFFFFE)) ∧
    (jccForm (.jgRel8 0x7F) ≠ none ∧ jccForm (.jgRel8 0x7F) = jccForm (.jgRel32 0x7F)) := by decide

theorem witness_RedundantEncodingsAgree_completes :
    ∃ t, exec (.addRmR (.reg .eax) .ebx) (machineWith [0x01, 0xD8]) = .next t ∧ t.runState ≠ .faulted :=
  ⟨_, rfl, by decide⟩

/-- The ends of the memory at two bases, for the statements on `Load` and `Store`. -/
theorem witness_LoadSucceedsExactlyInBounds :
    let s := machineWith [0x90]
    let high := hostInitialize 0x1000 { memSize := 0x100, entryPoint := 0x1000, text := [0x90] } State.reset
    (1 ≤ 0x100 ∧ s.bounds.memStart ≤ 0 ∧ 0 + 0x100 ≤ s.bounds.memEnd) ∧ (s.bounds.memStart ≤ 0xFF ∧ 0xFF + 1 ≤ s.bounds.memEnd) ∧
    ¬ (s.bounds.memStart ≤ 0xFF ∧ 0xFF + 2 ≤ s.bounds.memEnd) ∧
    ¬ (high.bounds.memStart ≤ 0xFFF ∧ 0xFFF + 1 ≤ high.bounds.memEnd) ∧
    (high.bounds.memStart ≤ 0x1000 ∧ 0x1000 + 0x100 ≤ high.bounds.memEnd) := by decide

theorem witness_StoreWritesExactlyItsBytes :
    let s := machineWith [0x90]
    s.mem.wf ∧ (s.bounds.memStart ≤ 0xFE ∧ 0xFE + [(1 : Byte), 2].length ≤ s.bounds.memEnd) ∧
    (s.bounds.memStart ≤ 0x100 ∧ 0x100 + ([] : List Byte).length ≤ s.bounds.memEnd) ∧
    ¬ (s.bounds.memStart ≤ 0xFE ∧ 0xFE + [(1 : Byte), 2, 3].length ≤ s.bounds.memEnd) := by decide

theorem witness_StoreThenLoadReturnsTheBytes :
    (machineWith [0x90]).mem.wf ∧ 0xFD < 0xFE ∧ 0xFE + [(1 : Byte), 2].length ≤ 0x100 ∧ ∃ t u, (machineWith [0x90]).store 0xFE [1, 2] = .ok t ∧ t.store 0xFF [0] = .ok u :=
  ⟨by decide, by decide, by decide, _, _, rfl, rfl⟩

theorem witness_MemReadIsLittleEndian :
    let s := machineWith [0x90] [] [] [0x78, 0x56, 0x34, 0x12]
    s.memRead 0xFC = .ok 0x12345678 ∧ s.load 0xFF 1 = .ok [0x12] ∧
    (s.bounds.memStart ≤ (0xFC : Word).toNat ∧ (0xFC : Word).toNat + 4 ≤ s.bounds.memEnd) := by decide

theorem witness_MemWriteIsLittleEndianAtAnyAddress :
    let s := machineWith [0x90]
    s.mem.wf ∧ (s.bounds.memStart ≤ (0xFC : Word).toNat ∧ (0xFC : Word).toNat + 4 ≤ s.bounds.memEnd) ∧
    (s.bounds.memStart ≤ (0x21 : Word).toNat ∧ (0x21 : Word).toNat + 4 ≤ s.bounds.memEnd) ∧
    ¬ (s.bounds.memStart ≤ (0xFD : Word).toNat ∧ (0xFD : Word).toNat + 4 ≤ s.bounds.memEnd) ∧
    ¬ (s.bounds.memStart ≤ (0xFFFFFFFF : Word).toNat ∧ (0xFFFFFFFF : Word).toNat + 4 ≤ s.bounds.memEnd) := by decide

theorem witness_OperandsResolveAsTheRulesSay : Reg.esp ≠ Reg.eax := by decide

/-- Options whose sections fill the memory exactly, with presets (vector Y8 with one register and `eip` preset). -/
def fullOptions : InitOptions :=
  { memSize := 0x10, entryPoint := 0, text := List.replicate 8 0x90, data := [1, 2, 3, 4], bss := 2, stack := [5, 6]
    regs := [(.eax, 7), (.eip, 0x50)] }

theorem witness_InitializeLaysOutTheSections :
    let o := { fullOptions with regs := [] }
    0xFFFFFFF0 + o.memSize ≤ 2 ^ 32 ∧ o.text.length + o.data.length + o.bss < o.memSize ∧
    o.text.length + o.data.length + o.bss + o.stack.length ≤ o.memSize ∧ o.regs = [] ∧
    7 < o.text.length ∧ 3 < o.data.length ∧ 1 < o.stack.length ∧
    (hostInitialize 0 o State.reset).bounds.bssStart ≤ 0xC ∧ 0xC < 0 + o.memSize - o.stack.length := by decide

theorem witness_InitializeSetsTheRegisters :
    let o := fullOptions
    0xFFFFFFF0 + o.memSize ≤ 2 ^ 32 ∧ o.text.length + o.data.length + o.bss < o.memSize ∧
    o.text.length + o.data.length + o.bss + o.stack.length ≤ o.memSize ∧ (o.regs.map Prod.fst).Nodup ∧
    (hostInitialize 0 o State.reset).runState = .ready ∧
    (hostInitialize 0 { o with entryPoint := 8 } State.reset).runState ≠ .ready := by decide

theorem witness_LayoutOverflowFaultsInitializeOnly :
    (1 ≤ 0x10 ∧ 0xFFFFFFF0 + 0x10 ≤ 2 ^ 32 ∧ 0x10 ≤ 8 + 8 + 0 ∧ 0x10 < 8 + 4 + 2 + 3 ∧ 1 ≤ 1 ∧ 1 ≤ 1 + 0 + 0) ∧
    fullOptions.fits 0 = true ∧
    ∃ t, step { State.reset with runState := .faulted, faultKind := some .layoutOverflow } = .next t ∧
      t.faultKind = some .layoutOverflow :=
  ⟨by decide, by decide, _, rfl, by decide⟩

/-- A machine whose memory, bounds and run state meet the invariant: the text at the bottom, a stack image at the top. -/
theorem machine_inv : (machineWith [0x01, 0x03, 0xF4] [(.ebx, 0xFC)] [] [1, 0, 0, 0]).Inv :=
  ⟨by decide, by decide, by decide, by decide, by decide, by decide⟩

theorem witness_InitializeEstablishesTheInvariant : fullOptions.fits 0xFFFFFFF0 = true ∧ State.reset.Inv :=
  ⟨by decide, by decide, by decide, by decide, by decide, by decide, by decide⟩

theorem witness_ResetIsAnInitializeOfEmptySections : Reg.eax ≠ Reg.esp := by decide

/-- An instruction whose last byte is the last byte of the memory (vector F2). -/
theorem witness_StepRunsTheInstructionAtEip :
    let s := smallMachine 3 [0x83, 0xC0]
    s.runState = .ready ∧ (Instr.addRmImm8 (.reg .eax) 0).wellFormed = true ∧ s.bounds.memStart ≤ s.eip.toNat ∧
    s.eip.toNat + (encode (.addRmImm8 (.reg .eax) 0)).length = s.bounds.memEnd ∧
    s.mem.readRun s.eip.toNat 3 = encode (.addRmImm8 (.reg .eax) 0) ∧
    ∀ k (hk : k < (encode (.addRmImm8 (.reg .eax) 0)).length),
      s.mem.read (s.eip.toNat + k) = (encode (.addRmImm8 (.reg .eax) 0))[k] := by
  refine ⟨by decide, by decide, by decide, by decide, by decide, fun k hk => ?_⟩
  have : k < 3 := hk
  match k, this with
  | 0, _ => rfl
  | 1, _ => rfl
  | 2, _ => rfl

theorem witness_StepsOutsideReadyAreInvalid :
    State.reset.runState ≠ .ready ∧
    ∃ t u, Sys2Proof.core.run 1 State.reset = .next t ∧ step t = .next u ∧ u.faultKind = some .invalidState :=
  ⟨by decide, _, _, rfl, rfl, by decide⟩

/-- A byte that no instruction begins with, and the last byte of the memory (a one-byte text in two bytes). -/
theorem witness_UndecodableBytesRaiseDecodeError :
    (smallMachine 2 [0x0F]).Inv ∧ (smallMachine 2 [0x0F]).runState = .ready ∧
    decode [0x0F, 0x00] = .error .secondByte ∧ DecodeStop.secondByte ≠ .outOfBytes ∧
    (smallMachine 2 [0x0F]).eip.toNat + 2 = (smallMachine 2 [0x0F]).bounds.memEnd ∧
    (smallMachine 2 [0x0F]).mem.readRun 0 2 = [0x0F, 0x00] :=
  ⟨⟨by decide, by decide, by decide, by decide, by decide, by decide⟩, by decide, by decide, by decide, by decide,
    by decide⟩

/-- Vector F1. -/
theorem witness_FetchPastTheMemoryIsOutOfBounds :
    (smallMachine 3 [0x81, 0xC0]).Inv ∧ (smallMachine 3 [0x81, 0xC0]).runState = .ready ∧
    (smallMachine 3 [0x81, 0xC0]).eip.toNat + 3 = (smallMachine 3 [0x81, 0xC0]).bounds.memEnd ∧
    decode ((smallMachine 3 [0x81, 0xC0]).mem.readRun 0 3) = .error .outOfBytes :=
  ⟨⟨by decide, by decide, by decide, by decide, by decide, by decide⟩, by decide, by decide, by decide⟩

/-- A step that ends ready, one that leaves the text, and a `HLT` inside the text. -/
theorem witness_HaltCheckEndsEveryCompletedStep :
    (∃ t, step (machineWith [0x90, 0x90]) = .next t ∧ t.runState = .ready) ∧
    (∃ t, step (machineWith [0x90]) = .next t ∧ t.runState = .halted) ∧
    (machineWith [0xF4, 0x90]).mem.read (machineWith [0xF4, 0x90]).eip.toNat = 0xF4 ∧
    (machineWith [0xF4, 0x90]).runState = .ready ∧ (machineWith [0xF4, 0x90]).Inv :=
  ⟨⟨_, rfl, by decide⟩, ⟨_, rfl, by decide⟩, by decide, by decide,
    ⟨by decide, by decide, by decide, by decide, by decide, by decide⟩⟩

theorem witness_StepKeepsTheInvariant :
    (machineWith [0x01, 0x03, 0xF4] [(.ebx, 0xFC)] [] [1, 0, 0, 0]).Inv ∧
    ∃ t, step (machineWith [0x01, 0x03, 0xF4] [(.ebx, 0xFC)] [] [1, 0, 0, 0]) = .next t ∧ t.runState = .ready :=
  ⟨machine_inv, _, rfl, by decide⟩

theorem witness_RunsKeepReservedFlagBitsAndBounds :
    (∃ t, Sys2Proof.core.run 1 (machineWith [0x01, 0xD8] [(.eflags, 0xFFFFFFFF)]) = .next t ∧ t.eflags = 0xFFFFF76E) ∧
    1 ∉ [0, 2, 4, 6, 7, 11] ∧ 31 ∉ [0, 2, 4, 6, 7, 11] :=
  ⟨⟨_, rfl, by decide⟩, by decide, by decide⟩

/-- A `PUSH` outside the memory (vector K8) and a refused opcode. -/
theorem witness_ErrorsLeaveAtMostAPushedStackPointer :
    (machineWith [0x50] [(.esp, 2)]).Inv ∧ (machineWith [0x50] [(.esp, 2)]).runState = .ready ∧
    (∃ t, step (machineWith [0x50] [(.esp, 2)]) = .next t ∧ t.runState = .faulted ∧ t.reg .esp = 0xFFFFFFFE) ∧
    (∃ t, step (machineWith [0x66]) = .next t ∧ t.runState = .faulted ∧ t.faultKind = some .decode) ∧
    ∃ t, Sys2Proof.core.run 1 (after [0x66]) = .next t ∧ (after [0x66]).runState = .faulted :=
  ⟨⟨by decide, by decide, by decide, by decide, by decide, by decide⟩, by decide, ⟨_, rfl, by decide, by decide⟩,
    ⟨_, rfl, by decide, by decide⟩, _, rfl, by decide⟩

theorem witness_EveryStepAnswersAndReports :
    (∃ t, step (machineWith [0x90, 0x90]) = .next t ∧ t.runState = .ready) ∧
    (∃ t, step (machineWith [0xF4]) = .next t ∧ t.runState = .halted) ∧
    (∃ t, step (machineWith [0x66]) = .next t ∧ t.runState = .faulted) ∧
    State.reset.runState ≠ .ready ∧ State.reset.Inv :=
  ⟨⟨_, rfl, by decide⟩, ⟨_, rfl, by decide⟩, ⟨_, rfl, by decide⟩, by decide,
    ⟨by decide, by decide, by decide, by decide, by decide, by decide⟩⟩

theorem witness_HostPortsTouchMemoryAlone :
    State.reset.Inv ∧ State.reset.runState = .halted ∧ (machineWith [0x90]).runState = .ready ∧
    (after [0x66]).runState = .faulted ∧
    (State.reset.bounds.memStart ≤ 0xFE ∧ 0xFE + [(1 : Byte), 2].length ≤ State.reset.bounds.memEnd) ∧
    ¬ (State.reset.bounds.memStart ≤ 0xFF ∧ 0xFF + [(1 : Byte), 2].length ≤ State.reset.bounds.memEnd) ∧
    ({ State.reset with runState := .uninitialized } : State).runState = .uninitialized :=
  ⟨⟨by decide, by decide, by decide, by decide, by decide, by decide⟩, by decide, by decide, by decide, by decide,
    by decide, by decide⟩

theorem witness_PlacedTableWordIsRun :
    State.reset.mem.wf ∧ decodeTableWord 80 0x11223344_55667788_83C7 = some (.movRmImm32 (.memDisp32 .ebx 0x55667788) 0x11223344) := by
  decide

theorem witness_FlagWriteBackWritesOnlyNamedFlags :
    (incCore 0xF).flags.get .af = some true ∧ (incCore 0xF).flags.get .cf = none ∧ ∀ f, flagBit f ≠ 1 := by
  refine ⟨by decide, by decide, fun f => ?_⟩
  cases f <;> decide

/-- The hypotheses of `TwoOperandRule` for one operation: a memory destination that is the last four bytes, a memory
source, and a destination and a source one byte too high. -/
def TwoOperandWitness (op : AluOp) : Prop :=
  let s := machineWith [0x01, 0x03] [(.eax, 0x80000000), (.ebx, 0xFC), (.esi, 0xFD)] [] [1, 0, 0, 0]
  aluForm (aluRmR op (.mem .ebx) .eax) = some (op, .mem .ebx 0, .reg .eax) ∧ s.mem.wf ∧
  s.readOp (.mem .ebx 0) = .ok 1 ∧ s.readOp (.reg .eax) = .ok 0x80000000 ∧
  aluForm (aluRRm op .eax (.mem .ebx)) = some (op, .reg .eax, .mem .ebx 0) ∧
  aluForm (aluRmR op (.mem .esi) .eax) = some (op, .mem .esi 0, .reg .eax) ∧ ¬ Accessible s (.mem .esi 0) ∧
  aluForm (aluRRm op .eax (.mem .esi)) = some (op, .reg .eax, .mem .esi 0)

theorem not_accessible : ¬ Accessible
    (machineWith [0x01, 0x03] [(.eax, 0x80000000), (.ebx, 0xFC), (.esi, 0xFD)] [] [1, 0, 0, 0]) (.mem .esi 0) := by
  unfold Accessible
  decide

theorem twoOperand_witness (op : AluOp) : TwoOperandWitness op := by
  refine ⟨?_, by decide, by decide, by decide, ?_, ?_, not_accessible, ?_⟩ <;> cases op <;> rfl

theorem witness_AddWritesSumAndSixFlags : TwoOperandWitness .add := twoOperand_witness .add
theorem witness_AdcAddsTheCarry : TwoOperandWitness .adc := twoOperand_witness .adc
theorem witness_SubWritesDifferenceAndSixFlags : TwoOperandWitness .sub := twoOperand_witness .sub
theorem witness_SbbSubtractsTheBorrow : TwoOperandWitness .sbb := twoOperand_witness .sbb
theorem witness_CmpWritesOnlyFlags : TwoOperandWitness .cmp := twoOperand_witness .cmp
theorem witness_LogicWritesResultAndClearsCarries :
    TwoOperandWitness .or ∧ TwoOperandWitness .and ∧ TwoOperandWitness .xor :=
  ⟨twoOperand_witness .or, twoOperand_witness .and, twoOperand_witness .xor⟩

/-- The machine of the witnesses on memory operands: `ebx` at the last four bytes, `esi` one byte higher. -/
def edgeMachine : State :=
  machineWith [0x01, 0x03] [(.eax, 0x80000000), (.ebx, 0xFC), (.esi, 0xFD)] [] [1, 0, 0, 0]

theorem witness_TestWritesOnlyFlags :
    testForm (.testRmR (.mem .ebx) .eax) = some (.mem .ebx 0, .reg .eax) ∧ edgeMachine.readOp (.mem .ebx 0) = .ok 1 ∧
    edgeMachine.readOp (.reg .eax) = .ok 0x80000000 ∧
    testForm (.testRmR (.mem .esi) .eax) = some (.mem .esi 0, .reg .eax) ∧ ¬ Accessible edgeMachine (.mem .esi 0) ∧
    (0xC8 : Byte).toNat / 8 % 8 = 1 :=
  ⟨rfl, by decide, by decide, rfl, not_accessible, by decide⟩

theorem witness_IncAndDecKeepTheCarry :
    unaryForm (.incRm (.mem .ebx)) = some (.inc, .mem .ebx 0) ∧ unaryForm (.decRm (.mem .ebx)) = some (.dec, .mem .ebx 0) ∧
    edgeMachine.mem.wf ∧ edgeMachine.readOp (.mem .ebx 0) = .ok 1 ∧
    unaryForm (.incRm (.mem .esi)) = some (.inc, .mem .esi 0) ∧ unaryForm (.decRm (.mem .esi)) = some (.dec, .mem .esi 0) ∧
    ¬ Accessible edgeMachine (.mem .esi 0) :=
  ⟨rfl, rfl, by decide, by decide, rfl, rfl, not_accessible⟩

theorem witness_NegAndNotResults :
    unaryForm (.negRm (.mem .ebx)) = some (.neg, .mem .ebx 0) ∧ unaryForm (.notRm (.mem .ebx)) = some (.not, .mem .ebx 0) ∧
    edgeMachine.mem.wf ∧ edgeMachine.readOp (.mem .ebx 0) = .ok 1 ∧
    unaryForm (.negRm (.mem .esi)) = some (.neg, .mem .esi 0) ∧ unaryForm (.notRm (.mem .esi)) = some (.not, .mem .esi 0) ∧
    ¬ Accessible edgeMachine (.mem .esi 0) :=
  ⟨rfl, rfl, by decide, by decide, rfl, rfl, not_accessible⟩

/-- The hypotheses of `ShiftRule`: the counts 0, 1 and 31 after masking, and a count 0 on an operand outside the memory
(vector H19). -/
theorem witness_ShlShiftsLeft :
    shiftForm edgeMachine (.shlRmImm8 (.mem .ebx) 0x20) = some (.shl, .mem .ebx 0, 0) ∧
    shiftForm edgeMachine (.shlRm1 (.mem .ebx)) = some (.shl, .mem .ebx 0, 1) ∧
    shiftForm edgeMachine (.shlRmImm8 (.mem .ebx) 0xFF) = some (.shl, .mem .ebx 0, 31) ∧
    edgeMachine.mem.wf ∧ edgeMachine.readOp (.mem .ebx 0) = .ok 1 ∧
    shiftForm edgeMachine (.shlRmCl (.mem .esi)) = some (.shl, .mem .esi 0, 0) ∧
    ¬ Accessible edgeMachine (.mem .esi 0) :=
  ⟨rfl, rfl, rfl, by decide, by decide, rfl, not_accessible⟩

theorem witness_ShrAndSarShiftRight :
    shiftForm edgeMachine (.shrRmImm8 (.mem .ebx) 0x20) = some (.shr, .mem .ebx 0, 0) ∧
    shiftForm edgeMachine (.sarRmImm8 (.mem .ebx) 0x20) = some (.sar, .mem .ebx 0, 0) ∧
    shiftForm edgeMachine (.shrRmImm8 (.mem .ebx) 0xFF) = some (.shr, .mem .ebx 0, 31) ∧
    shiftForm edgeMachine (.sarRm1 (.mem .ebx)) = some (.sar, .mem .ebx 0, 1) ∧
    edgeMachine.mem.wf ∧ edgeMachine.readOp (.mem .ebx 0) = .ok 1 ∧
    shiftForm edgeMachine (.shrRmCl (.mem .esi)) = some (.shr, .mem .esi 0, 0) ∧
    shiftForm edgeMachine (.sarRmCl (.mem .esi)) = some (.sar, .mem .esi 0, 0) ∧ ¬ Accessible edgeMachine (.mem .esi 0) :=
  ⟨rfl, rfl, rfl, rfl, by decide, by decide, rfl, rfl, not_accessible⟩

theorem witness_MovCopiesAndNopAdvances :
    moveForm (.movRmR (.mem .ebx) .eax) = some (.mem .ebx 0, .reg .eax) ∧ edgeMachine.mem.wf ∧
    Accessible edgeMachine (.mem .ebx 0) ∧ edgeMachine.readOp (.reg .eax) = .ok 0x80000000 ∧
    moveForm (.movRmR (.mem .esi) .eax) = some (.mem .esi 0, .reg .eax) ∧ ¬ Accessible edgeMachine (.mem .esi 0) ∧
    moveForm (.movRRm .eax (.mem .esi)) = some (.reg .eax, .mem .esi 0) ∧
    (0xC8 : Byte).toNat / 8 % 8 ≠ 0 ∧ refusedModRM 0x84 ∧ (0x84 : Byte).toNat / 8 % 8 = 0 ∧ refusedModRM 0x05 :=
  ⟨rfl, by decide, by unfold Accessible; decide, by decide, rfl, not_accessible, rfl, by decide, by simp [refusedModRM],
    by decide, by simp [refusedModRM]⟩

/-- The stack slot at the ends of the memory: `esp` = 4 and 0x100 in it, 3 and 0x101 outside. -/
def slotInside (esp : Word) : Prop :=
  let s := machineWith [0x50] [(.esp, esp)]
  let slot := BitVec.ofNat 32 (2 ^ 32 + (s.reg .esp).toNat - 4)
  s.bounds.memStart ≤ slot.toNat ∧ slot.toNat + 4 ≤ s.bounds.memEnd

theorem slot_ends : slotInside 4 ∧ slotInside 0x100 ∧ ¬ slotInside 3 ∧ ¬ slotInside 0x101 := by
  unfold slotInside
  decide

theorem witness_PushDecrementsThenWrites :
    pushForm (machineWith [0x50] [(.esp, 4)]) (.pushR .esp) = some 4 ∧ (machineWith [0x50] [(.esp, 4)]).mem.wf ∧
    slotInside 4 ∧ ¬ slotInside 3 :=
  ⟨rfl, by decide, slot_ends.1, slot_ends.2.2.1⟩

theorem witness_PopReadsThenIncrements :
    (machineWith [0x58] [] [] [0x78, 0x56, 0x34, 0x12]).memRead 0xFC = .ok 0x12345678 ∧
    (machineWith [0x58] [] [] [0x78, 0x56, 0x34, 0x12]).reg .esp = 0xFC ∧ Reg.eax ≠ Reg.esp ∧
    ¬ ((machineWith [0x58] [(.esp, 0xFD)]).bounds.memStart ≤ ((machineWith [0x58] [(.esp, 0xFD)]).reg .esp).toNat ∧
      ((machineWith [0x58] [(.esp, 0xFD)]).reg .esp).toNat + 4 ≤ (machineWith [0x58] [(.esp, 0xFD)]).bounds.memEnd) := by
  decide

theorem witness_PushThenPopRestoresRegisters :
    (machineWith [0x54, 0x5C]).mem.wf ∧ (machineWith [0x54, 0x5C]).runState ≠ .faulted ∧
    ∃ t, exec (.pushR .esp) (machineWith [0x54, 0x5C]) = .next t ∧ t.runState ≠ .faulted :=
  ⟨by decide, by decide, _, rfl, by decide⟩

theorem witness_SelfJumpNeverEnds :
    let s := machineWith [0xEB, 0xFE]
    s.Inv ∧ s.runState = .ready ∧ s.mem.read s.eip.toNat = 0xEB ∧ s.mem.read (s.eip.toNat + 1) = 0xFE ∧
    s.eip.toNat + 2 ≤ s.bounds.memEnd :=
  ⟨⟨by decide, by decide, by decide, by decide, by decide, by decide⟩, by decide, by decide, by decide, by decide⟩

theorem witness_ConditionsAfterCmpCompare :
    aluForm (.cmpRmR (.mem .ebx) .eax) = some (.cmp, .mem .ebx 0, .reg .eax) ∧ edgeMachine.readOp (.mem .ebx 0) = .ok 1 ∧
    edgeMachine.readOp (.reg .eax) = .ok 0x80000000 ∧ ∃ t, exec (.cmpRmR (.mem .ebx) .eax) edgeMachine = .next t :=
  ⟨rfl, by decide, by decide, _, rfl⟩

theorem witness_CallPushesNextAndGoes :
    (machineWith [0x50] [(.esp, 4)]).mem.wf ∧ slotInside 0x100 ∧ ¬ slotInside 0x101 :=
  ⟨by decide, slot_ends.2.1, slot_ends.2.2.2⟩

theorem witness_RetReturnsToThePoppedAddress :
    (machineWith [0xC3] [] [] [0, 1, 0, 0]).memRead ((machineWith [0xC3] [] [] [0, 1, 0, 0]).reg .esp) = .ok 0x100 ∧
    ¬ ((machineWith [0xC3]).bounds.memStart ≤ ((machineWith [0xC3]).reg .esp).toNat ∧
      ((machineWith [0xC3]).reg .esp).toNat + 4 ≤ (machineWith [0xC3]).bounds.memEnd) ∧
    ∃ t, exec (.callRel32 0xFFFFFFFB) (machineWith [0xC3]) = .next t ∧ t.runState ≠ .faulted :=
  ⟨by decide, by decide, _, rfl, by decide⟩

theorem witness_HltHaltsBehindItself :
    (machineWith [0xF4, 0x90]).Inv ∧ (machineWith [0xF4, 0x90]).runState = .ready ∧
    (machineWith [0xF4, 0x90]).mem.read (machineWith [0xF4, 0x90]).eip.toNat = 0xF4 :=
  ⟨⟨by decide, by decide, by decide, by decide, by decide, by decide⟩, by decide, by decide⟩

/-- For the frames: a form with a memory destination, whose base keeps its value, and an address on either side of the
four bytes it stores to. -/
theorem witness_UnwrittenRegistersKeepTheirValue :
    (∃ t, exec (.movRmR (.mem .ebx) .eax) edgeMachine = .next t) ∧
    Reg.ebx ∉ writtenRegs edgeMachine (.movRmR (.mem .ebx) .eax) ∧
    Reg.ecx ∉ writtenRegs edgeMachine (.popR .eax) :=
  ⟨⟨_, rfl⟩, by decide, by decide⟩

theorem witness_MemoryOutsideTheStoreReadsAsBefore :
    edgeMachine.mem.wf ∧ (∃ t, exec (.movRmR (.mem .ebx) .eax) edgeMachine = .next t) ∧
    storeAddress edgeMachine (.movRmR (.mem .ebx) .eax) = some 0xFC ∧ 0xFB < (0xFC : Word).toNat ∧
    storeAddress edgeMachine (.cmpRmR (.mem .ebx) .eax) = none ∧
    storeAddress edgeMachine (.callRel32 0) = some 0xF8 ∧ (0xF8 : Word).toNat + 4 ≤ 0xFC :=
  ⟨by decide, ⟨_, rfl⟩, by decide, by decide, by decide, by decide, by decide⟩

theorem witness_FlagsOutsideTheTableKeepTheirValue :
    (∃ t, exec (.incR .eax) edgeMachine = .next t) ∧ Flag.cf ∉ writtenFlags edgeMachine (.incR .eax) ∧
    Flag.of ∉ writtenFlags edgeMachine (.shlRmCl (.reg .eax)) ∧ 1 ∉ [0, 2, 4, 6, 7, 11] :=
  ⟨⟨_, rfl⟩, by decide, by decide, by decide⟩

/-- `ADC` reads `CF` alone: two flag words that agree on it, and a completing instruction. -/
theorem witness_UnreadFlagsDoNotMatter :
    (∀ f ∈ readFlags (.adcRmR (.reg .eax) .ebx), flagOf 0x8D4 f = edgeMachine.testFlag f) ∧
    ∃ t, exec (.adcRmR (.reg .eax) .ebx) edgeMachine = .next t ∧ t.runState ≠ .faulted :=
  ⟨by decide, _, rfl, by decide⟩

theorem witness_ControlStateAndEipFrame :
    ∃ t, exec (.pushR .eax) edgeMachine = .next t ∧ edgeMachine.runState ≠ .faulted ∧ t.runState ≠ .faulted ∧
      jmpForm (.pushR .eax) = none ∧ jccForm (.pushR .eax) = none ∧ (Instr.pushR .eax) ≠ .ret ∧
      ∀ rel, Instr.pushR .eax ≠ .callRel32 rel :=
  ⟨_, rfl, by decide, by decide, rfl, rfl, by decide, by intro rel h; cases h⟩

end Sys2Proof.Tests
end

section
/-! Proofs: `Load` and `Store` (20_memory.md R65, R66, R78). Whether an access succeeds is its
bounds test (`Bounds.covers`); what it reads or leaves is what a run of writes holds inside and outside its bytes. -/

namespace Sys2Proof.Machine

/-! ### Runs of writes and stores -/

/-- A cell inside a run of writes holds its byte of the run. -/
theorem Memory.read_writeRun_inside {m : Memory} (h : m.wf) (a : Nat) {vs : List Byte} {k : Nat} (hk : k < vs.length) :
    (m.writeRun a vs).read (a + k) = vs[k] := by
  simp [Memory.read_writeRun a (a + k) vs h, hk, List.getD_eq_getElem?_getD]

theorem Bounds.covers_eq_false_iff (b : Bounds) (a n : Nat) :
    b.covers a n = false ↔ ¬ (b.memStart ≤ a ∧ a + n ≤ b.memEnd) := by
  rw [Bool.eq_false_iff, Ne, Bounds.covers_iff]

/-- No access of at least one byte begins at `memEnd`. -/
theorem Bounds.not_covers_memEnd (b : Bounds) {n : Nat} (hn : 1 ≤ n) : b.covers b.memEnd n = false :=
  (b.covers_eq_false_iff _ n).mpr (by omega)

theorem State.store_of_not_covers {s : State} {a : Nat} {vs : List Byte} (h : s.bounds.covers a vs.length = false) :
    s.store a vs = .error .outOfBounds := by simp [State.store, h]

/-- A store succeeds exactly when all its bytes are in bounds, and then writes them and nothing else. -/
theorem State.store_eq_ok_iff {s t : State} {a : Nat} {vs : List Byte} :
    s.store a vs = .ok t ↔ s.bounds.covers a vs.length = true ∧ t = { s with mem := s.mem.writeRun a vs } := by
  obtain ⟨hc, hs⟩ | ⟨hc, hs⟩ := State.store_cases s a vs
  · simp [hc, hs, eq_comm]
  · simp [hc, hs]

/-! ### The statements -/

/-- Settles O7: in bounds the load answers the run of cells; outside, and at `memEnd`, the bounds test fails. -/
theorem loadSucceedsExactlyInBounds : Obligations.LoadSucceedsExactlyInBounds := by
  intro s a n hn
  refine ⟨fun hin => ?_, fun hout => ?_, ?_⟩
  · exact ⟨s.mem.readRun a n, State.load_of_covers ((s.bounds.covers_iff a n).mpr hin),
      s.mem.readRun_length a n, fun k hk => s.mem.readRun_getElem? a n k hk⟩
  · exact State.load_of_not_covers ((s.bounds.covers_eq_false_iff a n).mpr hout)
  · exact State.load_of_not_covers (s.bounds.not_covers_memEnd hn)

/-- Settles O8: the state a store in bounds answers is the old one with the run of bytes written, which in a memory in
canonical form reads as the bytes inside the run and as before outside it. -/
theorem storeWritesExactlyItsBytes : Obligations.StoreWritesExactlyItsBytes := by
  intro s a bytes hwf
  refine ⟨fun hin => ?_, fun hout => ?_⟩
  · exact ⟨{ s with mem := s.mem.writeRun a bytes },
      State.store_eq_ok_iff.mpr ⟨(s.bounds.covers_iff _ _).mpr hin, rfl⟩, rfl,
      Memory.writeRun_wf a bytes hwf, fun _ hk => Memory.read_writeRun_inside hwf a hk,
      fun _ hx => Memory.read_writeRun_outside hwf hx⟩
  · exact State.store_of_not_covers ((s.bounds.covers_eq_false_iff _ _).mpr hout)

/-- Settles O9: the store moves no bound, so the load after it is in bounds too and reads the run just written; the later
store of one byte is a single write into a memory that is still in canonical form. -/
theorem storeThenLoadReturnsTheBytes : Obligations.StoreThenLoadReturnsTheBytes := by
  intro s t a bytes hwf hstore
  obtain ⟨hcov, rfl⟩ := State.store_eq_ok_iff.mp hstore
  have hwf' : (s.mem.writeRun a bytes).wf := Memory.writeRun_wf a bytes hwf
  refine ⟨?_, fun y hy => Memory.read_writeRun_outside hwf hy, fun x v u hlater => ?_⟩
  · rw [State.load_of_covers (s := { s with mem := s.mem.writeRun a bytes }) hcov, Memory.readRun_writeRun a bytes hwf]
  · obtain ⟨-, rfl⟩ := State.store_eq_ok_iff.mp hlater
    exact ⟨Memory.read_write_same hwf' x v, fun y hy => Memory.read_write_other hwf' v hy⟩

end Sys2Proof.Machine
end

section
/-! Proofs: the length of an instruction (30_encoding.md R101, R113). The opcode and the digit give the format
(`formatOf_eq_opcodeFormat`); the decoder takes the bytes of that format (`decodeRest_takes`), and every encoding has
them (`encodedAs`). The clauses of R113 then speak of formats alone. -/

namespace Sys2Proof.Machine

/-! ### Formats -/

/-- The formats with a ModRM byte (30_encoding.md R101). -/
def Format.hasModRM : Format → Bool
  | .opM | .opMI8 | .opMI32 => true
  | .op | .opR | .opRI32 | .opI8 | .opI32 | .opRel8 | .opRel32 | .escRel32 => false

theorem Format.length_eq_of_not_hasModRM {f : Format} (hf : f.hasModRM = false) (d d' : Nat) :
    f.length d = f.length d' := by
  cases f <;> simp_all [Format.hasModRM, Format.length]

theorem Format.length_mem_of_not_hasModRM {f : Format} (hf : f.hasModRM = false) (d : Nat) :
    f.length d ∈ [1, 2, 5, 6] := by
  cases f <;> simp_all [Format.hasModRM, Format.length]

theorem Format.length_mem_of_hasModRM {f : Format} (hf : f.hasModRM = true) (d : Nat) :
    f.length d ∈ [2 + d, 3 + d, 6 + d] := by
  cases f <;> simp_all [Format.hasModRM, Format.length]

/-- Only format `OP_M_I32` reaches ten bytes. -/
theorem Format.length_eq_ten {f : Format} {d : Nat} (hd : d ≤ 4) : f.length d = 10 ↔ f = .opMI32 ∧ d = 4 := by
  cases f <;> simp [Format.length] <;> omega

theorem Format.eq_opMI32_of_length {f : Format} (hf : f.hasModRM = true) {d : Nat} (h : f.length d = 6 + d) :
    f = .opMI32 := by
  cases f <;> simp_all [Format.hasModRM, Format.length]

/-! ### The format by the opcode and the digit -/

theorem toNat_regField (m : Byte) : (regField m).toNat = m.toNat / 8 % 8 := by
  revert m; decide

/-- Of the ModRM byte the format sees only the digit (and that for `F7` alone). -/
theorem formatOf_congr (b : Byte) {m m' : Byte} (h : m.toNat / 8 % 8 = m'.toNat / 8 % 8) :
    formatOf b m = formatOf b m' := by
  simp only [formatOf, h]

/-- The format that a line of the opcode map has, for the group `F7` by the digit (R101, R108, R115). -/
def opcodeFormat (digit : BitVec 3) : Opcode → Format
  | .nop | .ret | .hlt => .op
  | .incR _ | .decR _ | .pushR _ | .popR _ => .opR
  | .movRImm32 _ => .opRI32
  | .pushImm8 => .opI8
  | .aluEaxImm32 _ | .pushImm32 | .testEaxImm32 => .opI32
  | .jccRel8 _ | .jmpRel8 => .opRel8
  | .callRel32 | .jmpRel32 => .opRel32
  | .escape => .escRel32
  | .group83 | .groupC1 => .opMI8
  | .group81 | .groupC7 => .opMI32
  | .groupF7 => if digit = 0 then .opMI32 else .opM
  | .aluRmR _ | .aluRRm _ | .testRmR | .movRmR | .movRRm | .groupD1 | .groupD3 | .groupFF => .opM

theorem formatOf_modRMByte : ∀ (b : Byte) (g : BitVec 3),
    formatOf b (modRMByte 0 g 0) = (opcodeOf b).map (opcodeFormat g) := by
  decide

/-- The table of R101 read by first byte and digit is the opcode map of R108 read by line. -/
theorem formatOf_eq_opcodeFormat (b m : Byte) : formatOf b m = (opcodeOf b).map (opcodeFormat (regField m)) := by
  rw [← formatOf_modRMByte]
  exact formatOf_congr b (by rw [← toNat_regField, ← toNat_regField, regField_modRMByte])

theorem opcodeFormat_hasModRM (g : BitVec 3) (op : Opcode) :
    (opcodeFormat g op).hasModRM = (opcodeFormat 0 op).hasModRM := by
  cases op with
  | groupF7 =>
    simp only [opcodeFormat]
    split <;> rfl
  | _ => rfl

theorem opcodeOf_hasModRM :
    ∀ b : Byte, ∀ op ∈ opcodeOf b, (opcodeFormat 0 op).hasModRM = decide (b.toNat ∈ modRMFirstBytes) := by
  decide

/-- Whether there is a ModRM byte is fixed by the first byte. -/
theorem hasModRM_of_formatOf {b m : Byte} {f : Format} (h : formatOf b m = some f) :
    f.hasModRM = decide (b.toNat ∈ modRMFirstBytes) := by
  rw [formatOf_eq_opcodeFormat, Option.map_eq_some_iff] at h
  obtain ⟨op, hop, rfl⟩ := h
  rw [opcodeFormat_hasModRM, opcodeOf_hasModRM b op hop]

/-! ### The ModRM byte of an encoded operand -/

theorem dispBytes_modRMByte : ∀ (k : BitVec 2) (g r : BitVec 3),
    dispBytes (modRMByte k g r) = if k = 1 then 1 else if k = 2 then 4 else 0 := by
  decide

theorem regField_headD_encodeRM (rm : RM) (g : BitVec 3) (tail : List Byte) (d : Byte) :
    regField ((encodeRM rm g ++ tail).headD d) = g := by
  cases rm <;> simp [encodeRM]

theorem dispBytes_headD_encodeRM (rm : RM) (g : BitVec 3) (tail : List Byte) (d : Byte) :
    dispBytes ((encodeRM rm g ++ tail).headD d) = dispSize rm := by
  cases rm <;> simp [encodeRM, dispSize, dispBytes_modRMByte]

theorem dispSize_eq_four {rm : RM} : dispSize rm = 4 ↔ ∃ base disp, rm = .memDisp32 base disp := by
  cases rm <;> simp [dispSize]

/-- The bytes after a ModRM byte are its displacement and what follows the operand. -/
theorem length_of_encodeRM {m : Byte} {bs tail : List Byte} {rm : RM} {g : BitVec 3}
    (h : m :: bs = encodeRM rm g ++ tail) : bs.length = dispBytes m + tail.length := by
  have hd : dispBytes m = dispSize rm := by
    simpa [← h] using dispBytes_headD_encodeRM rm g tail 0
  have hl : bs.length + 1 = 1 + dispSize rm + tail.length := by
    simpa [encodeRM_length] using congrArg List.length h
  omega

/-! ### What the decoder takes -/

/-- What a reader behind a ModRM byte takes makes up, with the opcode and the ModRM byte, the length of the format. -/
def TakesFormat (k : Byte → List Byte → DecodeResult) (f : BitVec 3 → Format) : Prop :=
  ∀ m bs i rest, k m bs = .ok (i, rest) → 2 + bs.length = (f (regField m)).length (dispBytes m) + rest.length

theorem decodeRmReg_takes (f : RM → Reg → Instr) : TakesFormat (decodeRmReg f) fun _ => .opM := by
  intro m bs i rest h
  obtain ⟨rm, r, -, -, hbs⟩ := decodeRmReg_ok h
  simp only [Format.length, length_of_encodeRM hbs, Nat.add_assoc]

theorem decodeRmOnly_takes (f : RM → Instr) : TakesFormat (decodeRmOnly f) fun _ => .opM := by
  intro m bs i rest h
  obtain ⟨rm, -, -, hbs⟩ := decodeRmOnly_ok h
  simp only [Format.length, length_of_encodeRM hbs, Nat.add_assoc]

theorem decodeRmImm8_takes (f : RM → Byte → Instr) : TakesFormat (decodeRmImm8 f) fun _ => .opMI8 := by
  intro m bs i rest h
  obtain ⟨rm, imm, -, -, hbs⟩ := decodeRmImm8_ok h
  rw [List.append_assoc] at hbs
  simp only [Format.length, length_of_encodeRM hbs, List.length_append, List.length_singleton]
  omega

theorem decodeRmImm32_takes (f : RM → Word → Instr) : TakesFormat (decodeRmImm32 f) fun _ => .opMI32 := by
  intro m bs i rest h
  obtain ⟨rm, imm, -, -, hbs⟩ := decodeRmImm32_ok h
  rw [List.append_assoc] at hbs
  simp only [Format.length, length_of_encodeRM hbs, List.length_append, bytesOfWord_length]
  omega

/-- A group that goes on as one of its digits does takes the format of its digits. -/
theorem decodeShiftGroup_takes {k : ShiftOp → Byte → List Byte → DecodeResult} {f : BitVec 3 → Format}
    (hk : ∀ op, TakesFormat (k op) f) : TakesFormat (decodeShiftGroup k) f := by
  intro m bs i rest h
  unfold decodeShiftGroup at h
  split at h
  · exact hk _ m bs i rest h
  · cases h

theorem decodeGroupC7_takes : TakesFormat decodeGroupC7 fun _ => .opMI32 := by
  intro m bs i rest h
  unfold decodeGroupC7 at h
  split at h
  · exact decodeRmImm32_takes _ m bs i rest h
  · cases h

theorem decodeGroupFF_takes : TakesFormat decodeGroupFF fun _ => .opM := by
  intro m bs i rest h
  unfold decodeGroupFF at h
  split at h
  · exact decodeRmOnly_takes _ m bs i rest h
  · split at h
    · exact decodeRmOnly_takes _ m bs i rest h
    · cases h

theorem decodeGroupF7_takes : TakesFormat decodeGroupF7 fun g => if g = 0 then .opMI32 else .opM := by
  intro m bs i rest h
  unfold decodeGroupF7 at h
  split at h
  · next h0 =>
    simp only [if_pos h0]
    exact decodeRmImm32_takes _ m bs i rest h
  · next h0 =>
    simp only [if_neg h0]
    split at h
    · exact decodeRmOnly_takes _ m bs i rest h
    · split at h
      · exact decodeRmOnly_takes _ m bs i rest h
      · cases h

/-- The bytes `bs` after the opcode byte, of which `rest` is left, are those of a format `f` given by the digit. -/
def Takes (f : BitVec 3 → Format) (bs rest : List Byte) : Prop :=
  1 + bs.length = (f (regField (bs.headD 0))).length (dispBytes (bs.headD 0)) + rest.length

theorem takes_of_takeByte {k : Byte → List Byte → DecodeResult} {f : BitVec 3 → Format} (hk : TakesFormat k f)
    {bs rest : List Byte} {i : Instr} (h : (do let (m, bs) ← takeByte bs; k m bs) = .ok (i, rest)) :
    Takes f bs rest := by
  obtain ⟨⟨m, bs'⟩, hm, h⟩ := Except.bind_ok_iff.mp h
  obtain rfl := takeByte_ok.mp hm
  have := hk m bs' i rest h
  simp only [Takes, List.headD_cons, List.length_cons]
  omega

theorem length_of_decodeWordField {f : Word → Instr} {bs rest : List Byte} {i : Instr}
    (h : decodeWordField f bs = .ok (i, rest)) : bs.length = 4 + rest.length := by
  obtain ⟨w, -, rfl⟩ := decodeWordField_ok h
  simp

theorem length_of_decodeByteField {f : Byte → Instr} {bs rest : List Byte} {i : Instr}
    (h : decodeByteField f bs = .ok (i, rest)) : bs.length = 1 + rest.length := by
  obtain ⟨v, -, rfl⟩ := decodeByteField_ok h
  simp [Nat.add_comm]

theorem length_of_escape {bs rest : List Byte} {i : Instr} (h : decodeRest .escape bs = .ok (i, rest)) :
    bs.length = 5 + rest.length := by
  obtain ⟨⟨b, bs'⟩, hb, htail⟩ := Except.bind_ok_iff.mp h
  rw [takeByte_ok.mp hb, List.length_cons]
  dsimp only at htail
  split at htail
  · rw [length_of_decodeWordField htail]; omega
  · cases htail

/-- The decoder takes the bytes of the format that the opcode selects. -/
theorem decodeRest_takes {op : Opcode} {bs rest : List Byte} {i : Instr} (h : decodeRest op bs = .ok (i, rest)) :
    Takes (fun g => opcodeFormat g op) bs rest := by
  cases op with
  | aluRmR | aluRRm | testRmR | movRmR | movRRm => exact takes_of_takeByte (decodeRmReg_takes _) h
  | group81 =>
    exact takes_of_takeByte (k := fun m => decodeRmImm32 (aluRmImm32 (AluOp.ofNumber (regField m))) m)
      (fun m => decodeRmImm32_takes _ m) h
  | group83 =>
    exact takes_of_takeByte (k := fun m => decodeRmImm8 (aluRmImm8 (AluOp.ofNumber (regField m))) m)
      (fun m => decodeRmImm8_takes _ m) h
  | groupC1 => exact takes_of_takeByte (decodeShiftGroup_takes fun op => decodeRmImm8_takes _) h
  | groupD1 | groupD3 => exact takes_of_takeByte (decodeShiftGroup_takes fun op => decodeRmOnly_takes _) h
  | groupC7 => exact takes_of_takeByte decodeGroupC7_takes h
  | groupF7 => exact takes_of_takeByte decodeGroupF7_takes h
  | groupFF => exact takes_of_takeByte decodeGroupFF_takes h
  | aluEaxImm32 | pushImm32 | testEaxImm32 | movRImm32 | callRel32 | jmpRel32 =>
    have := length_of_decodeWordField h
    simp only [Takes, opcodeFormat, Format.length]; omega
  | pushImm8 | jccRel8 | jmpRel8 =>
    have := length_of_decodeByteField h
    simp only [Takes, opcodeFormat, Format.length]; omega
  | escape =>
    have := length_of_escape h
    simp only [Takes, opcodeFormat, Format.length]; omega
  | incR | decR | pushR | popR | nop | ret | hlt =>
    cases h
    simp only [Takes, opcodeFormat, Format.length]

theorem decode_cons_ok {b : Byte} {bs rest : List Byte} {i : Instr} (h : decode (b :: bs) = .ok (i, rest)) :
    ∃ op, opcodeOf b = some op ∧ decodeRest op bs = .ok (i, rest) := by
  cases hop : opcodeOf b with
  | none => simp [decode, hop] at h
  | some op => exact ⟨op, rfl, decode_cons hop bs ▸ h⟩

/-- What the decoder takes for an instruction is as long as the format of its first bytes. -/
theorem length_of_decode {b : Byte} {bs rest : List Byte} {i : Instr} (h : decode (b :: bs) = .ok (i, rest)) :
    ∃ f, formatOf b (bs.headD 0) = some f ∧
      (b :: bs).length = f.length (dispBytes (bs.headD 0)) + rest.length := by
  obtain ⟨op, hop, h⟩ := decode_cons_ok h
  have htakes := decodeRest_takes h
  refine ⟨_, by rw [formatOf_eq_opcodeFormat, hop, Option.map_some], ?_⟩
  rw [List.length_cons, Nat.add_comm, htakes]

/-! ### What an encoding holds -/

/-- An encoding is an opcode byte that selects a format, in a format with a ModRM byte the `r/m32` operand with the digit
that selects it, and the other bytes of the format. `OP_M_I32` is the format of `81 /n`, `C7 /0` and `F7 /0`. -/
inductive EncodedAs (i : Instr) : Prop
  | plain {b : Byte} {tail : List Byte} (f : Format) (hrm : i.rm? = none) (henc : encode i = b :: tail)
      (hfmt : ∀ m, formatOf b m = some f) (hplain : f.hasModRM = false) (hlen : (encode i).length = f.length 0)
  | modRM {b : Byte} {rm : RM} {g : BitVec 3} {tail : List Byte} (f : Format) (hrm : i.rm? = some rm)
      (henc : encode i = b :: (encodeRM rm g ++ tail)) (hfmt : ∀ m, regField m = g → formatOf b m = some f)
      (hmod : f.hasModRM = true) (hlen : (encode i).length = f.length (dispSize rm))
      (hten : f = .opMI32 → b = 0x81 ∨ b = 0xC7 ∨ ∃ rm imm, i = .testRmImm32 rm imm)

theorem EncodedAs.opM {i : Instr} {b : Byte} {rm : RM} {g : BitVec 3} (hrm : i.rm? = some rm)
    (henc : encode i = b :: encodeRM rm g) (hfmt : ∀ m, regField m = g → formatOf b m = some .opM) : EncodedAs i :=
  .modRM (tail := []) .opM hrm (by rw [henc, List.append_nil]) hfmt rfl (by rw [henc, length_opM]; rfl) nofun

theorem EncodedAs.opMI8 {i : Instr} {b imm : Byte} {rm : RM} {g : BitVec 3} (hrm : i.rm? = some rm)
    (henc : encode i = b :: (encodeRM rm g ++ [imm])) (hfmt : ∀ m, formatOf b m = some .opMI8) : EncodedAs i :=
  .modRM .opMI8 hrm henc (fun m _ => hfmt m) rfl (by rw [henc, length_opMI8]; rfl) nofun

theorem EncodedAs.opMI32 {i : Instr} {b : Byte} {rm : RM} {g : BitVec 3} {imm : Word} (hrm : i.rm? = some rm)
    (henc : encode i = b :: (encodeRM rm g ++ bytesOfWord imm))
    (hfmt : ∀ m, regField m = g → formatOf b m = some .opMI32)
    (hten : b = 0x81 ∨ b = 0xC7 ∨ ∃ rm imm, i = .testRmImm32 rm imm) : EncodedAs i :=
  .modRM .opMI32 hrm henc hfmt rfl (by rw [henc, length_opMI32]; rfl) fun _ => hten

/-- In the group `F7` the digit selects the format. -/
theorem formatOf_F7 {m : Byte} {g : BitVec 3} (h : regField m = g) :
    formatOf 0xF7 m = some (if g = 0 then .opMI32 else .opM) := by
  rw [formatOf_eq_opcodeFormat, h]; rfl

theorem formatOf_plusReg_opR {hi : BitVec 5} (h : hi ∈ [0b01000, 0b01001, 0b01010, 0b01011]) (r : Reg) (m : Byte) :
    formatOf (plusReg hi r) m = some .opR := by
  simp only [List.mem_cons, List.not_mem_nil, or_false] at h
  rcases h with rfl | rfl | rfl | rfl <;> cases r <;> rfl

theorem formatOf_plusReg_opRI32 (r : Reg) (m : Byte) : formatOf (plusReg 0b10111 r) m = some .opRI32 := by
  cases r <;> rfl

/-- The column "Used by" of R101. -/
theorem encodedAs (i : Instr) : EncodedAs i := by
  cases i with
  | nop | ret | hlt => exact .plain .op rfl rfl (fun _ => rfl) rfl rfl
  | incR | decR | pushR | popR =>
    exact .plain .opR rfl rfl (fun m => formatOf_plusReg_opR (by decide) _ m) rfl rfl
  | movRImm32 => exact .plain .opRI32 rfl rfl (fun m => formatOf_plusReg_opRI32 _ m) rfl rfl
  | pushImm8 => exact .plain .opI8 rfl rfl (fun _ => rfl) rfl rfl
  | addEaxImm32 | orEaxImm32 | adcEaxImm32 | sbbEaxImm32 | andEaxImm32 | subEaxImm32 | xorEaxImm32 | cmpEaxImm32
  | testEaxImm32 | pushImm32 => exact .plain .opI32 rfl rfl (fun _ => rfl) rfl rfl
  | jmpRel8 | joRel8 | jnoRel8 | jbRel8 | jaeRel8 | jeRel8 | jneRel8 | jbeRel8 | jaRel8 | jsRel8 | jnsRel8 | jpRel8
  | jnpRel8 | jlRel8 | jgeRel8 | jleRel8 | jgRel8 => exact .plain .opRel8 rfl rfl (fun _ => rfl) rfl rfl
  | jmpRel32 | callRel32 => exact .plain .opRel32 rfl rfl (fun _ => rfl) rfl rfl
  | joRel32 | jnoRel32 | jbRel32 | jaeRel32 | jeRel32 | jneRel32 | jbeRel32 | jaRel32 | jsRel32 | jnsRel32 | jpRel32
  | jnpRel32 | jlRel32 | jgeRel32 | jleRel32 | jgRel32 => exact .plain .escRel32 rfl rfl (fun _ => rfl) rfl rfl
  | addRmR | orRmR | adcRmR | sbbRmR | andRmR | subRmR | xorRmR | cmpRmR | addRRm | orRRm | adcRRm | sbbRRm | andRRm
  | subRRm | xorRRm | cmpRRm | testRmR | movRmR | movRRm | incRm | decRm | shlRm1 | shrRm1 | sarRm1 | shlRmCl | shrRmCl
  | sarRmCl => exact .opM rfl rfl fun _ _ => rfl
  | notRm | negRm => exact .opM rfl rfl fun _ => formatOf_F7
  | addRmImm8 | orRmImm8 | adcRmImm8 | sbbRmImm8 | andRmImm8 | subRmImm8 | xorRmImm8 | cmpRmImm8 | shlRmImm8 | shrRmImm8
  | sarRmImm8 => exact .opMI8 rfl rfl fun _ => rfl
  | addRmImm32 | orRmImm32 | adcRmImm32 | sbbRmImm32 | andRmImm32 | subRmImm32 | xorRmImm32 | cmpRmImm32 =>
    exact .opMI32 rfl rfl (fun _ _ => rfl) (.inl rfl)
  | movRmImm32 => exact .opMI32 rfl rfl (fun _ _ => rfl) (.inr (.inl rfl))
  | testRmImm32 => exact .opMI32 rfl rfl (fun _ => formatOf_F7) (.inr (.inr ⟨_, _, rfl⟩))

/-- R101 for the encoder: every encoding is as long as the format of its first bytes. -/
theorem length_of_encode {i : Instr} {b : Byte} {rest : List Byte} (h : encode i = b :: rest) :
    ∃ f, formatOf b (rest.headD 0) = some f ∧ (encode i).length = f.length (dispBytes (rest.headD 0)) := by
  cases encodedAs i with
  | plain f hrm henc hfmt hplain hlen =>
    obtain ⟨rfl, rfl⟩ := List.cons.inj (henc.symm.trans h)
    exact ⟨f, hfmt _, hlen.trans (f.length_eq_of_not_hasModRM hplain _ _)⟩
  | modRM f hrm henc hfmt hmod hlen hten =>
    obtain ⟨rfl, rfl⟩ := List.cons.inj (henc.symm.trans h)
    exact ⟨f, hfmt _ (regField_headD_encodeRM ..), by rw [hlen, dispBytes_headD_encodeRM]⟩

/-! ### The clauses of R113 -/

theorem length_encode_of_no_rm {i : Instr} (h : i.rm? = none) : (encode i).length ∈ [1, 2, 5, 6] := by
  cases encodedAs i with
  | plain f hrm henc hfmt hplain hlen => exact hlen ▸ f.length_mem_of_not_hasModRM hplain 0
  | modRM f hrm => exact absurd (h.symm.trans hrm) nofun

theorem length_encode_of_rm {i : Instr} {rm : RM} (h : i.rm? = some rm) :
    (encode i).length ∈ [2 + dispSize rm, 3 + dispSize rm, 6 + dispSize rm] := by
  cases encodedAs i with
  | plain f hrm => exact absurd (h.symm.trans hrm) nofun
  | modRM f hrm henc hfmt hmod hlen hten =>
    obtain rfl := Option.some.inj (h.symm.trans hrm)
    exact hlen ▸ f.length_mem_of_hasModRM hmod _

theorem length_encode_bounds (i : Instr) : 1 ≤ (encode i).length ∧ (encode i).length ≤ 10 := by
  cases h : i.rm? with
  | none =>
    have := length_encode_of_no_rm h
    simp only [List.mem_cons, List.not_mem_nil, or_false] at this
    omega
  | some rm =>
    have := length_encode_of_rm h
    have := dispSize_le rm
    simp only [List.mem_cons, List.not_mem_nil, or_false] at *
    omega

/-- Encodings whose first bytes select one format and one displacement are equally long. -/
theorem length_encode_congr {i j : Instr} {b : Byte} {rest rest' : List Byte} (hi : encode i = b :: rest)
    (hj : encode j = b :: rest') (hf : formatOf b (rest.headD 0) = formatOf b (rest'.headD 0))
    (hd : ∀ f, formatOf b (rest.headD 0) = some f →
      f.length (dispBytes (rest.headD 0)) = f.length (dispBytes (rest'.headD 0))) :
    (encode i).length = (encode j).length := by
  obtain ⟨f, hfi, hli⟩ := length_of_encode hi
  obtain ⟨f', hfj, hlj⟩ := length_of_encode hj
  obtain rfl : f = f' := Option.some.inj (hfi.symm.trans (hf.trans hfj))
  rw [hli, hlj, hd f hfi]

/-- Without a ModRM byte the second byte has no say. -/
theorem formatOf_of_no_modRM {b : Byte} (hb : b.toNat ∉ modRMFirstBytes) (m m' : Byte) :
    formatOf b m = formatOf b m' := by
  have hF7 : b.toNat ≠ 0xF7 := fun h => hb (h ▸ by decide)
  simp only [formatOf, hF7, if_false]

theorem length_encode_of_no_modRM {i j : Instr} {b : Byte} {rest rest' : List Byte} (hi : encode i = b :: rest)
    (hj : encode j = b :: rest') (hb : b.toNat ∉ modRMFirstBytes) : (encode i).length = (encode j).length := by
  refine length_encode_congr hi hj (formatOf_of_no_modRM hb _ _) fun f hf => ?_
  exact f.length_eq_of_not_hasModRM (by rw [hasModRM_of_formatOf hf, decide_eq_false hb]) _ _

theorem length_encode_of_same_mod_digit {i j : Instr} {b m m' : Byte} {rest rest' : List Byte}
    (hi : encode i = b :: m :: rest) (hj : encode j = b :: m' :: rest') (hmod : m.toNat / 64 = m'.toNat / 64)
    (hdigit : m.toNat / 8 % 8 = m'.toNat / 8 % 8) : (encode i).length = (encode j).length := by
  refine length_encode_congr hi hj (formatOf_congr b hdigit) fun f _ => ?_
  rw [List.headD_cons, List.headD_cons, dispBytes, hmod, ← dispBytes]

theorem exists_encode_eq_cons (i : Instr) : ∃ b rest, encode i = b :: rest :=
  List.exists_cons_of_length_pos (length_encode_bounds i).1

theorem length_encode_of_take_two {i j : Instr} (h : (encode i).take 2 = (encode j).take 2) :
    (encode i).length = (encode j).length := by
  obtain ⟨b, rest, hi⟩ := exists_encode_eq_cons i
  obtain ⟨b', rest', hj⟩ := exists_encode_eq_cons j
  rw [hi, hj, List.take_succ_cons, List.take_succ_cons] at h
  obtain ⟨rfl, htake⟩ := List.cons.inj h
  have hhead : rest.headD 0 = rest'.headD 0 := by
    simpa [List.head?_take] using congrArg (List.headD · 0) htake
  exact length_encode_congr hi hj (by rw [hhead]) fun f _ => by rw [hhead]

/-- The 10-byte encodings: `81 /n`, `C7 /0` and `F7 /0` with a 32-bit displacement. -/
theorem length_encode_eq_ten (i : Instr) : (encode i).length = 10 ↔
    ((encode i).head? = some 0x81 ∨ (encode i).head? = some 0xC7 ∨ (∃ rm imm, i = .testRmImm32 rm imm)) ∧
      ∃ base disp, i.rm? = some (.memDisp32 base disp) := by
  cases encodedAs i with
  | plain f hrm henc hfmt hplain hlen =>
    have := length_encode_of_no_rm hrm
    simp only [List.mem_cons, List.not_mem_nil, or_false] at this
    refine iff_of_false (by omega) ?_
    rintro ⟨-, base, disp, h⟩
    exact absurd (hrm.symm.trans h) nofun
  | @modRM b rm g tail f hrm henc hfmt hmod hlen hten =>
    have hopMI32 : f = .opMI32 ↔ (b = 0x81 ∨ b = 0xC7 ∨ ∃ rm imm, i = .testRmImm32 rm imm) := by
      refine ⟨hten, ?_⟩
      have hf := hfmt (modRMByte 0 g 0) (regField_modRMByte ..)
      rintro (rfl | rfl | ⟨rm', imm, rfl⟩)
      · exact (Option.some.inj hf).symm
      · exact (Option.some.inj hf).symm
      · obtain rfl := Option.some.inj hrm
        exact Format.eq_opMI32_of_length hmod (hlen.symm.trans (length_opMI32 ..))
    rw [hlen, f.length_eq_ten (dispSize_le rm), hopMI32, dispSize_eq_four, henc, hrm]
    simp only [List.head?_cons, Option.some.injEq]

/-! ### The statement -/

/-- Settles O4: encoder and decoder keep to the length of the format that the first bytes select, and the other clauses
are about formats. -/
theorem lengthIsFixedByFormatAndMod : Obligations.LengthIsFixedByFormatAndMod := by
  refine ⟨fun i b rest h => length_of_encode h, fun b bs rest i h => length_of_decode h,
    fun i j b rest rest' hi hj hb => length_encode_of_no_modRM hi hj hb,
    fun i j b m m' rest rest' hi hj _ hmod hdigit => length_encode_of_same_mod_digit hi hj hmod hdigit,
    fun i => ?_, length_encode_bounds, rfl, length_encode_eq_ten, fun i j h => length_encode_of_take_two h⟩
  cases h : i.rm? with
  | none => exact length_encode_of_no_rm h
  | some rm => exact ⟨dispSize rm, by cases rm <;> rfl, length_encode_of_rm h⟩

end Sys2Proof.Machine
end

section
/-! Proofs: the ALU's addition and subtraction (40_alu_flags.md R152, R153). Bit 4 of `a ^ b ^ r` is the carry into it,
and the subtraction is the addition of the complement with the carry in inverted. -/

namespace Sys2Proof.Machine

/-! ### The flags of a result -/

theorem zeroFlag_eq_decide (r : Word) : zeroFlag r = decide (r.toNat = 0) := by
  rw [Bool.eq_iff_iff, zeroFlag_iff, decide_eq_true_iff, ← BitVec.toNat_inj]
  rfl

theorem signFlag_eq_decide (r : Word) : signFlag r = decide (2 ^ 31 ≤ r.toNat) := by
  rw [Bool.eq_iff_iff, signFlag_iff, decide_eq_true_iff]

/-! ### Addition -/

theorem addCore_value (a b : Word) (cin : Bool) :
    (addCore a b cin).value = a + b + BitVec.setWidth 32 (BitVec.ofBool cin) := by
  apply BitVec.eq_of_toNat_eq
  rw [addCore_toNat]
  cases cin <;> simp [BitVec.toNat_add]

/-- Where the operands' bits and the sum's are compared, what remains is the carry into that bit. -/
theorem getLsbD_xor_addCore (a b : Word) (cin : Bool) {i : Nat} (hi : i < 32) :
    (a ^^^ b ^^^ (addCore a b cin).value).getLsbD i = BitVec.carry i a b cin := by
  rw [addCore_value, BitVec.getLsbD_xor, BitVec.getLsbD_xor, BitVec.getLsbD_add_add_bool hi]
  cases a.getLsbD i <;> cases b.getLsbD i <;> simp

theorem addCore_af (a b : Word) (cin : Bool) :
    (addCore a b cin).flags.af = some (decide (16 ≤ a.toNat % 16 + b.toNat % 16 + cin.toNat)) :=
  congrArg some (getLsbD_xor_addCore a b cin (by decide : 4 < 32))

theorem addCore_toInt (a b : Word) (cin : Bool) :
    (addCore a b cin).value.toInt = (a.toInt + b.toInt + cin.toNat).bmod (2 ^ 32) := by
  rw [addCore_value, BitVec.toInt_add, BitVec.toInt_add, Int.bmod_add_bmod]
  cases cin <;> rfl

/-- The signed sum is out of range exactly when it is off the signed reading of the result, which then has the sign that
neither operand has. -/
theorem addCore_of (a b : Word) (cin : Bool) :
    (addCore a b cin).flags.of = some (signedOverflow (a.toInt + b.toInt + cin.toNat)) := by
  refine congrArg some (?_ : ((a ^^^ (addCore a b cin).value) &&& (b ^^^ (addCore a b cin).value)).msb = _)
  have hr := addCore_toInt a b cin
  have ha := BitVec.le_toInt a
  have ha' := BitVec.toInt_lt (x := a)
  have hb := BitVec.le_toInt b
  have hb' := BitVec.toInt_lt (x := b)
  have hc := Bool.toNat_le cin
  rw [Int.bmod_def] at hr
  rw [BitVec.msb_and, BitVec.msb_xor, BitVec.msb_xor, BitVec.msb_eq_toInt, BitVec.msb_eq_toInt, BitVec.msb_eq_toInt,
    signedOverflow, Bool.eq_iff_iff]
  simp only [Bool.and_eq_true, bne_iff_ne, ne_eq, decide_eq_decide, decide_eq_true_iff]
  omega

/-! ### Subtraction -/

theorem subCore_toNat_borrow (a b : Word) (bin : Bool) :
    (subCore a b bin).value.toNat = (2 ^ 32 + a.toNat - (b.toNat + bin.toNat)) % 2 ^ 32 := by
  have hb := b.isLt
  have hc := Bool.toNat_le bin
  rw [subCore_toNat]
  omega

theorem toNat_not_bool (c : Bool) : (!c).toNat = 1 - c.toNat := by cases c <;> rfl

/-- `a - b - bin` is `a + ~b + (1 - bin)`. -/
theorem subCore_value (a b : Word) (bin : Bool) : (subCore a b bin).value = (addCore a (~~~b) (!bin)).value := by
  have hb := b.isLt
  have hc := Bool.toNat_le bin
  apply BitVec.eq_of_toNat_eq
  rw [subCore_toNat_borrow, addCore_toNat, BitVec.toNat_not, toNat_not_bool]
  omega

/-- The borrow out of bit 3 is the inverse of the carry of the complement's addition. -/
theorem subCore_af_eq_not (a b : Word) (bin : Bool) :
    (subCore a b bin).flags.af = (addCore a (~~~b) (!bin)).flags.af.map (!·) := by
  suffices (a ^^^ b ^^^ (subCore a b bin).value).getLsbD 4 =
      !(a ^^^ ~~~b ^^^ (addCore a (~~~b) (!bin)).value).getLsbD 4 from congrArg some this
  simp [subCore_value]

/-- The two overflow formulas agree: where `r` has not the sign of `a`, the signs of `a` and `b` differ exactly when
those of `~b` and `r` do. -/
theorem subCore_of_eq (a b : Word) (bin : Bool) :
    (subCore a b bin).flags.of = (addCore a (~~~b) (!bin)).flags.of := by
  suffices ((a ^^^ b) &&& (a ^^^ (subCore a b bin).value)).msb =
      ((a ^^^ (addCore a (~~~b) (!bin)).value) &&& (~~~b ^^^ (addCore a (~~~b) (!bin)).value)).msb from
    congrArg some this
  rw [subCore_value]
  simp only [BitVec.msb_and, BitVec.msb_xor, BitVec.msb_not]
  cases a.msb <;> cases b.msb <;> simp

theorem toInt_complement (b : Word) : (~~~b).toInt = -b.toInt - 1 := by
  have hb := b.isLt
  simp only [BitVec.toInt_eq_toNat_cond, BitVec.toNat_not]
  omega

theorem subCore_af (a b : Word) (bin : Bool) :
    (subCore a b bin).flags.af = some (decide (a.toNat % 16 < b.toNat % 16 + bin.toNat)) := by
  have hb := b.isLt
  have hc := Bool.toNat_le bin
  rw [subCore_af_eq_not, addCore_af, Option.map_some, ← decide_not, BitVec.toNat_not, toNat_not_bool, Option.some_inj,
    decide_eq_decide]
  omega

theorem subCore_of (a b : Word) (bin : Bool) :
    (subCore a b bin).flags.of = some (signedOverflow (a.toInt - b.toInt - bin.toNat)) := by
  have hc := Bool.toNat_le bin
  have hsum : a.toInt + (~~~b).toInt + (!bin).toNat = a.toInt - b.toInt - bin.toNat := by
    rw [toInt_complement, toNat_not_bool]
    omega
  rw [subCore_of_eq, addCore_of, hsum]

/-! ### The statements -/

/-- Settles O30: `OF` is the test of the signed range, `AF` the carry into bit 4, and `CF` and the formulas are the
definition's own. -/
theorem addCoreFlagsAreExact : Obligations.AddCoreFlagsAreExact := fun a b cin =>
  ⟨addCore_toNat a b cin, rfl, rfl, addCore_of a b cin, rfl, addCore_af a b cin,
    congrArg some (zeroFlag_eq_decide _), congrArg some (signFlag_eq_decide _), congrArg some (parityFlag_eq _)⟩

/-- Settles O31: the overflow and the borrow out of the low nibble are read off the addition of the complement. -/
theorem subCoreFlagsAreExact : Obligations.SubCoreFlagsAreExact := fun a b bin =>
  ⟨subCore_toNat_borrow a b bin, rfl, rfl, subCore_of a b bin, rfl, subCore_af a b bin,
    congrArg some (zeroFlag_eq_decide _), congrArg some (signFlag_eq_decide _), congrArg some (parityFlag_eq _)⟩

end Sys2Proof.Machine
end

section
/-! Proofs: the two-operand arithmetic, logic and compare instructions (41_arith_logic.md R180 to R189). What a completed
form leaves is said once for the body that writes its result and once for the body that writes flags alone; a rule then
says what its core computes. -/

namespace Sys2Proof.Machine

/-! ### Encodings (30_encoding.md R115) -/

/-- The number `n` of an ALU operation, which is its digit in the groups `81` and `83`. -/
def aluNumber : AluOp → BitVec 3
  | .add => 0
  | .or => 1
  | .adc => 2
  | .sbb => 3
  | .and => 4
  | .sub => 5
  | .xor => 6
  | .cmp => 7

theorem ofNumber_aluNumber (op : AluOp) : AluOp.ofNumber (aluNumber op) = op := by cases op <;> rfl

/-- The opcode of an ALU operation outside the groups: `n` in bits 5 to 3, the form in bits 2 to 0. -/
def aluOpcode (op : AluOp) (form : BitVec 3) : Byte := modRMByte 0 (aluNumber op) form

theorem encode_aluRmR (op : AluOp) (rm : RM) (r : Reg) :
    encode (aluRmR op rm r) = aluOpcode op 1 :: encodeRM rm r.number := by cases op <;> rfl

theorem encode_aluRRm (op : AluOp) (r : Reg) (rm : RM) :
    encode (aluRRm op r rm) = aluOpcode op 3 :: encodeRM rm r.number := by cases op <;> rfl

theorem encode_aluEaxImm32 (op : AluOp) (imm : Word) :
    encode (aluEaxImm32 op imm) = aluOpcode op 5 :: bytesOfWord imm := by cases op <;> rfl

theorem encode_aluRmImm32 (op : AluOp) (rm : RM) (imm : Word) :
    encode (aluRmImm32 op rm imm) = 0x81 :: (encodeRM rm (aluNumber op) ++ bytesOfWord imm) := by cases op <;> rfl

theorem encode_aluRmImm8 (op : AluOp) (rm : RM) (imm : Byte) :
    encode (aluRmImm8 op rm imm) = 0x83 :: (encodeRM rm (aluNumber op) ++ [imm]) := by cases op <;> rfl

/-- `F7 /1` is no form of `TEST` (30_encoding.md R115). -/
theorem decode_F7_digit_one {m : Byte} (h : m.toNat / 8 % 8 = 1) (bs : List Byte) :
    decode (0xF7 :: m :: bs) = .error .digit := by
  have hdigit : regField m = 1 := BitVec.eq_of_toNat_eq ((toNat_regField m).trans h)
  rw [decode_cons (op := .groupF7) rfl, decodeRest, takeByte_cons, Except.ok_bind']
  simp [decodeGroupF7, hdigit]

/-! ### The flags an operation leaves -/

/-- The flags of the state are those that a flag map names. -/
def HoldsFlags (t : State) (m : FlagMap) : Prop := ∀ f b, m.get f = some b → t.testFlag f = b

theorem holdsFlags_writeFlags (s : State) (m : FlagMap) : HoldsFlags (s.writeFlags m) m := fun f b h => by
  rw [State.testFlag_writeFlags, h, Option.getD_some]

/-- A full map read as the statements' predicates (40_alu_flags.md R151). -/
theorem HoldsFlags.of_eq_allFlags {t : State} {m : FlagMap} {r : Word} {cf of af : Bool} (h : HoldsFlags t m)
    (hm : m = allFlags r cf of af) : ResultFlags t r ∧ CarryFlags t cf of af := by
  subst hm
  exact ⟨⟨(h .zf _ rfl).trans (zeroFlag_eq_decide r), (h .sf _ rfl).trans (signFlag_eq_decide r),
    (h .pf _ rfl).trans (parityFlag_eq r)⟩, h .cf _ rfl, h .of _ rfl, h .af _ rfl⟩

theorem addCore_flags (a b : Word) (c : Bool) : (addCore a b c).flags =
    allFlags (BitVec.ofNat 32 (a.toNat + b.toNat + c.toNat)) (decide (2 ^ 32 ≤ a.toNat + b.toNat + c.toNat))
      (signedOverflow (a.toInt + b.toInt + c.toNat)) (decide (16 ≤ a.toNat % 16 + b.toNat % 16 + c.toNat)) :=
  congrArg₂ (allFlags _ _) (Option.some.inj (addCore_of a b c)) (Option.some.inj (addCore_af a b c))

theorem addCore_flags_no_carry (a b : Word) : (addCore a b false).flags =
    allFlags (BitVec.ofNat 32 (a.toNat + b.toNat)) (decide (2 ^ 32 ≤ a.toNat + b.toNat))
      (signedOverflow (a.toInt + b.toInt)) (decide (16 ≤ a.toNat % 16 + b.toNat % 16)) := by
  simpa using addCore_flags a b false

theorem subCore_value_eq_ofNat (a b : Word) (c : Bool) :
    (subCore a b c).value = BitVec.ofNat 32 (2 ^ 32 + a.toNat - (b.toNat + c.toNat)) :=
  BitVec.eq_of_toNat_eq (by rw [subCore_toNat_borrow, BitVec.toNat_ofNat])

theorem subCore_flags (a b : Word) (c : Bool) : (subCore a b c).flags =
    allFlags (BitVec.ofNat 32 (2 ^ 32 + a.toNat - (b.toNat + c.toNat))) (decide (a.toNat < b.toNat + c.toNat))
      (signedOverflow (a.toInt - b.toInt - c.toNat)) (decide (a.toNat % 16 < b.toNat % 16 + c.toNat)) := by
  rw [← subCore_value_eq_ofNat]
  exact congrArg₂ (allFlags _ _) (Option.some.inj (subCore_of a b c)) (Option.some.inj (subCore_af a b c))

theorem subCore_flags_no_borrow (a b : Word) : (subCore a b false).flags =
    allFlags (BitVec.ofNat 32 (2 ^ 32 + a.toNat - b.toNat)) (decide (a.toNat < b.toNat))
      (signedOverflow (a.toInt - b.toInt)) (decide (a.toNat % 16 < b.toNat % 16)) := by
  simpa using subCore_flags a b false

/-! ### Completion -/

/-- An instruction that puts a value in an operand, writes flags and advances completes; with an immediate as the operand
it writes flags alone. -/
theorem completesWith_of_exec_put {i : Instr} {s : State} {o : Operand} {v : Word} {m : FlagMap} {P : State → Prop}
    (hexec : exec i s = .next (((s.put o v).writeFlags m).advance (encode i).length))
    (hP : P (((s.put o v).writeFlags m).advance (encode i).length)) : CompletesWith i s P :=
  ⟨_, hexec, by simp [State.nextEip, BitVec.toNat_add], by simp, by simp, by simp, hP⟩

/-- The body with a result, both operands readable: the result is in the destination and its flags are written. -/
theorem completesWith_twoOperand {i : Instr} {s : State} {core : Word → Word → AluResult} {dst src : Operand}
    {a b : Word} {P : State → Prop} (hexec : exec i s = .next (twoOperand core dst src (encode i).length s))
    (hwf : s.mem.wf) (hdst : ∀ w, dst ≠ .imm w) (ha : s.readOp dst = .ok a) (hb : s.readOp src = .ok b)
    (hP : ∀ t, t.readOp dst = .ok (core a b).value → HoldsFlags t (core a b).flags → P t) : CompletesWith i s P := by
  rw [twoOperand_ok ha hb] at hexec
  refine completesWith_of_exec_put hexec (hP _ ?_ (holdsFlags_writeFlags _ _))
  rw [State.advance_readOp, State.writeFlags_readOp, State.readOp_put _ hwf (State.accessible_of_readOp ha) hdst]

/-- The body without a result, both operands readable: the flags are written, no register and no byte of memory. -/
theorem completesWith_compareOperands {i : Instr} {s : State} {core : Word → Word → AluResult} {fst snd : Operand}
    {a b : Word} {P : State → Prop} (hexec : exec i s = .next (compareOperands core fst snd (encode i).length s))
    (ha : s.readOp fst = .ok a) (hb : s.readOp snd = .ok b)
    (hP : ∀ t, t.regs = s.regs → t.mem = s.mem → HoldsFlags t (core a b).flags → P t) : CompletesWith i s P := by
  rw [compareOperands_ok ha hb] at hexec
  exact completesWith_of_exec_put (o := .imm 0) (v := 0) hexec (hP _ rfl rfl (holdsFlags_writeFlags _ _))

theorem exec_aluForm_error {i : Instr} {op : AluOp} {dst src : Operand} {s : State}
    (hi : aluForm i = some (op, dst, src)) (h : ¬ Accessible s dst ∨ ¬ Accessible s src) :
    exec i s = .next (faultedWith s .outOfBounds) := by
  rw [exec_of_aluForm hi, twoOperand_error h, compareOperands_error h, ite_self, State.raise_eq_faultedWith]

theorem exec_testForm_error {i : Instr} {fst snd : Operand} {s : State} (hi : testForm i = some (fst, snd))
    (h : ¬ Accessible s fst ∨ ¬ Accessible s snd) : exec i s = .next (faultedWith s .outOfBounds) := by
  rw [exec_of_testForm hi, compareOperands_error h, State.raise_eq_faultedWith]

/-! ### The shape of the rules -/

/-- Encodings and errors are alike for all eight operations: what is left of a rule is its effect on readable operands. -/
theorem twoOperandRule_of_completes {op : AluOp} {effect : State → Operand → Word → Word → State → Prop}
    (h : ∀ i dst src s a b, aluForm i = some (op, dst, src) → s.mem.wf → s.readOp dst = .ok a → s.readOp src = .ok b →
      CompletesWith i s (effect s dst a b)) :
    TwoOperandRule op (aluOpcode op 1) (aluOpcode op 3) (aluOpcode op 5) (aluNumber op) effect :=
  ⟨encode_aluRmR op, encode_aluRRm op, encode_aluEaxImm32 op, encode_aluRmImm32 op, encode_aluRmImm8 op, h,
    fun _ _ _ _ hi hacc => exec_aluForm_error hi hacc⟩

/-- An operation with a result has the effect that its core's result and flags amount to. -/
theorem twoOperandRule_of_core {op : AluOp} (hop : op ≠ .cmp)
    {effect : State → Operand → Word → Word → State → Prop}
    (h : ∀ s dst a b t, t.readOp dst = .ok (aluCore s op a b).value → HoldsFlags t (aluCore s op a b).flags →
      effect s dst a b t) :
    TwoOperandRule op (aluOpcode op 1) (aluOpcode op 3) (aluOpcode op 5) (aluNumber op) effect := by
  refine twoOperandRule_of_completes fun i dst src s a b hi hwf ha hb => ?_
  have hexec := exec_of_aluForm hi s
  rw [if_neg hop] at hexec
  exact completesWith_twoOperand hexec hwf (aluForm_dst_ne_imm hi) ha hb (h s dst a b)

/-- `CMP` has the effect that its core's flags amount to. -/
theorem twoOperandRule_cmp {effect : State → Operand → Word → Word → State → Prop}
    (h : ∀ s dst a b t, t.regs = s.regs → t.mem = s.mem → HoldsFlags t (subCore a b false).flags → effect s dst a b t) :
    TwoOperandRule .cmp (aluOpcode .cmp 1) (aluOpcode .cmp 3) (aluOpcode .cmp 5) (aluNumber .cmp) effect :=
  twoOperandRule_of_completes fun _ dst _ s a b hi _ ha hb =>
    completesWith_compareOperands (exec_of_aluForm hi s) ha hb (h s dst a b)

/-! ### The statements -/

/-- Settles O33: the addition without a carry in. -/
theorem addWritesSumAndSixFlags : Obligations.AddWritesSumAndSixFlags :=
  twoOperandRule_of_core (op := .add) nofun fun _ _ a b _ hread hflags =>
    ⟨hread, hflags.of_eq_allFlags (addCore_flags_no_carry a b)⟩

/-- Settles O34: the addition with `CF` as the carry in. -/
theorem adcAddsTheCarry : Obligations.AdcAddsTheCarry :=
  twoOperandRule_of_core (op := .adc) nofun fun s _ a b _ hread hflags =>
    ⟨hread, hflags.of_eq_allFlags (addCore_flags a b (s.testFlag .cf))⟩

/-- Settles O35: the subtraction without a borrow in. -/
theorem subWritesDifferenceAndSixFlags : Obligations.SubWritesDifferenceAndSixFlags :=
  twoOperandRule_of_core (op := .sub) nofun fun _ _ a b _ hread hflags =>
    ⟨hread.trans (congrArg _ (subCore_value_eq_ofNat a b false)), hflags.of_eq_allFlags (subCore_flags_no_borrow a b)⟩

/-- Settles O36: the subtraction with `CF` as the borrow in. -/
theorem sbbSubtractsTheBorrow : Obligations.SbbSubtractsTheBorrow :=
  twoOperandRule_of_core (op := .sbb) nofun fun s _ a b _ hread hflags =>
    ⟨hread.trans (congrArg _ (subCore_value_eq_ofNat a b (s.testFlag .cf))),
      hflags.of_eq_allFlags (subCore_flags a b (s.testFlag .cf))⟩

/-- Settles O37: the flags of `SUB`, by the body that writes nothing else. -/
theorem cmpWritesOnlyFlags : Obligations.CmpWritesOnlyFlags :=
  twoOperandRule_cmp fun _ _ a b _ hregs hmem hflags =>
    ⟨hregs, hmem, hflags.of_eq_allFlags (subCore_flags_no_borrow a b)⟩

/-- Settles O38: the flag map of `LogicCore` already has the statement's `CF`, `OF` and `AF`. -/
theorem logicWritesResultAndClearsCarries : Obligations.LogicWritesResultAndClearsCarries :=
  ⟨twoOperandRule_of_core (op := .or) nofun fun _ _ a b _ hread hflags =>
      ⟨a ||| b, hread, fun _ => BitVec.getLsbD_or, hflags.of_eq_allFlags rfl⟩,
    twoOperandRule_of_core (op := .and) nofun fun _ _ a b _ hread hflags =>
      ⟨a &&& b, hread, fun _ => BitVec.getLsbD_and, hflags.of_eq_allFlags rfl⟩,
    twoOperandRule_of_core (op := .xor) nofun fun _ _ a b _ hread hflags =>
      ⟨a ^^^ b, hread, fun _ => BitVec.getLsbD_xor, hflags.of_eq_allFlags rfl⟩⟩

/-- Settles O39: the flags of `AND`, by the body that writes nothing else. -/
theorem testWritesOnlyFlags : Obligations.TestWritesOnlyFlags := by
  refine ⟨fun _ _ => rfl, fun _ => rfl, fun _ _ => rfl, fun _ bs hm => decode_F7_digit_one hm bs,
    fun i fst snd s a b hi ha hb => ?_, fun _ _ _ _ hi hacc => exec_testForm_error hi hacc⟩
  exact completesWith_compareOperands (exec_of_testForm hi s) ha hb fun t hregs hmem hflags =>
    ⟨hregs, hmem, a &&& b, fun _ => BitVec.getLsbD_and, hflags.of_eq_allFlags rfl⟩

end Sys2Proof.Machine
end

section
/-! Proofs: the one-operand arithmetic instructions and the shifts (42_unary_shift.md R200 to R209). What a completed form
leaves is said once, with the flags word the core's map gives; a rule then says what its core computes. -/

namespace Sys2Proof.Machine

/-! ### Encodings (30_encoding.md R107, R115) -/

theorem plusReg_eq_ofNat (hi : BitVec 5) (r : Reg) : plusReg hi r = BitVec.ofNat 8 (8 * hi.toNat + r.number.toNat) := by
  cases r <;> revert hi <;> decide

/-- The digit of a shift in the groups `C1`, `D1` and `D3`. -/
def shiftDigit : ShiftOp → BitVec 3
  | .shl => 4
  | .shr => 5
  | .sar => 7

theorem ofDigit?_shiftDigit (op : ShiftOp) : ShiftOp.ofDigit? (shiftDigit op) = some op := by cases op <;> rfl

theorem encode_shiftRm1 (op : ShiftOp) (rm : RM) : encode (shiftRm1 op rm) = 0xD1 :: encodeRM rm (shiftDigit op) := by
  cases op <;> rfl

theorem encode_shiftRmImm8 (op : ShiftOp) (rm : RM) (imm : Byte) :
    encode (shiftRmImm8 op rm imm) = 0xC1 :: (encodeRM rm (shiftDigit op) ++ [imm]) := by cases op <;> rfl

theorem encode_shiftRmCl (op : ShiftOp) (rm : RM) : encode (shiftRmCl op rm) = 0xD3 :: encodeRM rm (shiftDigit op) := by
  cases op <;> rfl

/-! ### The flags an operation leaves -/

theorem testFlag_of_eflags_eq_apply {s t : State} {m : FlagMap} (h : t.eflags = m.apply s.eflags) (f : Flag) :
    t.testFlag f = (m.get f).getD (s.testFlag f) := by
  rw [State.testFlag, h, flagOf_apply, State.testFlag]

theorem holdsFlags_of_eflags_eq_apply {s t : State} {m : FlagMap} (h : t.eflags = m.apply s.eflags) : HoldsFlags t m :=
  fun f b hf => by rw [testFlag_of_eflags_eq_apply h, hf, Option.getD_some]

/-- A full map but for `CF` leaves the flags of a full map with the old `CF`. -/
theorem holdsFlags_of_carry_unnamed {s t : State} {r : Word} {cf of af : Bool}
    (h : t.eflags = FlagMap.apply { allFlags r cf of af with cf := none } s.eflags) :
    HoldsFlags t (allFlags r (s.testFlag .cf) of af) := by
  intro f b hf
  rw [testFlag_of_eflags_eq_apply h, ← Option.some_inj, ← hf]
  cases f <;> rfl

/-! ### The one-operand cores (40_alu_flags.md R155, R156) -/

/-- One more than the greatest signed word is the only overflow of an increment. -/
theorem signedOverflow_toInt_add_one (a : Word) : signedOverflow (a.toInt + 1) = decide (a.toNat = 2 ^ 31 - 1) := by
  have ha := a.isLt
  rw [signedOverflow, decide_eq_decide, BitVec.toInt_eq_toNat_cond]
  omega

/-- One less than the least signed word is the only overflow of a decrement. -/
theorem signedOverflow_toInt_sub_one (a : Word) : signedOverflow (a.toInt - 1) = decide (a.toNat = 2 ^ 31) := by
  have ha := a.isLt
  rw [signedOverflow, decide_eq_decide, BitVec.toInt_eq_toNat_cond]
  omega

/-- The least signed word is the only one whose negation overflows. -/
theorem signedOverflow_zero_sub_toInt (a : Word) : signedOverflow (0 - a.toInt) = decide (a.toNat = 2 ^ 31) := by
  have ha := a.isLt
  rw [signedOverflow, decide_eq_decide, BitVec.toInt_eq_toNat_cond]
  omega

/-- The low nibble carries into bit 4 when 1 is added to 15. -/
theorem incCore_flags (a : Word) : (incCore a).flags =
    { allFlags (BitVec.ofNat 32 (a.toNat + 1)) (decide (2 ^ 32 ≤ a.toNat + 1)) (decide (a.toNat = 2 ^ 31 - 1))
        (decide (a.toNat % 16 = 15)) with cf := none } := by
  have haf : decide (16 ≤ a.toNat % 16 + 1) = decide (a.toNat % 16 = 15) := decide_eq_decide.mpr (by omega)
  rw [← signedOverflow_toInt_add_one, ← haf]
  exact congrArg (fun m : FlagMap => { m with cf := none }) (addCore_flags_no_carry a 1)

/-- The low nibble borrows from bit 4 when 1 is taken from 0. -/
theorem decCore_flags (a : Word) : (decCore a).flags =
    { allFlags (BitVec.ofNat 32 (2 ^ 32 + a.toNat - 1)) (decide (a.toNat < 1)) (decide (a.toNat = 2 ^ 31))
        (decide (a.toNat % 16 = 0)) with cf := none } := by
  have haf : decide (a.toNat % 16 < 1) = decide (a.toNat % 16 = 0) := decide_eq_decide.mpr Nat.lt_one_iff
  rw [← signedOverflow_toInt_sub_one, ← haf]
  exact congrArg (fun m : FlagMap => { m with cf := none }) (subCore_flags_no_borrow a 1)

/-- Taken from 0, every value borrows but 0, and so does every low nibble. -/
theorem negCore_flags (a : Word) : (negCore a).flags =
    allFlags (BitVec.ofNat 32 (2 ^ 32 - a.toNat)) (decide (a.toNat ≠ 0)) (decide (a.toNat = 2 ^ 31))
      (decide (a.toNat % 16 ≠ 0)) := by
  have hne (n : Nat) : decide (n ≠ 0) = decide (0 < n) := decide_eq_decide.mpr Nat.pos_iff_ne_zero.symm
  rw [← signedOverflow_zero_sub_toInt, hne, hne]
  exact subCore_flags_no_borrow 0 a

theorem notCore_value (a : Word) : (notCore a).value = BitVec.ofNat 32 (2 ^ 32 - 1 - a.toNat) :=
  BitVec.eq_of_toNat_eq (by simp only [notCore, BitVec.toNat_not, BitVec.toNat_ofNat]; omega)

/-! ### The shift cores (40_alu_flags.md R157 to R159) -/

theorem shlCore_value (a : Word) (c : Nat) : (shlCore a c).value = BitVec.ofNat 32 (a.toNat * 2 ^ c) :=
  BitVec.eq_of_toNat_eq (by simp [shlCore, Nat.shiftLeft_eq])

theorem shrCore_value (a : Word) (c : Nat) : (shrCore a c).value = BitVec.ofNat 32 (a.toNat / 2 ^ c) := by
  rw [← Nat.shiftRight_eq_div_pow, ← BitVec.toNat_ushiftRight, BitVec.ofNat_toNat, BitVec.setWidth_eq]
  rfl

theorem sarCore_value (a : Word) (c : Nat) : (sarCore a c).value = BitVec.ofInt 32 (a.toInt / 2 ^ c) := by
  have hdiv : (sarCore a c).value.toInt = a.toInt / 2 ^ c := by
    rw [sarCore, BitVec.toInt_sshiftRight, Int.shiftRight_eq_div_pow, Nat.cast_pow, Nat.cast_ofNat]
  rw [← hdiv, BitVec.ofInt_toInt]

/-- The sign of a word is its bit 31. -/
theorem msb_eq_testBit (w : Word) : w.msb = w.toNat.testBit 31 := BitVec.msb_eq_getLsbD_last w

theorem shlCore_flags (a : Word) (c : Nat) : (shlCore a c).flags =
    allFlags (shlCore a c).value (a.toNat.testBit (32 - c))
      (if c = 1 then (shlCore a c).value.toNat.testBit 31 ^^ a.toNat.testBit (32 - c)
        else Config.archUndef .shl .of a (BitVec.ofNat 32 c))
      (Config.archUndef .shl .af a (BitVec.ofNat 32 c)) := by
  rw [← msb_eq_testBit]
  rfl

theorem shrCore_flags (a : Word) (c : Nat) : (shrCore a c).flags =
    allFlags (shrCore a c).value (a.toNat.testBit (c - 1))
      (if c = 1 then a.toNat.testBit 31 else Config.archUndef .shr .of a (BitVec.ofNat 32 c))
      (Config.archUndef .shr .af a (BitVec.ofNat 32 c)) := by
  rw [← msb_eq_testBit]
  rfl

/-! ### Completion and the shape of the rules -/

/-- An instruction that writes a core's result over its operand, then its flags, completes with the result in the operand
and the flags word that the map gives. -/
theorem completesWith_of_exec_result {i : Instr} {s : State} {dst : Operand} {a : Word} {x : AluResult}
    {P : State → Prop} (hexec : exec i s = .next (((s.put dst x.value).writeFlags x.flags).advance (encode i).length))
    (hwf : s.mem.wf) (hdst : ∀ w, dst ≠ .imm w) (ha : s.readOp dst = .ok a)
    (hP : ∀ t, t.readOp dst = .ok x.value → t.eflags = x.flags.apply s.eflags → P t) : CompletesWith i s P := by
  refine completesWith_of_exec_put hexec (hP _ ?_ ?_)
  · rw [State.advance_readOp, State.writeFlags_readOp, State.readOp_put _ hwf (State.accessible_of_readOp ha) hdst]
  · rw [State.advance_eflags, State.writeFlags_eflags, State.put_eflags]

/-- A one-operand instruction has the effect that its core's result and flag map amount to; its error is alike for all
four. -/
theorem oneOperandRule_of_core {op : UnaryOp} {effect : State → Operand → Word → State → Prop}
    (h : ∀ s dst a t, t.readOp dst = .ok (unaryCore op a).value → t.eflags = (unaryCore op a).flags.apply s.eflags →
      effect s dst a t) : OneOperandRule op effect := by
  refine ⟨fun i dst s a hi hwf ha => ?_, fun i dst s hi hacc => ?_⟩
  · have hexec := exec_of_unaryForm hi s
    rw [oneOperand_ok ha] at hexec
    exact completesWith_of_exec_result hexec hwf (unaryForm_dst_ne_imm hi) ha (h s dst a)
  · rw [exec_of_unaryForm hi, oneOperand_error hacc, State.raise_eq_faultedWith]

/-- A masked count of 0 reads the operand and advances. -/
theorem exec_shiftForm_zero {i : Instr} {op : ShiftOp} {dst : Operand} {s : State} {a : Word}
    (hi : shiftForm s i = some (op, dst, 0)) (ha : s.readOp dst = .ok a) :
    exec i s = .next (s.advance (encode i).length) := by
  obtain ⟨source, hcount, hexec⟩ := exec_of_shiftForm hi
  rw [hexec, shiftOperand_ok ha, if_pos hcount]

/-- Any other count writes the core's result and flags. -/
theorem exec_shiftForm_nonzero {i : Instr} {op : ShiftOp} {dst : Operand} {s : State} {a : Word} {c : Nat}
    (hi : shiftForm s i = some (op, dst, c)) (hc : c ≠ 0) (ha : s.readOp dst = .ok a) :
    exec i s = .next (((s.put dst (shiftCore op a c).value).writeFlags (shiftCore op a c).flags).advance
      (encode i).length) := by
  obtain ⟨source, rfl, hexec⟩ := exec_of_shiftForm hi
  rw [hexec, shiftOperand_ok ha, if_neg hc]

/-- The operand is read whatever the count. -/
theorem exec_shiftForm_error {i : Instr} {op : ShiftOp} {dst : Operand} {s : State} {c : Nat}
    (hi : shiftForm s i = some (op, dst, c)) (hacc : ¬ Accessible s dst) :
    exec i s = .next (faultedWith s .outOfBounds) := by
  obtain ⟨source, -, hexec⟩ := exec_of_shiftForm hi
  rw [hexec, shiftOperand_error hacc, State.raise_eq_faultedWith]

theorem State.advance_eq (s : State) (len : Nat) :
    s.advance len = { s with eip := BitVec.ofNat 32 (s.eip.toNat + len) } := by
  have heip : s.nextEip len = BitVec.ofNat 32 (s.eip.toNat + len) :=
    BitVec.eq_of_toNat_eq (by simp [State.nextEip, BitVec.toNat_add])
  exact congrArg (fun e => { s with eip := e }) heip

/-- Encodings, count 0 and errors are alike for all three shifts: what is left of a rule is what its core's result and
flags amount to. -/
theorem shiftRule_of_core {op : ShiftOp} {effect : State → Operand → Word → Nat → State → Prop}
    (h : ∀ s dst a c t, t.readOp dst = .ok (shiftCore op a c).value → HoldsFlags t (shiftCore op a c).flags →
      effect s dst a c t) : ShiftRule op (shiftDigit op) effect := by
  refine ⟨encode_shiftRm1 op, encode_shiftRmImm8 op, encode_shiftRmCl op, fun i dst s a hi ha => ?_,
    fun i dst s a c hi hc hwf ha => ?_, fun i dst s c hi hacc => exec_shiftForm_error hi hacc⟩
  · rw [exec_shiftForm_zero hi ha, State.advance_eq]
  · exact completesWith_of_exec_result (exec_shiftForm_nonzero hi hc ha) hwf (shiftForm_dst_ne_imm hi) ha
      fun t hread hflags => h s dst a c t hread (holdsFlags_of_eflags_eq_apply hflags)

/-! ### The statements -/

/-- Settles O40: the addition and the subtraction of 1, with `CF` out of the flag map. -/
theorem incAndDecKeepTheCarry : Obligations.IncAndDecKeepTheCarry := by
  refine ⟨fun r => congrArg (· :: []) (plusReg_eq_ofNat 0b01000 r), fun _ => rfl,
    fun r => congrArg (· :: []) (plusReg_eq_ofNat 0b01001 r), fun _ => rfl,
    oneOperandRule_of_core fun s dst a t hread hflags => ?_, oneOperandRule_of_core fun s dst a t hread hflags => ?_⟩
  · rw [unaryCore, incCore_flags] at hflags
    exact ⟨hread, (holdsFlags_of_carry_unnamed hflags).of_eq_allFlags rfl⟩
  · rw [unaryCore, decCore_flags] at hflags
    exact ⟨hread.trans (congrArg _ (subCore_value_eq_ofNat a 1 false)),
      (holdsFlags_of_carry_unnamed hflags).of_eq_allFlags rfl⟩

/-- Settles O41: `NEG` is the subtraction from 0, and the flag map of `NOT` is empty. -/
theorem negAndNotResults : Obligations.NegAndNotResults := by
  refine ⟨fun _ => rfl, fun _ => rfl, oneOperandRule_of_core fun s dst a t hread hflags => ?_,
    oneOperandRule_of_core fun s dst a t hread hflags => ?_⟩
  · exact ⟨hread.trans (congrArg _ (subCore_value_eq_ofNat 0 a false)),
      (holdsFlags_of_eflags_eq_apply hflags).of_eq_allFlags (negCore_flags a)⟩
  · exact ⟨hread.trans (congrArg _ (notCore_value a)), hflags⟩

/-- Settles O42: the left shift is the product with `2^c`, and the flag map has the statement's `CF`, `OF` and `AF`. -/
theorem shlShiftsLeft : Obligations.ShlShiftsLeft :=
  shiftRule_of_core (op := .shl) fun _ _ a c _ hread hflags => by
    simp only [← shlCore_value]
    exact ⟨hread, hflags.of_eq_allFlags (shlCore_flags a c)⟩

/-- Settles O43: the right shifts are the quotients by `2^c` of the unsigned and of the signed reading. -/
theorem shrAndSarShiftRight : Obligations.ShrAndSarShiftRight :=
  ⟨shiftRule_of_core (op := .shr) fun _ _ a c _ hread hflags => by
      simp only [← shrCore_value]
      exact ⟨hread, hflags.of_eq_allFlags (shrCore_flags a c)⟩,
    shiftRule_of_core (op := .sar) fun _ _ a c _ hread hflags => by
      simp only [← sarCore_value]
      exact ⟨hread, hflags.of_eq_allFlags rfl⟩⟩

end Sys2Proof.Machine
end

section
/-! Proofs: the data movement instructions `MOV` and `NOP` (43_data_movement.md R221, R224). A move is a put with no flag
named; the refused encodings are those of the digit and of the `r/m32` operand. -/

namespace Sys2Proof.Machine

/-! ### Refused encodings (30_encoding.md R103, R115) -/

theorem toNat_modField (m : Byte) : (modField m).toNat = m.toNat / 64 := by
  revert m; decide

theorem toNat_rmField (m : Byte) : (rmField m).toNat = m.toNat % 8 := by
  revert m; decide

/-- `rm` = 4 selects `esp` and `rm` = 5 `ebp`, which the form with the `mod` field refuses. -/
theorem decodeRM_of_refusedModRM {m : Byte} (h : refusedModRM m) (bs : List Byte) : decodeRM m bs = .error .modRM := by
  rw [refusedModRM, ← toNat_modField, ← toNat_rmField] at h
  obtain ⟨hrm, hmod⟩ | ⟨hrm, hmod⟩ := h
  · have hbase : Reg.ofNumber (rmField m) = .esp := by simp only [Reg.ofNumber, hrm]
    have hne : modField m ≠ 3#2 := fun heq => hmod (by rw [heq]; rfl)
    simp [decodeRM, hbase, hne]
  · have hbase : Reg.ofNumber (rmField m) = .ebp := by simp only [Reg.ofNumber, hrm]
    have hzero : modField m = 0 := BitVec.eq_of_toNat_eq hmod
    simp [decodeRM, hbase, hzero]

theorem decodeRmReg_of_refusedModRM {m : Byte} (h : refusedModRM m) (f : RM → Reg → Instr) (bs : List Byte) :
    decodeRmReg f m bs = .error .modRM := by
  rw [decodeRmReg, decodeRM_of_refusedModRM h, Except.error_bind']

theorem decodeRmImm32_of_refusedModRM {m : Byte} (h : refusedModRM m) (f : RM → Word → Instr) (bs : List Byte) :
    decodeRmImm32 f m bs = .error .modRM := by
  rw [decodeRmImm32, decodeRM_of_refusedModRM h, Except.error_bind']

theorem decode_89 (m : Byte) (bs : List Byte) : decode (0x89 :: m :: bs) = decodeRmReg .movRmR m bs :=
  decode_cons (op := .movRmR) rfl (m :: bs)

theorem decode_8B (m : Byte) (bs : List Byte) :
    decode (0x8B :: m :: bs) = decodeRmReg (fun rm r => .movRRm r rm) m bs :=
  decode_cons (op := .movRRm) rfl (m :: bs)

theorem decode_C7 (m : Byte) (bs : List Byte) : decode (0xC7 :: m :: bs) = decodeGroupC7 m bs :=
  decode_cons (op := .groupC7) rfl (m :: bs)

theorem regField_eq_zero_iff (m : Byte) : regField m = 0 ↔ m.toNat / 8 % 8 = 0 := by
  rw [← toNat_regField, ← BitVec.toNat_inj]
  rfl

theorem decodeGroupC7_of_digit_ne_zero {m : Byte} (h : m.toNat / 8 % 8 ≠ 0) (bs : List Byte) :
    decodeGroupC7 m bs = .error .digit :=
  if_neg (mt (regField_eq_zero_iff m).mp h)

theorem decodeGroupC7_of_digit_zero {m : Byte} (h : m.toNat / 8 % 8 = 0) (bs : List Byte) :
    decodeGroupC7 m bs = decodeRmImm32 .movRmImm32 m bs :=
  if_pos ((regField_eq_zero_iff m).mpr h)

/-! ### Completion and error -/

/-- A move writes no flag: it is a put with the empty flag map. -/
theorem completesWith_of_moveForm {i : Instr} {dst src : Operand} {s : State} {v : Word}
    (hi : moveForm i = some (dst, src)) (hwf : s.mem.wf) (hdst : Accessible s dst) (hsrc : s.readOp src = .ok v) :
    CompletesWith i s fun t => t.readOp dst = .ok v ∧ t.eflags = s.eflags := by
  have hexec := exec_of_moveForm hi s
  rw [moveOperand_ok hdst hsrc] at hexec
  refine completesWith_of_exec_put (m := {}) hexec ⟨?_, s.put_eflags dst v⟩
  rw [State.advance_readOp, State.writeFlags_readOp, State.readOp_put v hwf hdst (moveForm_dst_ne_imm hi)]

theorem exec_moveForm_error {i : Instr} {dst src : Operand} {s : State} (hi : moveForm i = some (dst, src))
    (h : ¬ Accessible s dst ∨ ¬ Accessible s src) : exec i s = .next (faultedWith s .outOfBounds) := by
  rw [exec_of_moveForm hi, moveOperand_error h, State.raise_eq_faultedWith]

theorem exec_nop (s : State) : exec .nop s = .next (s.advance 1) := rfl

/-! ### The statement -/

/-- Settles O44: the value moved reads back from the destination, and a refused form or digit stops the decoder before any
immediate. -/
theorem movCopiesAndNopAdvances : Obligations.MovCopiesAndNopAdvances := by
  refine ⟨fun _ _ => rfl, fun _ _ => rfl, fun r imm => congrArg (· :: bytesOfWord imm) (plusReg_eq_ofNat 0b10111 r),
    fun _ _ => rfl, fun _ _ _ _ _ hi hwf hdst hsrc => completesWith_of_moveForm hi hwf hdst hsrc,
    fun _ _ _ _ hi hacc => exec_moveForm_error hi hacc, fun m bs hdigit => ?_, fun m bs hm => ⟨?_, ?_, fun hdigit => ?_⟩,
    rfl, fun s => ?_⟩
  · rw [decode_C7, decodeGroupC7_of_digit_ne_zero hdigit]
  · rw [decode_89, decodeRmReg_of_refusedModRM hm]
  · rw [decode_8B, decodeRmReg_of_refusedModRM hm]
  · rw [decode_C7, decodeGroupC7_of_digit_zero hdigit, decodeRmImm32_of_refusedModRM hm]
  · rw [exec_nop, State.advance_eq]

end Sys2Proof.Machine
end

section
/-! Proofs: the stack instructions `PUSH` and `POP` (44_stack.md R231, R232). What a push or a pop answers is said once
for the slot in bounds and once for the slot outside; the statements read it off. -/

namespace Sys2Proof.Machine

/-! ### Refused first bytes (30_encoding.md R108) -/

theorem decode_cons_of_opcodeOf_none {b : Byte} (h : opcodeOf b = none) (bs : List Byte) :
    decode (b :: bs) = .error .firstByte := by
  simp [decode, h]

/-! ### The slots -/

theorem sub_four_eq_ofNat (w : Word) : w - 4 = BitVec.ofNat 32 (2 ^ 32 + w.toNat - 4) := by
  bv_omega

theorem add_four_eq_ofNat (w : Word) : w + 4 = BitVec.ofNat 32 (w.toNat + 4) := by
  bv_omega

theorem State.advance_memRead (s : State) (len : Nat) (a : Word) : (s.advance len).memRead a = s.memRead a := rfl

/-- A push moves no bound, so the slot it wrote can be read. -/
theorem State.pushed_memRead {s : State} (v : Word) (hwf : s.mem.wf)
    (hslot : s.bounds.covers (s.reg .esp - 4).toNat 4 = true) : (s.pushed v).memRead (s.reg .esp - 4) = .ok v := by
  rw [State.memRead_of_covers (s := s.pushed v) hslot, State.pushed_word v hwf]

/-! ### What a push and a pop answer -/

theorem exec_pushForm_ok {i : Instr} {s : State} {v : Word} (hi : pushForm s i = some v)
    (hslot : s.bounds.covers (s.reg .esp - 4).toNat 4 = true) :
    exec i s = .next ((s.pushed v).advance (encode i).length) := by
  rw [exec_of_pushForm hi, pushThen_eq, if_pos hslot]

/-- The error is taken in the state whose `esp` is already decremented. -/
theorem exec_pushForm_error {i : Instr} {s : State} {v : Word} (hi : pushForm s i = some v)
    (hslot : ¬ s.bounds.covers (s.reg .esp - 4).toNat 4 = true) :
    exec i s = .next (faultedWith (s.setReg .esp (s.reg .esp - 4)) .outOfBounds) := by
  rw [exec_of_pushForm hi, pushThen_eq, if_neg hslot, State.raise_eq_faultedWith]

/-- The state a pop leaves but for `eip`: `esp` four higher, then the register written. -/
def State.popped (s : State) (r : Reg) (v : Word) : State := (s.setReg .esp (s.reg .esp + 4)).setReg r v

theorem exec_popR (r : Reg) (s : State) : exec (.popR r) s = .next (popThen (fun v t => (t.setReg r v).advance 1) s) :=
  rfl

theorem exec_popR_ok {r : Reg} {s : State} {v : Word} (hv : s.memRead (s.reg .esp) = .ok v) :
    exec (.popR r) s = .next ((s.popped r v).advance 1) := by
  obtain ⟨hslot, rfl⟩ := State.memRead_ok hv
  rw [exec_popR, popThen_eq, if_pos hslot, State.popped]

theorem exec_popR_error {r : Reg} {s : State} (hslot : ¬ s.bounds.covers (s.reg .esp).toNat 4 = true) :
    exec (.popR r) s = .next (faultedWith s .outOfBounds) := by
  rw [exec_popR, popThen_eq, if_neg hslot, State.raise_eq_faultedWith]

/-! ### Completion -/

/-- An instruction that ends with the advance completes where what it did before moved no part of the control state. -/
theorem completesWith_of_exec_advance {i : Instr} {s t : State} {P : State → Prop}
    (hexec : exec i s = .next (t.advance (encode i).length)) (heip : t.eip = s.eip) (hrun : t.runState = s.runState)
    (hkind : t.faultKind = s.faultKind) (hbounds : t.bounds = s.bounds) (hP : P (t.advance (encode i).length)) :
    CompletesWith i s P :=
  ⟨_, hexec, by simp [State.nextEip, BitVec.toNat_add, heip], hrun, hkind, hbounds, hP⟩

theorem completesWith_of_pushForm {i : Instr} {s : State} {v : Word} (hi : pushForm s i = some v) (hwf : s.mem.wf)
    (hslot : s.bounds.covers (s.reg .esp - 4).toNat 4 = true) :
    CompletesWith i s fun t =>
      t.reg .esp = s.reg .esp - 4 ∧ t.memRead (s.reg .esp - 4) = .ok v ∧ t.eflags = s.eflags := by
  refine completesWith_of_exec_advance (exec_pushForm_ok hi hslot) rfl rfl rfl rfl ⟨s.pushed_esp v, ?_, rfl⟩
  rw [State.advance_memRead, State.pushed_memRead v hwf hslot]

/-- The register is written last, so `esp` keeps its increment only where it is not the register. -/
theorem completesWith_popR {r : Reg} {s : State} {v : Word} (hv : s.memRead (s.reg .esp) = .ok v) :
    CompletesWith (.popR r) s fun t =>
      t.reg r = v ∧ (r ≠ .esp → t.reg .esp = s.reg .esp + 4) ∧ t.eflags = s.eflags ∧ t.mem = s.mem := by
  refine completesWith_of_exec_advance (exec_popR_ok hv) rfl rfl rfl rfl ⟨?_, fun hr => ?_, rfl, rfl⟩
  · exact State.setReg_reg_same _ r v
  · rw [State.advance_reg, State.popped, State.setReg_reg_other _ v hr.symm, State.setReg_reg_same]

/-! ### The statements -/

/-- Settles O45: the slot is at `esp - 4`, and the bounds test of the write decides between the pushed state and the
error with `esp` decremented. -/
theorem pushDecrementsThenWrites : Obligations.PushDecrementsThenWrites := by
  refine ⟨fun r => congrArg (· :: []) (plusReg_eq_ofNat 0b01010 r), fun _ => rfl, fun _ => rfl,
    fun i s v hi hwf => ?_⟩
  rw [← sub_four_eq_ofNat]
  exact ⟨fun hslot => completesWith_of_pushForm hi hwf ((Bounds.covers_iff ..).mpr hslot),
    fun hslot => exec_pushForm_error hi (mt (Bounds.covers_iff ..).mp hslot)⟩

/-- Settles O46: the read of the slot at `esp` decides between the popped state and the error with nothing changed. -/
theorem popReadsThenIncrements : Obligations.PopReadsThenIncrements := by
  refine ⟨fun r => congrArg (· :: []) (plusReg_eq_ofNat 0b01011 r), decode_cons_of_opcodeOf_none rfl,
    fun r s v hv => ?_, fun r s hslot => exec_popR_error (mt (Bounds.covers_iff ..).mp hslot)⟩
  rw [← add_four_eq_ofNat]
  exact completesWith_popR hv

end Sys2Proof.Machine
end

section
/-! Proofs: control transfer and halt (45_control_flow.md R240 to R262). A relative target is said once as the integer sum
reduced modulo 2^32; the sixteen conditional jumps are one body with sixteen conditions; `CALL` and `RET` are read off the
push and the pop. -/

namespace Sys2Proof.Machine

/-! ### Targets (R240) -/

theorem State.nextEip_eq (s : State) (len : Nat) : s.nextEip len = BitVec.ofNat 32 (s.eip.toNat + len) :=
  congrArg State.eip (s.advance_eq len)

/-- The target is the sum of `next` and the signed offset, whatever the offset's size was. -/
theorem State.relativeTarget_eq (s : State) (offset : Word) (len : Nat) :
    s.relativeTarget offset len = BitVec.ofInt 32 (s.eip.toNat + len + offset.toInt) := by
  rw [State.relativeTarget, State.nextEip_eq, BitVec.ofInt_add, BitVec.ofInt_toInt, ← Nat.cast_add, BitVec.ofInt_natCast]

theorem toInt_sext32 (v : Byte) : (sext32 v).toInt = v.toInt := BitVec.toInt_signExtend_of_le (by decide)

/-! ### `JMP` (R241) -/

theorem exec_jmpForm {i : Instr} {offset : Word} (hi : jmpForm i = some offset) (s : State) :
    exec i s = .next { s with eip := BitVec.ofInt 32 (s.eip.toNat + (encode i).length + offset.toInt) } := by
  rw [exec_of_jmpForm hi, State.relativeTarget_eq, State.setEip]

/-! ### The conditional jumps (R242, R243) -/

/-- The number `cc` of a condition, the low four bits of its opcodes (`encode_jccRel8`, `encode_jccRel32`). -/
def condNumber : Cond → Nat
  | .o => 0
  | .no => 1
  | .b => 2
  | .ae => 3
  | .e => 4
  | .ne => 5
  | .be => 6
  | .a => 7
  | .s => 8
  | .ns => 9
  | .p => 10
  | .np => 11
  | .l => 12
  | .ge => 13
  | .le => 14
  | .g => 15

theorem encode_jccRel8 (cc : Cond) (rel : Byte) :
    encode (jccRel8 cc rel) = [BitVec.ofNat 8 (0x70 + condNumber cc), rel] := by cases cc <;> rfl

theorem encode_jccRel32 (cc : Cond) (rel : Word) :
    encode (jccRel32 cc rel) = 0x0F :: BitVec.ofNat 8 (0x80 + condNumber cc) :: bytesOfWord rel := by cases cc <;> rfl

theorem jccForm_jccRel8 (cc : Cond) (rel : Byte) : jccForm (jccRel8 cc rel) = some (cc, sext32 rel) := by cases cc <;> rfl

theorem jccForm_jccRel32 (cc : Cond) (rel : Word) : jccForm (jccRel32 cc rel) = some (cc, rel) := by cases cc <;> rfl

theorem exec_jccForm {i : Instr} {cc : Cond} {offset : Word} (hi : jccForm i = some (cc, offset)) (s : State) :
    exec i s = .next { s with eip := BitVec.ofInt 32 (if condHolds cc s.eflags
      then s.eip.toNat + (encode i).length + offset.toInt else s.eip.toNat + (encode i).length) } := by
  rw [exec_of_jccForm hi, jumpIf]
  split
  · rw [State.relativeTarget_eq, State.setEip]
  · rw [State.advance_eq, ← Nat.cast_add, BitVec.ofInt_natCast]

/-- All that tells one conditional jump from another is its condition. -/
theorem jumpRule_of_condHolds (cc : Cond) {taken : Word → Bool} (h : ∀ f, condHolds cc f = taken f) :
    JumpRule (jccRel8 cc) (jccRel32 cc) (condNumber cc) taken := by
  obtain rfl : condHolds cc = taken := funext h
  refine ⟨encode_jccRel8 cc, encode_jccRel32 cc, fun rel s => ?_, fun rel s => ?_⟩
  · rw [exec_jccForm (jccForm_jccRel8 cc rel), encode_jccRel8, toInt_sext32]
    rfl
  · rw [exec_jccForm (jccForm_jccRel32 cc rel), encode_jccRel32]
    rfl

theorem condHolds_a (f : Word) : condHolds .a f = !(f.getLsbD 0 || f.getLsbD 6) := (Bool.not_or _ _).symm

/-- `SF != OF` is the exclusive or of the two bits. -/
theorem condHolds_l (f : Word) : condHolds .l f = (f.getLsbD 7 ^^ f.getLsbD 11) :=
  congrFun₂ Bool.bne_eq_xor (f.getLsbD 7) (f.getLsbD 11)

theorem condHolds_ge_eq_not_l (f : Word) : condHolds .ge f = !condHolds .l f := (Bool.not_not _).symm

theorem condHolds_le (f : Word) : condHolds .le f = (f.getLsbD 6 || condHolds .l f) := rfl

theorem condHolds_g_eq_not_le (f : Word) : condHolds .g f = !condHolds .le f := by
  rw [condHolds_le, Bool.not_or, ← condHolds_ge_eq_not_l]
  rfl

/-! ### `CALL` (R260) -/

theorem exec_callRel32 (rel : Word) (s : State) :
    exec (.callRel32 rel) s = .next (pushThen (s.nextEip 5) (fun t => t.setEip (s.relativeTarget rel 5)) s) := rfl

theorem exec_callRel32_ok {s : State} (rel : Word) (hslot : s.bounds.covers (s.reg .esp - 4).toNat 4 = true) :
    exec (.callRel32 rel) s = .next ((s.pushed (s.nextEip 5)).setEip (s.relativeTarget rel 5)) := by
  rw [exec_callRel32, pushThen_eq, if_pos hslot]

/-- The error is taken in the state whose `esp` is already decremented. -/
theorem exec_callRel32_error {s : State} (rel : Word) (hslot : ¬ s.bounds.covers (s.reg .esp - 4).toNat 4 = true) :
    exec (.callRel32 rel) s = .next (faultedWith (s.setReg .esp (s.reg .esp - 4)) .outOfBounds) := by
  rw [exec_callRel32, pushThen_eq, if_neg hslot, State.raise_eq_faultedWith]

/-- A `CALL` that answers a state without an error had its slot in bounds. -/
theorem covers_of_callRel32_not_faulted {s t : State} {rel : Word} (hcall : exec (.callRel32 rel) s = .next t)
    (ht : t.runState ≠ .faulted) : s.bounds.covers (s.reg .esp - 4).toNat 4 = true := by
  by_contra hslot
  rw [exec_callRel32_error rel hslot, Host.Outcome.next.injEq] at hcall
  subst hcall
  exact ht rfl

/-! ### `RET` (R261) -/

theorem exec_ret (s : State) : exec .ret s = .next (popThen (fun v t => t.setEip v) s) := rfl

theorem exec_ret_ok {s : State} {v : Word} (hv : s.memRead (s.reg .esp) = .ok v) :
    exec .ret s = .next ((s.setReg .esp (s.reg .esp + 4)).setEip v) := by
  obtain ⟨hslot, rfl⟩ := State.memRead_ok hv
  rw [exec_ret, popThen_eq, if_pos hslot]

theorem exec_ret_error {s : State} (hslot : ¬ s.bounds.covers (s.reg .esp).toNat 4 = true) :
    exec .ret s = .next (faultedWith s .outOfBounds) := by
  rw [exec_ret, popThen_eq, if_neg hslot, State.raise_eq_faultedWith]

/-- The increment undoes the decrement, so what is left of a push and a pop of the slot is the memory. -/
theorem State.pushed_setReg_esp_add_four (s : State) (v : Word) :
    (s.pushed v).setReg .esp ((s.pushed v).reg .esp + 4) = { s with mem := (s.pushed v).mem } := by
  have hregs : (s.regs.set .esp (s.reg .esp - 4)).set .esp (s.reg .esp - 4 + 4) = s.regs := by
    rw [Regs.set_set_same, BitVec.sub_add_cancel, State.reg, Regs.set_get_self]
  rw [State.pushed_esp, State.setReg, State.pushed, hregs]

theorem exec_ret_after_callRel32 {s t : State} {rel : Word} (hwf : s.mem.wf) (hcall : exec (.callRel32 rel) s = .next t)
    (ht : t.runState ≠ .faulted) : exec .ret t = .next { s with eip := s.nextEip 5, mem := t.mem } := by
  have hslot := covers_of_callRel32_not_faulted hcall ht
  rw [exec_callRel32_ok rel hslot, Host.Outcome.next.injEq] at hcall
  subst hcall
  have hread : ((s.pushed (s.nextEip 5)).setEip (s.relativeTarget rel 5)).memRead (s.reg .esp - 4) =
      .ok (s.nextEip 5) := State.pushed_memRead (s.nextEip 5) hwf hslot
  rw [exec_ret_ok hread]
  exact congrArg (fun u => Host.Outcome.next (u.setEip (s.nextEip 5))) (s.pushed_setReg_esp_add_four (s.nextEip 5))

/-! ### `HLT` (R262) -/

theorem exec_hlt (s : State) : exec .hlt s = .next { s.advance 1 with runState := .halted } := rfl

/-- A ready machine has its `eip` in the memory: the text is part of it. -/
theorem State.Inv.covers_eip {s : State} (hs : s.Inv) (hready : s.runState = .ready) :
    s.bounds.covers s.eip.toNat 1 = true := by
  obtain ⟨hlo, hhi⟩ := hs.readyInText hready
  have hb := hs.boundsWf
  exact (Bounds.covers_iff ..).mpr (by omega)

/-- Outside `faulted` no kind is latched. -/
theorem State.Inv.faultKind_eq_none {s : State} (hs : s.Inv) (h : s.runState ≠ .faulted) : s.faultKind = none :=
  Option.not_isSome_iff_eq_none.mp (mt hs.latched.mp h)

theorem fetchDecode_enter_hlt {s : State} (hs : s.Inv) (hready : s.runState = .ready)
    (hbyte : s.mem.read s.eip.toNat = 0xF4) : s.enter.fetchDecode = .ok .hlt := by
  obtain ⟨hlo, hhi⟩ := (Bounds.covers_iff ..).mp (hs.covers_eip hready)
  refine State.fetchDecode_of_ok (n := 1) (rest := []) hlo hhi ?_
  rw [State.enter_mem, State.enter_eip, Memory.readRun, Memory.readRun, hbyte]
  rfl

/-- `HLT` has halted the machine already, so the halt check has nothing to decide. -/
theorem step_hlt {s : State} (hs : s.Inv) (hready : s.runState = .ready) (hbyte : s.mem.read s.eip.toNat = 0xF4) :
    step s = .next { s.advance 1 with runState := .halted } := by
  rw [step_ready_ok hready (fetchDecode_enter_hlt hs hready hbyte) (exec_hlt s.enter), State.haltCheck_other (by simp)]
  rfl

/-- Outside `ready` the first step takes the error, and the later ones change nothing. -/
theorem run_succ_not_ready (n : Nat) {s : State} (h : s.runState ≠ .ready) :
    Sys2Proof.core.run (n + 1) s = .next (s.raise .invalidState) := by
  rw [run_succ n (step_not_ready h), run_raise]

/-! ### The statements -/

/-- Settles O48: both forms go to the relative target, the short one with its byte sign-extended. -/
theorem jmpGoesToRelativeTarget : Obligations.JmpGoesToRelativeTarget := by
  refine ⟨fun _ => rfl, fun _ => rfl, fun rel s => ?_, fun rel s => exec_jmpForm rfl s⟩
  rw [exec_jmpForm (offset := sext32 rel) rfl s, toInt_sext32]
  rfl

/-- Settles O50: each condition is the bit the rule names, its complement, or for `JBE` and `JA` the two bits together. -/
theorem jumpsOnOverflowCarryZero : Obligations.JumpsOnOverflowCarryZero :=
  ⟨jumpRule_of_condHolds .o fun _ => rfl, jumpRule_of_condHolds .no fun _ => rfl, jumpRule_of_condHolds .b fun _ => rfl,
    jumpRule_of_condHolds .ae fun _ => rfl, jumpRule_of_condHolds .e fun _ => rfl, jumpRule_of_condHolds .ne fun _ => rfl,
    jumpRule_of_condHolds .be fun _ => rfl, jumpRule_of_condHolds .a condHolds_a⟩

/-- Settles O51: the signed conditions compare `SF` with `OF`, which is their exclusive or. -/
theorem jumpsOnSignParityAndSignedOrder : Obligations.JumpsOnSignParityAndSignedOrder :=
  ⟨jumpRule_of_condHolds .s fun _ => rfl, jumpRule_of_condHolds .ns fun _ => rfl, jumpRule_of_condHolds .p fun _ => rfl,
    jumpRule_of_condHolds .np fun _ => rfl, jumpRule_of_condHolds .l condHolds_l,
    jumpRule_of_condHolds .ge fun f => by rw [condHolds_ge_eq_not_l, condHolds_l],
    jumpRule_of_condHolds .le fun f => by rw [condHolds_le, condHolds_l],
    jumpRule_of_condHolds .g fun f => by rw [condHolds_g_eq_not_le, condHolds_le, condHolds_l]⟩

/-- Settles O53: the bounds test of the slot decides between the pushed state at the target and the error with `esp`
decremented. -/
theorem callPushesNextAndGoes : Obligations.CallPushesNextAndGoes := by
  refine ⟨fun _ => rfl, fun rel s hwf => ?_⟩
  rw [← sub_four_eq_ofNat, ← State.nextEip_eq]
  refine ⟨fun hin => ?_, fun hout => exec_callRel32_error rel (mt (Bounds.covers_iff ..).mp hout)⟩
  have hslot : s.bounds.covers (s.reg .esp - 4).toNat 4 = true := (Bounds.covers_iff ..).mpr hin
  exact ⟨_, exec_callRel32_ok rel hslot, s.relativeTarget_eq rel 5, s.pushed_esp (s.nextEip 5),
    State.pushed_memRead (s.nextEip 5) hwf hslot, rfl⟩

/-- Settles O54: the word in the slot at `esp` becomes `eip`; behind a `CALL` that word is the pushed `next`. -/
theorem retReturnsToThePoppedAddress : Obligations.RetReturnsToThePoppedAddress := by
  refine ⟨rfl, fun bs => ⟨decode_cons_of_opcodeOf_none rfl bs, decode_cons_of_opcodeOf_none rfl bs,
    decode_cons_of_opcodeOf_none rfl bs⟩, fun s v hv => ?_,
    fun s hout => exec_ret_error (mt (Bounds.covers_iff ..).mp hout), fun rel s t hwf _ hcall ht => ?_⟩
  · rw [← add_four_eq_ofNat]
    exact exec_ret_ok hv
  · rw [← State.nextEip_eq]
    exact exec_ret_after_callRel32 hwf hcall ht

/-- Settles O55: the step at `F4` halts; the next one takes `InvalidStateError`, which no later step changes. -/
theorem hltHaltsBehindItself : Obligations.HltHaltsBehindItself := by
  refine ⟨rfl, fun s => ?_, fun s n hs hready hbyte => ?_⟩
  · rw [exec_hlt, State.advance_eq]
  · have hstep := step_hlt hs hready hbyte
    have hkind : s.faultKind = none := hs.faultKind_eq_none (by simp [hready])
    rw [run_succ (n + 1) hstep, run_succ_not_ready n (by simp), hstep, State.advance_eq]
    simp [State.raise, hkind]

end Sys2Proof.Machine
end

section
/-! Proofs: decoding and encoding are inverse, and which bytes are refused (30_encoding.md R101 to R115). An opcode
determines its first byte (`eq_opcodeByte`); behind the first byte each format is read back once in each direction
(`DecodesBack`, `ReadsEncoding`). -/

namespace Sys2Proof.Machine

/-! ### The first byte of an opcode (R108, R109) -/

/-- The first byte that selects a line of the opcode map. -/
def opcodeByte : Opcode → Byte
  | .aluRmR n => aluOpcode n 1
  | .aluRRm n => aluOpcode n 3
  | .aluEaxImm32 n => aluOpcode n 5
  | .escape => 0x0F
  | .incR r => plusReg 0b01000 r
  | .decR r => plusReg 0b01001 r
  | .pushR r => plusReg 0b01010 r
  | .popR r => plusReg 0b01011 r
  | .pushImm32 => 0x68
  | .pushImm8 => 0x6A
  | .jccRel8 cc => BitVec.ofNat 8 (0x70 + condNumber cc)
  | .group81 => 0x81
  | .group83 => 0x83
  | .testRmR => 0x85
  | .movRmR => 0x89
  | .movRRm => 0x8B
  | .nop => 0x90
  | .testEaxImm32 => 0xA9
  | .movRImm32 r => plusReg 0b10111 r
  | .groupC1 => 0xC1
  | .ret => 0xC3
  | .groupC7 => 0xC7
  | .groupD1 => 0xD1
  | .groupD3 => 0xD3
  | .callRel32 => 0xE8
  | .jmpRel32 => 0xE9
  | .jmpRel8 => 0xEB
  | .hlt => 0xF4
  | .groupF7 => 0xF7
  | .groupFF => 0xFF

theorem opcodeByte_of_mem : ∀ b : Byte, ∀ op ∈ opcodeOf b, b = opcodeByte op := by
  decide

theorem eq_opcodeByte {b : Byte} {op : Opcode} (h : opcodeOf b = some op) : b = opcodeByte op :=
  opcodeByte_of_mem b op h

theorem secondByteOf_of_mem : ∀ b : Byte, ∀ cc ∈ secondByteOf b, b = BitVec.ofNat 8 (0x80 + condNumber cc) := by
  decide

theorem secondByteOf_condNumber (cc : Cond) : secondByteOf (BitVec.ofNat 8 (0x80 + condNumber cc)) = some cc := by
  cases cc <;> rfl

/-! ### The digits of the groups (R115) -/

theorem aluNumber_ofNumber (g : BitVec 3) : aluNumber (AluOp.ofNumber g) = g := by
  revert g; decide

theorem shiftDigit_of_mem : ∀ g : BitVec 3, ∀ op ∈ ShiftOp.ofDigit? g, g = shiftDigit op := by
  decide

theorem decodeRest_group81 {m : Byte} {g : BitVec 3} (hm : regField m = g) (bs : List Byte) :
    decodeRest .group81 (m :: bs) = decodeRmImm32 (aluRmImm32 (AluOp.ofNumber g)) m bs := by
  subst hm; rfl

theorem decodeRest_group83 {m : Byte} {g : BitVec 3} (hm : regField m = g) (bs : List Byte) :
    decodeRest .group83 (m :: bs) = decodeRmImm8 (aluRmImm8 (AluOp.ofNumber g)) m bs := by
  subst hm; rfl

theorem decodeShiftGroup_of_digit {m : Byte} {op : ShiftOp} (hm : regField m = shiftDigit op)
    (k : ShiftOp → Byte → List Byte → DecodeResult) (bs : List Byte) : decodeShiftGroup k m bs = k op m bs := by
  rw [decodeShiftGroup, hm, ofDigit?_shiftDigit]

theorem decodeGroupF7_of_digit {m : Byte} {g : BitVec 3} (hm : regField m = g) (bs : List Byte) :
    decodeGroupF7 m bs =
      if g = 0 then decodeRmImm32 .testRmImm32 m bs else if g = 2 then decodeRmOnly .notRm m bs
      else if g = 3 then decodeRmOnly .negRm m bs else .error .digit := by
  subst hm; rfl

theorem decodeGroupFF_of_digit {m : Byte} {g : BitVec 3} (hm : regField m = g) (bs : List Byte) :
    decodeGroupFF m bs =
      if g = 0 then decodeRmOnly .incRm m bs else if g = 1 then decodeRmOnly .decRm m bs else .error .digit := by
  subst hm; rfl

theorem decodeGroupC7_of_digit {m : Byte} {g : BitVec 3} (hm : regField m = g) (bs : List Byte) :
    decodeGroupC7 m bs = if g = 0 then decodeRmImm32 .movRmImm32 m bs else .error .digit := by
  subst hm; rfl

/-! ### An encoding decodes to its instruction -/

/-- What `decode` must do with the encoding of `i` (its statement for one instruction). -/
def DecodesBack (i : Instr) : Prop := ∀ rest, decode (encode i ++ rest) = .ok (i, rest)

theorem decodesBack_single {i : Instr} {b : Byte} {op : Opcode} (henc : encode i = [b]) (hop : opcodeOf b = some op)
    (hrest : ∀ bs, decodeRest op bs = .ok (i, bs)) : DecodesBack i := by
  intro rest
  rw [henc, List.cons_append, List.nil_append, decode_cons hop, hrest]

theorem decodesBack_byte {f : Byte → Instr} {v : Byte} {b : Byte} {op : Opcode} (henc : encode (f v) = [b, v])
    (hop : opcodeOf b = some op)
    (hrest : ∀ bs, decodeRest op bs = decodeByteField f bs) : DecodesBack (f v) := by
  intro rest
  simp only [henc, List.cons_append, List.nil_append, decode_cons hop, hrest, decodeByteField, takeByte_cons,
    Except.ok_bind']

theorem decodesBack_word {f : Word → Instr} {v : Word} {b : Byte} {op : Opcode}
    (henc : encode (f v) = b :: bytesOfWord v) (hop : opcodeOf b = some op)
    (hrest : ∀ bs, decodeRest op bs = decodeWordField f bs) : DecodesBack (f v) := by
  intro rest
  rw [henc, List.cons_append, decode_cons hop, hrest, decodeWordField_bytesOfWord]

/-- The ModRM byte of an encoded operand has the digit it was encoded with, and the operand decodes back from it. -/
theorem decodesBack_modRM {i : Instr} {rm : RM} {g : BitVec 3} {tail : List Byte} {b : Byte} {op : Opcode}
    (hwf : rm.wellFormed = true) (henc : encode i = b :: (encodeRM rm g ++ tail)) (hop : opcodeOf b = some op)
    (hrest : ∀ m bs rest, regField m = g → decodeRM m bs = .ok (rm, tail ++ rest) →
      decodeRest op (m :: bs) = .ok (i, rest)) : DecodesBack i := by
  intro rest
  obtain ⟨m, disp, happ, -, hdigit, hdecode⟩ := encodeRM_spec rm g hwf
  rw [henc, List.cons_append, decode_cons hop, List.append_assoc, happ]
  exact hrest m _ rest hdigit (hdecode _)

theorem decodesBack_rmOnly {f : RM → Instr} {rm : RM} {g : BitVec 3} {b : Byte} {op : Opcode}
    (hwf : rm.wellFormed = true) (henc : encode (f rm) = b :: encodeRM rm g) (hop : opcodeOf b = some op)
    (hrest : ∀ m bs, regField m = g → decodeRest op (m :: bs) = decodeRmOnly f m bs) : DecodesBack (f rm) := by
  refine decodesBack_modRM (tail := []) hwf (by rw [henc, List.append_nil]) hop fun m bs rest hm hrm => ?_
  simp only [hrest m bs hm, decodeRmOnly, hrm, Except.ok_bind', List.nil_append]

theorem decodesBack_rmReg {f : RM → Reg → Instr} {rm : RM} {r : Reg} {b : Byte} {op : Opcode}
    (hwf : rm.wellFormed = true) (henc : encode (f rm r) = b :: encodeRM rm r.number) (hop : opcodeOf b = some op)
    (hrest : ∀ m bs, decodeRest op (m :: bs) = decodeRmReg f m bs) : DecodesBack (f rm r) := by
  refine decodesBack_modRM (tail := []) hwf (by rw [henc, List.append_nil]) hop fun m bs rest hm hrm => ?_
  simp only [hrest m bs, decodeRmReg, hrm, Except.ok_bind', List.nil_append, hm, Reg.ofNumber_number]

theorem decodesBack_rRm {f : Reg → RM → Instr} {rm : RM} {r : Reg} {b : Byte} {op : Opcode}
    (hwf : rm.wellFormed = true) (henc : encode (f r rm) = b :: encodeRM rm r.number) (hop : opcodeOf b = some op)
    (hrest : ∀ m bs, decodeRest op (m :: bs) = decodeRmReg (fun rm r => f r rm) m bs) : DecodesBack (f r rm) :=
  decodesBack_rmReg (f := fun rm r => f r rm) hwf henc hop hrest

theorem decodesBack_rmImm8 {f : RM → Byte → Instr} {rm : RM} {imm : Byte} {g : BitVec 3} {b : Byte} {op : Opcode}
    (hwf : rm.wellFormed = true) (henc : encode (f rm imm) = b :: (encodeRM rm g ++ [imm])) (hop : opcodeOf b = some op)
    (hrest : ∀ m bs, regField m = g → decodeRest op (m :: bs) = decodeRmImm8 f m bs) : DecodesBack (f rm imm) := by
  refine decodesBack_modRM hwf henc hop fun m bs rest hm hrm => ?_
  simp only [hrest m bs hm, decodeRmImm8, hrm, Except.ok_bind', List.cons_append, List.nil_append, takeByte_cons]

theorem decodesBack_rmImm32 {f : RM → Word → Instr} {rm : RM} {imm : Word} {g : BitVec 3} {b : Byte} {op : Opcode}
    (hwf : rm.wellFormed = true) (henc : encode (f rm imm) = b :: (encodeRM rm g ++ bytesOfWord imm))
    (hop : opcodeOf b = some op)
    (hrest : ∀ m bs, regField m = g → decodeRest op (m :: bs) = decodeRmImm32 f m bs) : DecodesBack (f rm imm) := by
  refine decodesBack_modRM hwf henc hop fun m bs rest hm hrm => ?_
  simp only [hrest m bs hm, decodeRmImm32, hrm, Except.ok_bind', takeWord_bytesOfWord]

theorem decodesBack_jccRel32 (cc : Cond) (rel : Word) : DecodesBack (jccRel32 cc rel) := by
  intro rest
  rw [encode_jccRel32, List.cons_append, decode_cons (op := .escape) rfl]
  simp only [decodeRest, List.cons_append, takeByte_cons, Except.ok_bind', secondByteOf_condNumber,
    decodeWordField_bytesOfWord]

/-- The encoder's rows against the decoder's lines. -/
theorem decodesBack {i : Instr} (h : i.wellFormed = true) : DecodesBack i := by
  cases i with
  | nop | ret | hlt => exact decodesBack_single rfl rfl fun _ => rfl
  | incR r | decR r | pushR r | popR r => cases r <;> exact decodesBack_single rfl rfl fun _ => rfl
  | movRImm32 r imm => cases r <;> exact decodesBack_word rfl rfl fun _ => rfl
  | addEaxImm32 | orEaxImm32 | adcEaxImm32 | sbbEaxImm32 | andEaxImm32 | subEaxImm32 | xorEaxImm32 | cmpEaxImm32
  | testEaxImm32 | pushImm32 | jmpRel32 | callRel32 => exact decodesBack_word rfl rfl fun _ => rfl
  | pushImm8 | jmpRel8 | joRel8 | jnoRel8 | jbRel8 | jaeRel8 | jeRel8 | jneRel8 | jbeRel8 | jaRel8 | jsRel8 | jnsRel8
  | jpRel8 | jnpRel8 | jlRel8 | jgeRel8 | jleRel8 | jgRel8 => exact decodesBack_byte rfl rfl fun _ => rfl
  | joRel32 => exact decodesBack_jccRel32 .o _
  | jnoRel32 => exact decodesBack_jccRel32 .no _
  | jbRel32 => exact decodesBack_jccRel32 .b _
  | jaeRel32 => exact decodesBack_jccRel32 .ae _
  | jeRel32 => exact decodesBack_jccRel32 .e _
  | jneRel32 => exact decodesBack_jccRel32 .ne _
  | jbeRel32 => exact decodesBack_jccRel32 .be _
  | jaRel32 => exact decodesBack_jccRel32 .a _
  | jsRel32 => exact decodesBack_jccRel32 .s _
  | jnsRel32 => exact decodesBack_jccRel32 .ns _
  | jpRel32 => exact decodesBack_jccRel32 .p _
  | jnpRel32 => exact decodesBack_jccRel32 .np _
  | jlRel32 => exact decodesBack_jccRel32 .l _
  | jgeRel32 => exact decodesBack_jccRel32 .ge _
  | jleRel32 => exact decodesBack_jccRel32 .le _
  | jgRel32 => exact decodesBack_jccRel32 .g _
  | addRmR | orRmR | adcRmR | sbbRmR | andRmR | subRmR | xorRmR | cmpRmR | testRmR | movRmR =>
    exact decodesBack_rmReg h rfl rfl fun _ _ => rfl
  | addRRm | orRRm | adcRRm | sbbRRm | andRRm | subRRm | xorRRm | cmpRRm | movRRm =>
    exact decodesBack_rRm h rfl rfl fun _ _ => rfl
  | addRmImm32 | orRmImm32 | adcRmImm32 | sbbRmImm32 | andRmImm32 | subRmImm32 | xorRmImm32 | cmpRmImm32 =>
    exact decodesBack_rmImm32 h rfl rfl fun _ bs hm => decodeRest_group81 hm bs
  | addRmImm8 | orRmImm8 | adcRmImm8 | sbbRmImm8 | andRmImm8 | subRmImm8 | xorRmImm8 | cmpRmImm8 =>
    exact decodesBack_rmImm8 h rfl rfl fun _ bs hm => decodeRest_group83 hm bs
  | shlRm1 | shlRmCl => exact decodesBack_rmOnly h rfl rfl fun _ bs hm => decodeShiftGroup_of_digit (op := .shl) hm _ bs
  | shrRm1 | shrRmCl => exact decodesBack_rmOnly h rfl rfl fun _ bs hm => decodeShiftGroup_of_digit (op := .shr) hm _ bs
  | sarRm1 | sarRmCl => exact decodesBack_rmOnly h rfl rfl fun _ bs hm => decodeShiftGroup_of_digit (op := .sar) hm _ bs
  | shlRmImm8 => exact decodesBack_rmImm8 h rfl rfl fun _ bs hm => decodeShiftGroup_of_digit (op := .shl) hm _ bs
  | shrRmImm8 => exact decodesBack_rmImm8 h rfl rfl fun _ bs hm => decodeShiftGroup_of_digit (op := .shr) hm _ bs
  | sarRmImm8 => exact decodesBack_rmImm8 h rfl rfl fun _ bs hm => decodeShiftGroup_of_digit (op := .sar) hm _ bs
  | testRmImm32 => exact decodesBack_rmImm32 h rfl rfl fun _ bs hm => decodeGroupF7_of_digit hm bs
  | notRm | negRm => exact decodesBack_rmOnly h rfl rfl fun _ bs hm => decodeGroupF7_of_digit hm bs
  | movRmImm32 => exact decodesBack_rmImm32 h rfl rfl fun _ bs hm => decodeGroupC7_of_digit hm bs
  | incRm | decRm => exact decodesBack_rmOnly h rfl rfl fun _ bs hm => decodeGroupFF_of_digit hm bs

/-! ### What decodes is the encoding of its instruction -/

/-- An instruction that the result `r` of a reader of `bs` behind the first byte `b` holds is well formed, and its
encoding is what was read. -/
def ReadsEncoding (b : Byte) (bs : List Byte) (r : DecodeResult) : Prop :=
  ∀ i rest, r = .ok (i, rest) → i.wellFormed = true ∧ b :: bs = encode i ++ rest

theorem readsEncoding_error (b : Byte) (bs : List Byte) (e : DecodeStop) : ReadsEncoding b bs (.error e) := by
  rintro i rest ⟨⟩

theorem readsEncoding_single {b : Byte} {i : Instr} (hwf : i.wellFormed = true) (henc : encode i = [b])
    (bs : List Byte) : ReadsEncoding b bs (.ok (i, bs)) := by
  rintro i rest ⟨⟩
  exact ⟨hwf, by rw [henc, List.cons_append, List.nil_append]⟩

theorem readsEncoding_byte {b : Byte} {f : Byte → Instr} (hwf : ∀ v, (f v).wellFormed = true)
    (henc : ∀ v, encode (f v) = [b, v]) (bs : List Byte) : ReadsEncoding b bs (decodeByteField f bs) := by
  intro i rest h
  obtain ⟨v, rfl, rfl⟩ := decodeByteField_ok h
  exact ⟨hwf v, by rw [henc]; rfl⟩

theorem readsEncoding_word {b : Byte} {f : Word → Instr} (hwf : ∀ v, (f v).wellFormed = true)
    (henc : ∀ v, encode (f v) = b :: bytesOfWord v) (bs : List Byte) : ReadsEncoding b bs (decodeWordField f bs) := by
  intro i rest h
  obtain ⟨v, rfl, rfl⟩ := decodeWordField_ok h
  exact ⟨hwf v, by rw [henc]; rfl⟩

theorem readsEncoding_rmOnly {b m : Byte} {f : RM → Instr} (hwf : ∀ rm, (f rm).wellFormed = rm.wellFormed)
    (henc : ∀ rm, encode (f rm) = b :: encodeRM rm (regField m)) (bs : List Byte) :
    ReadsEncoding b (m :: bs) (decodeRmOnly f m bs) := by
  intro i rest h
  obtain ⟨rm, rfl, hrm, hbs⟩ := decodeRmOnly_ok h
  exact ⟨(hwf rm).trans hrm, by rw [hbs, henc]; rfl⟩

theorem readsEncoding_rmReg {b : Byte} {f : RM → Reg → Instr} (hwf : ∀ rm r, (f rm r).wellFormed = rm.wellFormed)
    (henc : ∀ rm r, encode (f rm r) = b :: encodeRM rm r.number) (m : Byte) (bs : List Byte) :
    ReadsEncoding b (m :: bs) (decodeRmReg f m bs) := by
  intro i rest h
  obtain ⟨rm, r, rfl, hrm, hbs⟩ := decodeRmReg_ok h
  exact ⟨(hwf rm r).trans hrm, by rw [hbs, henc]; rfl⟩

theorem readsEncoding_rmImm8 {b m : Byte} {f : RM → Byte → Instr}
    (hwf : ∀ rm imm, (f rm imm).wellFormed = rm.wellFormed)
    (henc : ∀ rm imm, encode (f rm imm) = b :: (encodeRM rm (regField m) ++ [imm])) (bs : List Byte) :
    ReadsEncoding b (m :: bs) (decodeRmImm8 f m bs) := by
  intro i rest h
  obtain ⟨rm, imm, rfl, hrm, hbs⟩ := decodeRmImm8_ok h
  exact ⟨(hwf rm imm).trans hrm, by rw [hbs, henc]; rfl⟩

theorem readsEncoding_rmImm32 {b m : Byte} {f : RM → Word → Instr}
    (hwf : ∀ rm imm, (f rm imm).wellFormed = rm.wellFormed)
    (henc : ∀ rm imm, encode (f rm imm) = b :: (encodeRM rm (regField m) ++ bytesOfWord imm)) (bs : List Byte) :
    ReadsEncoding b (m :: bs) (decodeRmImm32 f m bs) := by
  intro i rest h
  obtain ⟨rm, imm, rfl, hrm, hbs⟩ := decodeRmImm32_ok h
  exact ⟨(hwf rm imm).trans hrm, by rw [hbs, henc]; rfl⟩

theorem readsEncoding_takeByte {b : Byte} {k : Byte → List Byte → DecodeResult}
    (hk : ∀ m bs, ReadsEncoding b (m :: bs) (k m bs)) (bs : List Byte) :
    ReadsEncoding b bs (do let (m, bs) ← takeByte bs; k m bs) := by
  intro i rest h
  obtain ⟨⟨m, bs'⟩, hm, h⟩ := Except.bind_ok_iff.mp h
  obtain rfl := takeByte_ok.mp hm
  exact hk m bs' i rest h

theorem readsEncoding_shiftGroup {b m : Byte} {k : ShiftOp → Byte → List Byte → DecodeResult} {bs : List Byte}
    (hk : ∀ op, regField m = shiftDigit op → ReadsEncoding b (m :: bs) (k op m bs)) :
    ReadsEncoding b (m :: bs) (decodeShiftGroup k m bs) := by
  unfold decodeShiftGroup
  split
  · next op hop => exact hk op (shiftDigit_of_mem _ op hop)
  · exact readsEncoding_error _ _ _

theorem readsEncoding_groupF7 (m : Byte) (bs : List Byte) : ReadsEncoding 0xF7 (m :: bs) (decodeGroupF7 m bs) := by
  unfold decodeGroupF7
  split
  · next h => exact readsEncoding_rmImm32 (fun _ _ => rfl) (fun _ _ => h ▸ rfl) bs
  · split
    · next h => exact readsEncoding_rmOnly (fun _ => rfl) (fun _ => h ▸ rfl) bs
    · split
      · next h => exact readsEncoding_rmOnly (fun _ => rfl) (fun _ => h ▸ rfl) bs
      · exact readsEncoding_error _ _ _

theorem readsEncoding_groupFF (m : Byte) (bs : List Byte) : ReadsEncoding 0xFF (m :: bs) (decodeGroupFF m bs) := by
  unfold decodeGroupFF
  split
  · next h => exact readsEncoding_rmOnly (fun _ => rfl) (fun _ => h ▸ rfl) bs
  · split
    · next h => exact readsEncoding_rmOnly (fun _ => rfl) (fun _ => h ▸ rfl) bs
    · exact readsEncoding_error _ _ _

theorem readsEncoding_groupC7 (m : Byte) (bs : List Byte) : ReadsEncoding 0xC7 (m :: bs) (decodeGroupC7 m bs) := by
  unfold decodeGroupC7
  split
  · next h => exact readsEncoding_rmImm32 (fun _ _ => rfl) (fun _ _ => h ▸ rfl) bs
  · exact readsEncoding_error _ _ _

theorem readsEncoding_escape (bs : List Byte) : ReadsEncoding 0x0F bs (decodeRest .escape bs) := by
  refine readsEncoding_takeByte (k := fun b1 bs => match secondByteOf b1 with
    | some cc => decodeWordField (jccRel32 cc) bs
    | none => .error .secondByte) (fun b1 bs => ?_) bs
  split
  · next cc hcc =>
    intro i rest h
    obtain ⟨rel, rfl, rfl⟩ := decodeWordField_ok h
    refine ⟨by cases cc <;> rfl, ?_⟩
    rw [encode_jccRel32, secondByteOf_of_mem b1 cc hcc]
    rfl
  · exact readsEncoding_error _ _ _

/-! A form has the operand it is made with, whatever the operation. -/

theorem wellFormed_aluRmR (op : AluOp) (rm : RM) (r : Reg) : (aluRmR op rm r).wellFormed = rm.wellFormed := by
  cases op <;> rfl

theorem wellFormed_aluRRm (op : AluOp) (r : Reg) (rm : RM) : (aluRRm op r rm).wellFormed = rm.wellFormed := by
  cases op <;> rfl

theorem wellFormed_aluEaxImm32 (op : AluOp) (imm : Word) : (aluEaxImm32 op imm).wellFormed = true := by
  cases op <;> rfl

theorem wellFormed_aluRmImm32 (op : AluOp) (rm : RM) (imm : Word) :
    (aluRmImm32 op rm imm).wellFormed = rm.wellFormed := by cases op <;> rfl

theorem wellFormed_aluRmImm8 (op : AluOp) (rm : RM) (imm : Byte) :
    (aluRmImm8 op rm imm).wellFormed = rm.wellFormed := by cases op <;> rfl

theorem wellFormed_shiftRm1 (op : ShiftOp) (rm : RM) : (shiftRm1 op rm).wellFormed = rm.wellFormed := by
  cases op <;> rfl

theorem wellFormed_shiftRmImm8 (op : ShiftOp) (rm : RM) (imm : Byte) :
    (shiftRmImm8 op rm imm).wellFormed = rm.wellFormed := by cases op <;> rfl

theorem wellFormed_shiftRmCl (op : ShiftOp) (rm : RM) : (shiftRmCl op rm).wellFormed = rm.wellFormed := by
  cases op <;> rfl

theorem wellFormed_jccRel8 (cc : Cond) (rel : Byte) : (jccRel8 cc rel).wellFormed = true := by cases cc <;> rfl

theorem readsEncoding_decodeRest (op : Opcode) (bs : List Byte) :
    ReadsEncoding (opcodeByte op) bs (decodeRest op bs) := by
  cases op with
  | aluRmR n =>
    exact readsEncoding_takeByte (readsEncoding_rmReg (wellFormed_aluRmR n) (encode_aluRmR n)) bs
  | aluRRm n =>
    exact readsEncoding_takeByte (readsEncoding_rmReg (fun rm r => wellFormed_aluRRm n r rm)
      fun rm r => encode_aluRRm n r rm) bs
  | aluEaxImm32 n => exact readsEncoding_word (wellFormed_aluEaxImm32 n) (encode_aluEaxImm32 n) bs
  | escape => exact readsEncoding_escape bs
  | incR | decR | pushR | popR | nop | ret | hlt => exact readsEncoding_single rfl rfl bs
  | pushImm32 | testEaxImm32 | movRImm32 | callRel32 | jmpRel32 =>
    exact readsEncoding_word (fun _ => rfl) (fun _ => rfl) bs
  | pushImm8 | jmpRel8 => exact readsEncoding_byte (fun _ => rfl) (fun _ => rfl) bs
  | jccRel8 cc => exact readsEncoding_byte (wellFormed_jccRel8 cc) (encode_jccRel8 cc) bs
  | group81 =>
    refine readsEncoding_takeByte (k := fun m => decodeRmImm32 (aluRmImm32 (AluOp.ofNumber (regField m))) m)
      (fun m bs => readsEncoding_rmImm32 (wellFormed_aluRmImm32 _) (fun rm imm => ?_) bs) bs
    rw [encode_aluRmImm32, aluNumber_ofNumber]
    rfl
  | group83 =>
    refine readsEncoding_takeByte (k := fun m => decodeRmImm8 (aluRmImm8 (AluOp.ofNumber (regField m))) m)
      (fun m bs => readsEncoding_rmImm8 (wellFormed_aluRmImm8 _) (fun rm imm => ?_) bs) bs
    rw [encode_aluRmImm8, aluNumber_ofNumber]
    rfl
  | testRmR | movRmR => exact readsEncoding_takeByte (readsEncoding_rmReg (fun _ _ => rfl) fun _ _ => rfl) bs
  | movRRm => exact readsEncoding_takeByte (readsEncoding_rmReg (fun _ _ => rfl) fun _ _ => rfl) bs
  | groupC1 =>
    refine readsEncoding_takeByte (fun m bs => readsEncoding_shiftGroup fun op hop =>
      readsEncoding_rmImm8 (wellFormed_shiftRmImm8 op) (fun rm imm => ?_) bs) bs
    rw [encode_shiftRmImm8, hop]
    rfl
  | groupD1 =>
    refine readsEncoding_takeByte (fun m bs => readsEncoding_shiftGroup fun op hop =>
      readsEncoding_rmOnly (wellFormed_shiftRm1 op) (fun rm => ?_) bs) bs
    rw [encode_shiftRm1, hop]
    rfl
  | groupD3 =>
    refine readsEncoding_takeByte (fun m bs => readsEncoding_shiftGroup fun op hop =>
      readsEncoding_rmOnly (wellFormed_shiftRmCl op) (fun rm => ?_) bs) bs
    rw [encode_shiftRmCl, hop]
    rfl
  | groupC7 => exact readsEncoding_takeByte readsEncoding_groupC7 bs
  | groupF7 => exact readsEncoding_takeByte readsEncoding_groupF7 bs
  | groupFF => exact readsEncoding_takeByte readsEncoding_groupFF bs

theorem decode_ok {bytes rest : List Byte} {i : Instr} (h : decode bytes = .ok (i, rest)) :
    i.wellFormed = true ∧ bytes = encode i ++ rest := by
  cases bytes with
  | nil => exact absurd h nofun
  | cons b bs =>
    obtain ⟨op, hop, hrest⟩ := decode_cons_ok h
    rw [eq_opcodeByte hop]
    exact readsEncoding_decodeRest op bs i rest hrest

/-! ### Refused bytes (R103, R108 to R111, R115) -/

theorem opcodeOf_isSome_iff : ∀ b : Byte, (opcodeOf b).isSome = true ↔ b.toNat ∈ admittedFirstBytes := by
  decide

theorem decode_of_first_byte_refused {b : Byte} (h : b.toNat ∉ admittedFirstBytes) (bs : List Byte) :
    decode (b :: bs) = .error .firstByte :=
  decode_cons_of_opcodeOf_none (Option.not_isSome_iff_eq_none.mp (mt (opcodeOf_isSome_iff b).mp h)) bs

/-- The legacy x86 bytes in front of an opcode are none of the map. -/
theorem legacy_bytes_refused :
    ∀ n ∈ [0x26, 0x2E, 0x36, 0x3E, 0x64, 0x65, 0x66, 0x67, 0xF0, 0xF2, 0xF3], n ∉ admittedFirstBytes := by
  decide

/-- Every line of the opcode map begins the encoding of a well-formed instruction. -/
theorem exists_encode_eq_opcodeByte_cons (op : Opcode) :
    ∃ i bs, i.wellFormed = true ∧ encode i = opcodeByte op :: bs := by
  cases op with
  | aluRmR n => exact ⟨_, _, wellFormed_aluRmR n (.reg .eax) .eax, encode_aluRmR ..⟩
  | aluRRm n => exact ⟨_, _, wellFormed_aluRRm n .eax (.reg .eax), encode_aluRRm ..⟩
  | aluEaxImm32 n => exact ⟨_, _, wellFormed_aluEaxImm32 n 0, encode_aluEaxImm32 ..⟩
  | escape => exact ⟨.joRel32 0, _, rfl, rfl⟩
  | incR r => exact ⟨.incR r, _, rfl, rfl⟩
  | decR r => exact ⟨.decR r, _, rfl, rfl⟩
  | pushR r => exact ⟨.pushR r, _, rfl, rfl⟩
  | popR r => exact ⟨.popR r, _, rfl, rfl⟩
  | pushImm32 => exact ⟨.pushImm32 0, _, rfl, rfl⟩
  | pushImm8 => exact ⟨.pushImm8 0, _, rfl, rfl⟩
  | jccRel8 cc => exact ⟨_, _, wellFormed_jccRel8 cc 0, encode_jccRel8 ..⟩
  | group81 => exact ⟨.addRmImm32 (.reg .eax) 0, _, rfl, rfl⟩
  | group83 => exact ⟨.addRmImm8 (.reg .eax) 0, _, rfl, rfl⟩
  | testRmR => exact ⟨.testRmR (.reg .eax) .eax, _, rfl, rfl⟩
  | movRmR => exact ⟨.movRmR (.reg .eax) .eax, _, rfl, rfl⟩
  | movRRm => exact ⟨.movRRm .eax (.reg .eax), _, rfl, rfl⟩
  | nop => exact ⟨.nop, _, rfl, rfl⟩
  | testEaxImm32 => exact ⟨.testEaxImm32 0, _, rfl, rfl⟩
  | movRImm32 r => exact ⟨.movRImm32 r 0, _, rfl, rfl⟩
  | groupC1 => exact ⟨.shlRmImm8 (.reg .eax) 0, _, rfl, rfl⟩
  | ret => exact ⟨.ret, _, rfl, rfl⟩
  | groupC7 => exact ⟨.movRmImm32 (.reg .eax) 0, _, rfl, rfl⟩
  | groupD1 => exact ⟨.shlRm1 (.reg .eax), _, rfl, rfl⟩
  | groupD3 => exact ⟨.shlRmCl (.reg .eax), _, rfl, rfl⟩
  | callRel32 => exact ⟨.callRel32 0, _, rfl, rfl⟩
  | jmpRel32 => exact ⟨.jmpRel32 0, _, rfl, rfl⟩
  | jmpRel8 => exact ⟨.jmpRel8 0, _, rfl, rfl⟩
  | hlt => exact ⟨.hlt, _, rfl, rfl⟩
  | groupF7 => exact ⟨.notRm (.reg .eax), _, rfl, rfl⟩
  | groupFF => exact ⟨.incRm (.reg .eax), _, rfl, rfl⟩

theorem exists_decode_of_first_byte {b : Byte} (h : b.toNat ∈ admittedFirstBytes) :
    ∃ bs i, decode (b :: bs) = .ok (i, []) := by
  obtain ⟨op, hop⟩ := Option.isSome_iff_exists.mp ((opcodeOf_isSome_iff b).mpr h)
  obtain ⟨i, bs, hwf, henc⟩ := exists_encode_eq_opcodeByte_cons op
  refine ⟨bs, i, ?_⟩
  rw [eq_opcodeByte hop, ← henc]
  simpa using decodesBack hwf []

theorem condNumber_ofNumber (n : BitVec 4) : condNumber (Cond.ofNumber n) = n.toNat := by
  revert n; decide

theorem decode_near_jump (n : BitVec 4) (rel : Word) (bs : List Byte) :
    decode (0x0F :: BitVec.ofNat 8 (0x80 + n.toNat) :: (bytesOfWord rel ++ bs)) =
      .ok (jccRel32 (Cond.ofNumber n) rel, bs) := by
  have h := decodesBack_jccRel32 (Cond.ofNumber n) rel bs
  rwa [encode_jccRel32, condNumber_ofNumber] at h

theorem secondByteOf_eq_none : ∀ b : Byte, b.toNat < 0x80 ∨ 0x8F < b.toNat → secondByteOf b = none := by
  decide

theorem decode_of_second_byte_refused {b : Byte} (h : b.toNat < 0x80 ∨ 0x8F < b.toNat) (bs : List Byte) :
    decode (0x0F :: b :: bs) = .error .secondByte := by
  rw [decode_cons (op := .escape) rfl, decodeRest, takeByte_cons, Except.ok_bind']
  simp only [secondByteOf_eq_none b h]

/-- The digits that the group opcodes other than `81` and `83` take (R115). -/
def opcodeDigits : Opcode → Option (List Nat)
  | .groupC1 | .groupD1 | .groupD3 => some [4, 5, 7]
  | .groupC7 => some [0]
  | .groupF7 => some [0, 2, 3]
  | .groupFF => some [0, 1]
  | _ => none

theorem opcodeDigits_of_admittedDigits :
    ∀ b : Byte, ∀ p ∈ admittedDigits, p.1 = b.toNat → ∃ op ∈ opcodeOf b, opcodeDigits op = some p.2 := by
  decide

theorem admittedDigits_of_opcodeDigits :
    ∀ b : Byte, ∀ op ∈ opcodeOf b, ∀ ds ∈ opcodeDigits op, (b.toNat, ds) ∈ admittedDigits := by
  decide

theorem ofDigit?_isSome_iff : ∀ g : BitVec 3, (ShiftOp.ofDigit? g).isSome = true ↔ g.toNat ∈ [4, 5, 7] := by
  decide

theorem decodeShiftGroup_of_digit_refused {m : Byte} (h : m.toNat / 8 % 8 ∉ [4, 5, 7])
    (k : ShiftOp → Byte → List Byte → DecodeResult) (bs : List Byte) : decodeShiftGroup k m bs = .error .digit := by
  rw [← toNat_regField, ← ofDigit?_isSome_iff, Option.not_isSome_iff_eq_none] at h
  rw [decodeShiftGroup, h]

theorem decodeRest_of_digit_refused {op : Opcode} {ds : List Nat} {m : Byte} (hop : opcodeDigits op = some ds)
    (hm : m.toNat / 8 % 8 ∉ ds) (bs : List Byte) : decodeRest op (m :: bs) = .error .digit := by
  have hne {n : BitVec 3} (hn : n.toNat ∈ ds) : regField m ≠ n := fun h => hm (by rwa [← toNat_regField, h])
  cases op with
  | groupC1 | groupD1 | groupD3 =>
    obtain rfl := Option.some.inj hop
    exact decodeShiftGroup_of_digit_refused hm _ bs
  | groupC7 =>
    obtain rfl := Option.some.inj hop
    exact if_neg (hne (by decide))
  | groupF7 =>
    obtain rfl := Option.some.inj hop
    exact (if_neg (hne (by decide))).trans ((if_neg (hne (by decide))).trans (if_neg (hne (by decide))))
  | groupFF =>
    obtain rfl := Option.some.inj hop
    exact (if_neg (hne (by decide))).trans (if_neg (hne (by decide)))
  | _ => exact absurd hop nofun

theorem decodeRmOnly_of_refusedModRM {m : Byte} (h : refusedModRM m) (f : RM → Instr) (bs : List Byte) :
    decodeRmOnly f m bs = .error .modRM := by
  rw [decodeRmOnly, decodeRM_of_refusedModRM h, Except.error_bind']

theorem decodeRmImm8_of_refusedModRM {m : Byte} (h : refusedModRM m) (f : RM → Byte → Instr) (bs : List Byte) :
    decodeRmImm8 f m bs = .error .modRM := by
  rw [decodeRmImm8, decodeRM_of_refusedModRM h, Except.error_bind']

theorem decodeShiftGroup_of_refusedModRM {m : Byte} {k : ShiftOp → Byte → List Byte → DecodeResult} {bs : List Byte}
    (hk : ∀ op, k op m bs = .error .modRM) (hm : m.toNat / 8 % 8 ∈ [4, 5, 7]) :
    decodeShiftGroup k m bs = .error .modRM := by
  rw [← toNat_regField, ← ofDigit?_isSome_iff, Option.isSome_iff_exists] at hm
  obtain ⟨op, hop⟩ := hm
  rw [decodeShiftGroup, hop]
  exact hk op

theorem decodeGroupF7_of_refusedModRM {m : Byte} (h : refusedModRM m) (hm : m.toNat / 8 % 8 ∈ [0, 2, 3])
    (bs : List Byte) : decodeGroupF7 m bs = .error .modRM := by
  have hg : ∀ g : BitVec 3, g.toNat ∈ [0, 2, 3] → g = 0 ∨ g = 2 ∨ g = 3 := by decide
  rw [← toNat_regField] at hm
  rcases hg _ hm with hg | hg | hg <;>
    simp [decodeGroupF7, hg, decodeRmImm32_of_refusedModRM h, decodeRmOnly_of_refusedModRM h]

theorem decodeGroupFF_of_refusedModRM {m : Byte} (h : refusedModRM m) (hm : m.toNat / 8 % 8 ∈ [0, 1])
    (bs : List Byte) : decodeGroupFF m bs = .error .modRM := by
  have hg : ∀ g : BitVec 3, g.toNat ∈ [0, 1] → g = 0 ∨ g = 1 := by decide
  rw [← toNat_regField] at hm
  rcases hg _ hm with hg | hg <;> simp [decodeGroupFF, hg, decodeRmOnly_of_refusedModRM h]

/-- Behind a digit that the opcode takes, the refused form stops the decoder. -/
theorem decodeRest_of_refusedModRM {op : Opcode} {m : Byte} (hop : (opcodeFormat 0 op).hasModRM = true)
    (h : refusedModRM m) (hm : ∀ ds, opcodeDigits op = some ds → m.toNat / 8 % 8 ∈ ds) (bs : List Byte) :
    decodeRest op (m :: bs) = .error .modRM := by
  cases op with
  | aluRmR | testRmR | movRmR => exact decodeRmReg_of_refusedModRM h _ bs
  | aluRRm n => exact decodeRmReg_of_refusedModRM h (fun rm r => aluRRm n r rm) bs
  | movRRm => exact decodeRmReg_of_refusedModRM h (fun rm r => .movRRm r rm) bs
  | group81 => exact decodeRmImm32_of_refusedModRM h _ bs
  | group83 => exact decodeRmImm8_of_refusedModRM h _ bs
  | groupC1 => exact decodeShiftGroup_of_refusedModRM (fun op => decodeRmImm8_of_refusedModRM h _ bs) (hm _ rfl)
  | groupD1 | groupD3 =>
    exact decodeShiftGroup_of_refusedModRM (fun op => decodeRmOnly_of_refusedModRM h _ bs) (hm _ rfl)
  | groupC7 =>
    exact (decodeGroupC7_of_digit_zero (List.mem_singleton.mp (hm _ rfl)) bs).trans
      (decodeRmImm32_of_refusedModRM h _ bs)
  | groupF7 => exact decodeGroupF7_of_refusedModRM h (hm _ rfl) bs
  | groupFF => exact decodeGroupFF_of_refusedModRM h (hm _ rfl) bs
  | _ => exact absurd hop nofun

/-- The first bytes with a ModRM byte are those of the opcodes whose format has one. -/
theorem exists_opcodeOf_of_modRM {b : Byte} (h : b.toNat ∈ modRMFirstBytes) :
    ∃ op, opcodeOf b = some op ∧ (opcodeFormat 0 op).hasModRM = true := by
  have hsub : ∀ n ∈ modRMFirstBytes, n ∈ admittedFirstBytes := by decide
  obtain ⟨op, hop⟩ := Option.isSome_iff_exists.mp ((opcodeOf_isSome_iff b).mpr (hsub _ h))
  exact ⟨op, hop, (opcodeOf_hasModRM b op hop).trans (decide_eq_true h)⟩

/-! ### The statements -/

/-- Settles O2: each row of the encoder meets its line of the decoder. -/
theorem decodeOfEncodeIsTheInstruction : Obligations.DecodeOfEncodeIsTheInstruction := fun _ rest h =>
  decodesBack h rest

/-- Settles O3: the opcode determines its first byte, and each line of the decoder reads an encoding. -/
theorem decodedBytesAreTheEncoding : Obligations.DecodedBytesAreTheEncoding := fun _ _ _ h => decode_ok h

/-- Settles O1: the strings are the encodings of their instructions. -/
theorem writtenOutWordsDecode : Obligations.WrittenOutWordsDecode := fun bs =>
  ⟨decodesBack (i := .addRmR (.reg .eax) .ebx) rfl bs, decodesBack (i := .addRRm .eax (.memDisp8 .ebx 0x04)) rfl bs,
    decodesBack (i := .orRmImm32 (.reg .ebx) 0xFF00) rfl bs, decodesBack (i := .testRmImm32 (.reg .ebx) 1) rfl bs,
    decodesBack (i := .incR .edi) rfl bs, decodesBack (i := .notRm (.mem .ebx)) rfl bs,
    decodesBack (i := .shlRmImm8 (.reg .eax) 4) rfl bs, decodesBack (i := .movRRm .eax (.memDisp32 .ebx 0x80)) rfl bs,
    decodesBack (i := .nop) rfl bs, decodesBack (i := .pushImm8 0xFF) rfl bs, decodesBack (i := .popR .esp) rfl bs,
    decodesBack (i := .jmpRel32 0xFFFFFFFB) rfl bs, decodesBack (i := .jeRel32 1) rfl bs,
    decodesBack (i := .hlt) rfl bs⟩

/-- Settles O5: the first byte, the second byte, the digit and the form are judged in this order, each against its
table. -/
theorem unadmittedEncodingsAreRefused : Obligations.UnadmittedEncodingsAreRefused := by
  refine ⟨fun b bs h => decode_of_first_byte_refused h bs, fun b h => exists_decode_of_first_byte h,
    fun b bs h => decode_of_first_byte_refused (legacy_bytes_refused _ h) bs, decode_near_jump,
    fun b bs h => decode_of_second_byte_refused h bs, fun b m bs ds hds hm => ?_, fun b m bs hb h hm => ?_⟩
  · obtain ⟨op, hop, hdigits⟩ := opcodeDigits_of_admittedDigits b _ hds rfl
    rw [decode_cons hop, decodeRest_of_digit_refused hdigits hm]
  · obtain ⟨op, hop, hmod⟩ := exists_opcodeOf_of_modRM hb
    rw [decode_cons hop]
    exact decodeRest_of_refusedModRM hmod h (fun ds hds => hm ds (admittedDigits_of_opcodeDigits b op hop ds hds)) bs

end Sys2Proof.Machine
end

section
/-! Proofs: words in memory and operands (20_memory.md R67 to R69, 30_encoding.md R103 to R105). A word is the value of
its four cells, and writing a word is writing the run of its four bytes. -/

namespace Sys2Proof.Machine

/-! ### Words -/

/-- The bytes of the word at an address are its four cells. -/
theorem Memory.bytesOfWord_word (m : Memory) (a : Nat) :
    bytesOfWord (m.word a) = [m.read a, m.read (a + 1), m.read (a + 2), m.read (a + 3)] :=
  bytesOfWord_wordOfBytes ..

theorem getElem?_bytesOfWord (v : Word) {k : Nat} (hk : k < 4) : (bytesOfWord v)[k]? = some (v.extractLsb' (8 * k) 8) := by
  interval_cases k <;> rfl

theorem Memory.extractLsb'_word (m : Memory) (a : Nat) {k : Nat} (hk : k < 4) :
    (m.word a).extractLsb' (8 * k) 8 = m.read (a + k) := by
  have hbyte := getElem?_bytesOfWord (m.word a) hk
  rw [m.bytesOfWord_word] at hbyte
  interval_cases k <;> exact (Option.some.inj hbyte).symm

theorem Memory.read_writeRun_bytesOfWord {m : Memory} (h : m.wf) (a : Nat) (v : Word) {k : Nat} (hk : k < 4) :
    (m.writeRun a (bytesOfWord v)).read (a + k) = v.extractLsb' (8 * k) 8 := by
  rw [← Memory.extractLsb'_word _ a hk, Memory.word_writeRun a v h]

theorem wordOfRun_single_toNat (b : Byte) : (wordOfRun [b]).toNat = b.toNat := by
  simp [wordOfRun, wordOfBytes_toNat]

/-- A byte inside a word that can be read can be loaded. -/
theorem State.load_byte_of_covers {s : State} {a n k : Nat} (h : s.bounds.covers a n = true) (hk : k < n) :
    s.load (a + k) 1 = .ok [s.mem.read (a + k)] := by
  rw [Bounds.covers_iff] at h
  exact State.load_of_covers ((Bounds.covers_iff ..).mpr (by omega))

theorem State.memRead_isOk_iff (s : State) (a : Word) :
    (∃ v, s.memRead a = .ok v) ↔ s.bounds.memStart ≤ a.toNat ∧ a.toNat + 4 ≤ s.bounds.memEnd := by
  rw [← Bounds.covers_iff]
  exact ⟨fun ⟨_, hv⟩ => (State.memRead_ok hv).1, fun h => ⟨_, State.memRead_of_covers h⟩⟩

/-! ### The statements -/

/-- Settles O10: a word that can be read is the word of the memory at its address, and a byte of it is the cell. -/
theorem memReadIsLittleEndian : Obligations.MemReadIsLittleEndian := by
  refine ⟨fun s a v hv => ?_, fun s a bytes hload => ?_, State.memRead_isOk_iff⟩
  · obtain ⟨hcov, rfl⟩ := State.memRead_ok hv
    refine ⟨wordOfBytes_toNat .., fun k hk => ?_⟩
    rw [State.load_byte_of_covers hcov hk, Memory.extractLsb'_word _ _ hk]
  · obtain ⟨-, hs⟩ | ⟨-, hs⟩ := s.load_cases a 1
    · obtain rfl := Except.ok.inj (hload.symm.trans hs)
      exact wordOfRun_single_toNat _
    · exact absurd (hload.symm.trans hs) nofun

/-- Settles O11: a write in bounds is a store of the four bytes, whatever the address is divisible by. -/
theorem memWriteIsLittleEndianAtAnyAddress : Obligations.MemWriteIsLittleEndianAtAnyAddress := by
  intro s a v hwf
  refine ⟨fun hin => ?_, fun hout => ?_⟩
  · have hcov : s.bounds.covers a.toNat 4 = true := (Bounds.covers_iff ..).mpr hin
    have hcell {k : Nat} (hk : k < 4) := Memory.read_writeRun_bytesOfWord hwf a.toNat v hk
    have hread : State.memRead { s with mem := s.mem.writeRun a.toNat (bytesOfWord v) } a = .ok v := by
      rw [State.memRead_of_covers (by exact hcov), Memory.word_writeRun _ _ hwf]
    exact ⟨_, State.store_eq_ok_iff.mpr ⟨hcov, rfl⟩, rfl, hread, hcell (k := 0) (by decide),
      hcell (k := 1) (by decide), hcell (k := 2) (by decide), hcell (k := 3) (by decide),
      fun x hx => Memory.read_writeRun_outside hwf hx⟩
  · exact State.store_of_not_covers ((Bounds.covers_eq_false_iff ..).mpr hout)

/-- Settles O12: the cases of an operand, with the displacement of the short memory form sign-extended. -/
theorem operandsResolveAsTheRulesSay : Obligations.OperandsResolveAsTheRulesSay := by
  refine ⟨fun s base disp8 disp32 => ⟨rfl, ⟨sext32 disp8, rfl, toInt_sext32 disp8⟩, rfl, BitVec.toNat_add ..⟩,
    fun _ _ _ _ => ⟨rfl, rfl⟩, fun s r v => ⟨rfl, rfl, s.setReg r v, rfl, rfl, s.setReg_reg_same r v, fun q hq => ?_⟩⟩
  exact s.setReg_reg_other v hq

end Sys2Proof.Machine
end

section
/-! Proofs: what an instruction leaves unchanged, for every instruction and every outcome (10_state.md R22, R24, R27, R29,
R32; 20_memory.md R70; 60_exceptions.md R305). Each frame is read off the cases of `Effect`. -/

namespace Sys2Proof.Machine

/-! ### Frames of an effect -/

theorem Effect.reg_eq {s t : State} {i : Instr} (h : Effect s i t) {r : Reg} (hr : r ∉ writtenRegs s i) :
    t.reg r = s.reg r := by
  have hne {q : Reg} (hq : q ∈ writtenRegs s i) : r ≠ q := fun e => hr (e ▸ hq)
  cases h with
  | raised => rfl
  | pushRaised hesp => exact s.setReg_reg_other _ (hne hesp)
  | wrote o v m _ hdst => exact s.put_reg_of_ne v fun e => hr (hdst r e)
  | pushed v e hesp => exact s.pushed_reg v r (hne hesp)
  | popped q v e hesp hq => exact (State.setReg_reg_other _ v (hne hq)).trans (s.setReg_reg_other _ (hne hesp))
  | jumped => rfl
  | halted => rfl

theorem Effect.read_eq {s t : State} {i : Instr} (h : Effect s i t) (hwf : s.mem.wf) {a : Nat}
    (ha : ∀ p, storeAddress s i = some p → a < p.toNat ∨ p.toNat + 4 ≤ a) : t.mem.read a = s.mem.read a := by
  cases h with
  | wrote o v m _ _ hdst => exact State.put_read v hwf fun b d e => ha _ (hdst b d e)
  | pushed v e _ hslot => exact Memory.read_writeRun_outside hwf (ha _ hslot)
  | raised | pushRaised | popped | jumped | halted => rfl

/-- Every effect on `eflags` is a write-back of a map that names no flag outside the table. -/
theorem Effect.eflags_eq {s t : State} {i : Instr} (h : Effect s i t) :
    ∃ m : FlagMap, t.eflags = m.apply s.eflags ∧ ∀ f, f ∉ writtenFlags s i → m.get f = none := by
  cases h with
  | wrote o v m _ _ _ hm => exact ⟨m, congrArg m.apply (s.put_eflags o v), hm⟩
  | raised | pushRaised | pushed | popped | jumped | halted => exact ⟨{}, rfl, fun f _ => by cases f <;> rfl⟩

theorem Effect.bounds_eq {s t : State} {i : Instr} (h : Effect s i t) : t.bounds = s.bounds := by
  cases h with
  | wrote o v => exact s.put_bounds o v
  | raised | pushRaised | pushed | popped | jumped | halted => rfl

theorem Effect.mem_wf {s t : State} {i : Instr} (h : Effect s i t) (hwf : s.mem.wf) : t.mem.wf := by
  cases h with
  | wrote o v => exact State.put_wf o v hwf
  | pushed => exact Memory.writeRun_wf _ _ hwf
  | raised | pushRaised | popped | jumped | halted => exact hwf

/-- An access is checked before it writes, so no cell outside the memory is written. -/
theorem Effect.mem_inside {s t : State} {i : Instr} (h : Effect s i t)
    (hin : ∀ c ∈ s.mem, s.bounds.memStart ≤ c.1 ∧ c.1 < s.bounds.memEnd) :
    ∀ c ∈ t.mem, t.bounds.memStart ≤ c.1 ∧ c.1 < t.bounds.memEnd := by
  rw [h.bounds_eq]
  cases h with
  | wrote o v m hacc => exact State.put_inside hacc hin
  | pushed v e _ _ hslot =>
    intro c hc
    rw [Bounds.covers_iff] at hslot
    obtain hc | hc := Memory.key_of_mem_writeRun hc
    · exact hin c hc
    · rw [bytesOfWord_length] at hc; omega
  | raised | pushRaised | popped | jumped | halted => exact hin

/-- The run state and the latched kind: kept, or `HLT`, or the one error of an instruction. -/
theorem Effect.control {s t : State} {i : Instr} (h : Effect s i t) :
    (t.runState = s.runState ∧ t.faultKind = s.faultKind) ∨
    (i = .hlt ∧ t.runState = .halted ∧ t.faultKind = s.faultKind) ∨
    (t.runState = .faulted ∧ t.faultKind = (s.faultKind <|> some .outOfBounds) ∧ t.eip = s.eip) := by
  cases h with
  | raised | pushRaised => exact .inr (.inr ⟨rfl, rfl, rfl⟩)
  | halted hi => exact .inr (.inl ⟨hi, rfl, rfl⟩)
  | wrote o v => exact .inl ⟨s.put_runState o v, s.put_faultKind o v⟩
  | pushed | popped | jumped => exact .inl ⟨rfl, rfl⟩

/-- An instruction that completes and transfers no control advances. -/
theorem Effect.eip_eq_nextEip {s t : State} {i : Instr} (h : Effect s i t) (ht : t.runState ≠ .faulted)
    (hjmp : jmpForm i = none) (hjcc : jccForm i = none) (hret : i ≠ .ret) (hcall : ∀ rel, i ≠ .callRel32 rel) :
    t.eip = s.nextEip (encode i).length := by
  cases h with
  | raised | pushRaised => exact absurd rfl ht
  | wrote o v => exact s.put_nextEip o v _
  | pushed v e _ _ _ he => exact he.resolve_right fun ⟨rel, hrel⟩ => hcall rel hrel
  | popped r v e _ _ he => exact he.resolve_right hret
  | jumped e hj => simp [hjmp, hjcc] at hj
  | halted => rfl

theorem State.nextEip_toNat (s : State) (len : Nat) : (s.nextEip len).toNat = (s.eip.toNat + len) % 2 ^ 32 := by
  rw [s.nextEip_eq, BitVec.toNat_ofNat]

/-! ### Flags -/

theorem flagBit_mem (f : Flag) : flagBit f ∈ [0, 2, 4, 6, 7, 11] := by cases f <;> decide

/-- Every bit of `eflags` but those of the six flags is reserved. -/
theorem flagBit_ne_of_not_mem {k : Nat} (hk : k ∉ [0, 2, 4, 6, 7, 11]) (f : Flag) : flagBit f ≠ k :=
  fun e => hk (e ▸ flagBit_mem f)

theorem Effect.testFlag_eq {s t : State} {i : Instr} (h : Effect s i t) {f : Flag} (hf : f ∉ writtenFlags s i) :
    t.testFlag f = s.testFlag f := by
  obtain ⟨m, heflags, hm⟩ := h.eflags_eq
  rw [testFlag_of_eflags_eq_apply heflags, hm f hf, Option.getD_none]

theorem Effect.reserved_eq {s t : State} {i : Instr} (h : Effect s i t) {k : Nat} (hk : k ∉ [0, 2, 4, 6, 7, 11]) :
    t.eflags.getLsbD k = s.eflags.getLsbD k := by
  obtain ⟨m, heflags, -⟩ := h.eflags_eq
  rw [heflags, getLsbD_apply_reserved m _ _ (flagBit_ne_of_not_mem hk)]

/-! ### The statements -/

/-- Settles O32: a flag map's write-back, flag by flag and bit by bit. -/
theorem flagWriteBackWritesOnlyNamedFlags : Obligations.FlagWriteBackWritesOnlyNamedFlags := by
  intro s m
  refine ⟨holdsFlags_writeFlags s m, fun f hf => ?_, fun k hk => getLsbD_apply_reserved m _ k hk, rfl⟩
  rw [State.testFlag_writeFlags, hf, Option.getD_none]

/-- Settles O56, by the cases of the effect: what is written is a register destination or `esp`. -/
theorem unwrittenRegistersKeepTheirValue : Obligations.UnwrittenRegistersKeepTheirValue :=
  fun _ _ _ _ hexec hr => (exec_effect hexec).reg_eq hr

/-- Settles O57, by the cases of the effect: a memory destination or the slot of a push. -/
theorem memoryOutsideTheStoreReadsAsBefore : Obligations.MemoryOutsideTheStoreReadsAsBefore :=
  fun _ _ _ _ hwf hexec ha => (exec_effect hexec).read_eq hwf ha

/-- Settles O58: the write-back of an instruction names flags of the table alone, and no map names a reserved bit. -/
theorem flagsOutsideTheTableKeepTheirValue : Obligations.FlagsOutsideTheTableKeepTheirValue :=
  fun _ _ _ hexec => ⟨fun _ hf => (exec_effect hexec).testFlag_eq hf, fun _ hk => (exec_effect hexec).reserved_eq hk⟩

/-- Settles O60, by the cases of the effect. -/
theorem controlStateAndEipFrame : Obligations.ControlStateAndEipFrame := by
  intro i s t hexec
  have h := exec_effect hexec
  refine ⟨h.bounds_eq, ?_, fun _ ht hjmp hjcc hret hcall => ?_⟩
  · rw [← State.raise_eq_faultedWith]
    exact h.control
  · rw [h.eip_eq_nextEip ht hjmp hjcc hret hcall, State.nextEip_toNat]

end Sys2Proof.Machine
end

section
/-! Proofs: the step and what every step keeps (60_exceptions.md R300 to R309, 10_state.md R27, R31, R32, 20_memory.md
R79). The decode phase is said once by the bytes at `eip`; a property of runs is one of single steps (`run_induction`). -/

namespace Sys2Proof.Machine

/-! ### The decode phase -/

/-- Cells that hold the bytes of a list are read as that list. -/
theorem Memory.readRun_eq_of_read {m : Memory} {a : Nat} {bs : List Byte}
    (h : ∀ k (hk : k < bs.length), m.read (a + k) = bs[k]) : m.readRun a bs.length = bs := by
  refine List.ext_getElem? fun k => ?_
  by_cases hk : k < bs.length
  · rw [Memory.readRun_getElem? _ _ _ _ hk, h k hk, List.getElem?_eq_getElem hk]
  · rw [List.getElem?_eq_none (by simp; omega), List.getElem?_eq_none (by omega)]

/-- The encoding of a well-formed instruction at `eip` inside the memory is what the decode phase finds. -/
theorem State.fetchDecode_of_encode {s : State} {i : Instr} (hwf : i.wellFormed = true)
    (hlo : s.bounds.memStart ≤ s.eip.toNat) (hhi : s.eip.toNat + (encode i).length ≤ s.bounds.memEnd)
    (hbytes : ∀ k (hk : k < (encode i).length), s.mem.read (s.eip.toNat + k) = (encode i)[k]) :
    s.fetchDecode = .ok i := by
  refine State.fetchDecode_of_ok (rest := []) hlo hhi ?_
  rw [Memory.readRun_eq_of_read hbytes]
  simpa using decodesBack hwf []

/-- The byte at `eip` is the first byte of the instruction that the decode phase finds. -/
theorem State.read_eip_of_fetchDecode {s : State} {i : Instr} (hlo : s.bounds.memStart ≤ s.eip.toNat)
    (h : s.fetchDecode = .ok i) : (encode i).head? = some (s.mem.read s.eip.toNat) := by
  rw [State.fetchDecode_eq hlo] at h
  split at h
  · next j rest hd =>
    obtain rfl := Except.ok.inj h
    obtain ⟨-, hbytes⟩ := decode_ok hd
    obtain ⟨b, tail, henc⟩ := exists_encode_eq_cons j
    rw [henc] at hbytes ⊢
    cases hn : min maxLength (s.bounds.memEnd - s.eip.toNat) with
    | zero => rw [hn] at hbytes; exact absurd hbytes nofun
    | succ n =>
      rw [hn] at hbytes
      exact congrArg some (List.cons.inj hbytes).1.symm
  · exact absurd h nofun

/-- Every refusal but the end of the bytes stands for `DecodeError` (R308). -/
theorem faultOfStop_eq_decode {stop : DecodeStop} (h : stop ≠ .outOfBytes) : faultOfStop stop = .decode := by
  cases stop with
  | outOfBytes => exact absurd rfl h
  | _ => rfl

/-- The text of a ready machine lies in its memory. -/
theorem State.Inv.eip_in_memory {s : State} (hs : s.Inv) (hready : s.runState = .ready) :
    s.bounds.memStart ≤ s.eip.toNat ∧ s.eip.toNat + 1 ≤ s.bounds.memEnd :=
  (Bounds.covers_iff ..).mp (hs.covers_eip hready)

/-- Without a latched kind an error latches its own. -/
theorem State.raise_of_no_fault {s : State} (h : s.faultKind = none) (f : Fault) :
    s.raise f = { s with runState := .faulted, faultKind := some f } := by
  simp [State.raise, h]

/-! ### Runs -/

/-- A relation that holds of a state with itself, and that a step in front keeps, holds along every run. -/
theorem run_induction {R : State → State → Prop} (hrefl : ∀ s, R s s)
    (hstep : ∀ s u t, step s = .next u → R u t → R s t) {n : Nat} {s t : State}
    (h : Sys2Proof.core.run n s = .next t) : R s t := by
  induction n generalizing s with
  | zero => exact Host.Outcome.next.inj h ▸ hrefl s
  | succ n ih =>
    obtain ⟨u, hu⟩ := step_next s
    rw [run_succ n hu] at h
    exact hstep s u t hu (ih h)

/-- A state that a step leaves as it is stays under any number of steps. -/
theorem run_eq_self {s : State} (h : step s = .next s) (n : Nat) : Sys2Proof.core.run n s = .next s := by
  induction n with
  | zero => rfl
  | succ n ih => rw [run_succ n h, ih]

/-! ### The invariant -/

/-- The halt check ends a step, and an `Initialize`, in a state of the invariant: it decides `ready` by the text. -/
theorem State.inv_haltCheck {s : State} (hwf : s.mem.wf)
    (hin : ∀ c ∈ s.mem, s.bounds.memStart ≤ c.1 ∧ c.1 < s.bounds.memEnd) (hbounds : s.bounds.wf)
    (hready : s.runState ≠ .ready) (hlatched : s.faultKind.isSome = true ↔ s.runState = .faulted) :
    s.haltCheck.Inv := by
  by_cases hrun : s.runState = .running
  · have hnone : s.faultKind.isSome = false := Bool.eq_false_iff.mpr (mt hlatched.mp (by simp [hrun]))
    rw [State.haltCheck_running hrun]
    refine ⟨hwf, hin, hbounds, ?_, fun h => ?_, ?_⟩
    · dsimp only
      split <;> nofun
    · refine s.eipInText_iff.mp ?_
      by_contra hout
      simp [hout] at h
    · dsimp only
      rw [hnone]
      split <;> simp
  · rw [State.haltCheck_other hrun]
    exact ⟨hwf, hin, hbounds, hrun, fun h => absurd h hready, hlatched⟩

/-- Taking an error keeps the invariant. -/
theorem State.Inv.raise {s : State} (hs : s.Inv) (f : Fault) : (s.raise f).Inv where
  memWf := hs.memWf
  memInside := hs.memInside
  boundsWf := hs.boundsWf
  notRunning := nofun
  readyInText := nofun
  latched := by cases h : s.faultKind <;> simp [h]

/-- From a state without an error an instruction latches a kind exactly when it ends `faulted`. -/
theorem Effect.latched {s t : State} {i : Instr} (h : Effect s i t) (hrun : s.runState = .running)
    (hkind : s.faultKind = none) : t.faultKind.isSome = true ↔ t.runState = .faulted := by
  obtain ⟨hr, hk⟩ | ⟨-, hr, hk⟩ | ⟨hr, hk, -⟩ := h.control <;> simp [hr, hk, hrun, hkind]

/-- An instruction does not end `ready`: the halt check is what makes the machine so. -/
theorem Effect.not_ready {s t : State} {i : Instr} (h : Effect s i t) (hrun : s.runState = .running) :
    t.runState ≠ .ready := by
  obtain ⟨hr, -⟩ | ⟨-, hr, -⟩ | ⟨hr, -⟩ := h.control <;> simp [hr, hrun]

theorem step_inv {s t : State} (hs : s.Inv) (h : step s = .next t) : t.Inv := by
  obtain ⟨-, rfl⟩ | ⟨-, f, -, rfl⟩ | ⟨hready, i, u, -, hexec, rfl⟩ := step_cases h
  · exact hs.raise _
  · exact hs.raise f
  · have he := exec_effect hexec
    exact State.inv_haltCheck (he.mem_wf hs.memWf) (he.mem_inside hs.memInside) (he.bounds_eq ▸ hs.boundsWf)
      (he.not_ready rfl) (he.latched rfl (hs.faultKind_eq_none (by simp [hready])))

/-! ### What a step keeps -/

theorem step_bounds_eq {s t : State} (h : step s = .next t) : t.bounds = s.bounds := by
  obtain ⟨-, rfl⟩ | ⟨-, f, -, rfl⟩ | ⟨-, i, u, -, hexec, rfl⟩ := step_cases h
  · rfl
  · rfl
  · exact u.haltCheck_bounds.trans (exec_effect hexec).bounds_eq

theorem step_reserved_eq {s t : State} (h : step s = .next t) {k : Nat} (hk : k ∉ [0, 2, 4, 6, 7, 11]) :
    t.eflags.getLsbD k = s.eflags.getLsbD k := by
  obtain ⟨-, rfl⟩ | ⟨-, f, -, rfl⟩ | ⟨-, i, u, -, hexec, rfl⟩ := step_cases h
  · rfl
  · rfl
  · rw [State.haltCheck_eflags]
    exact (exec_effect hexec).reserved_eq hk

theorem step_faulted {s t : State} (h : step s = .next t) (hs : s.runState = .faulted) : t.runState = .faulted := by
  rw [step_not_ready (by simp [hs]), Host.Outcome.next.injEq] at h
  exact h ▸ rfl

theorem State.haltCheck_faulted_iff (s : State) : s.haltCheck.runState = .faulted ↔ s.runState = .faulted := by
  by_cases h : s.runState = .running
  · rw [State.haltCheck_running h, h]
    dsimp only
    split <;> simp
  · rw [State.haltCheck_other h]

/-! ### Errors (R305) -/

/-- An instruction that takes an error has changed nothing, or it is a `PUSH` or `CALL` that decremented `esp`. -/
theorem Effect.faulted {s t : State} {i : Instr} (h : Effect s i t) (hs : s.runState ≠ .faulted)
    (ht : t.runState = .faulted) :
    t = s.raise .outOfBounds ∨
    (t = (s.setReg .esp (s.reg .esp - 4)).raise .outOfBounds ∧
      ((∃ v, pushForm s i = some v) ∨ ∃ rel, i = .callRel32 rel)) := by
  cases h with
  | raised => exact .inl rfl
  | pushRaised _ hpush => exact .inr ⟨rfl, hpush⟩
  | wrote o v => exact absurd ((s.put_runState o v).symm.trans ht) hs
  | pushed | popped | jumped => exact absurd ht hs
  | halted => exact absurd ht nofun

theorem toNat_opcode_pushR (r : Reg) : (plusReg 0b01010 r).toNat ∈ List.range' 0x50 8 := by cases r <;> decide

/-- The first bytes of `PUSH` and `CALL` (30_encoding.md R107, R108). -/
theorem first_byte_of_push_or_call {s : State} {i : Instr} {b : Byte}
    (hi : (∃ v, pushForm s i = some v) ∨ ∃ rel, i = .callRel32 rel) (hb : (encode i).head? = some b) :
    b.toNat ∈ List.range' 0x50 8 ++ [0x68, 0x6A, 0xE8] := by
  have hlast {b : Byte} (h : b.toNat ∈ [0x68, 0x6A, 0xE8]) : b.toNat ∈ List.range' 0x50 8 ++ [0x68, 0x6A, 0xE8] :=
    List.mem_append_right _ h
  obtain ⟨v, hv⟩ | ⟨rel, rfl⟩ := hi
  · cases i with
    | pushR r =>
      obtain rfl := Option.some.inj hb
      exact List.mem_append_left _ (toNat_opcode_pushR r)
    | pushImm32 =>
      obtain rfl := Option.some.inj hb
      exact hlast (by decide)
    | pushImm8 =>
      obtain rfl := Option.some.inj hb
      exact hlast (by decide)
    | _ => exact absurd hv nofun
  · obtain rfl := Option.some.inj hb
    exact hlast (by decide)

/-- Everything a step of a ready machine that ends in an error can have done. -/
theorem step_faulted_cases {s t : State} (hs : s.Inv) (hready : s.runState = .ready) (h : step s = .next t)
    (ht : t.runState = .faulted) :
    (∃ f, (f = .outOfBounds ∨ f = .decode) ∧ t = s.raise f) ∨
    (t = (s.setReg .esp (s.reg .esp - 4)).raise .outOfBounds ∧
      (s.mem.read s.eip.toNat).toNat ∈ List.range' 0x50 8 ++ [0x68, 0x6A, 0xE8]) := by
  obtain ⟨hn, -⟩ | ⟨-, f, hdecode, rfl⟩ | ⟨-, i, u, hdecode, hexec, rfl⟩ := step_cases h
  · exact absurd hready hn
  · exact .inl ⟨f, State.fetchDecode_error hdecode, rfl⟩
  · have hu := u.haltCheck_faulted_iff.mp ht
    rw [State.haltCheck_other (by simp [hu])]
    obtain rfl | ⟨rfl, hi⟩ := (exec_effect hexec).faulted (by simp) hu
    · exact .inl ⟨_, .inl rfl, rfl⟩
    · exact .inr ⟨rfl, first_byte_of_push_or_call hi
        (State.read_eip_of_fetchDecode (s := s.enter) (hs.eip_in_memory hready).1 hdecode)⟩

/-! ### How a completed step ends (R303) -/

theorem State.haltCheck_eipInText (s : State) : s.haltCheck.eipInText = s.eipInText := by
  simp [State.eipInText]

theorem State.haltCheck_eq (s : State) : s.haltCheck = { s with
    runState := if s.runState = .running then
      (if s.bounds.textStart ≤ s.eip.toNat ∧ s.eip.toNat < s.bounds.textEnd then .ready else .halted)
      else s.runState } := by
  by_cases h : s.runState = .running
  · simp only [State.haltCheck_running h, if_pos h, State.eipInText_iff]
  · rw [State.haltCheck_other h, if_neg h]

/-- Outside `running` no step ends `halted` without `HLT` or an `eip` outside the text. -/
theorem step_halted {s t : State} (hs : s.Inv) (hready : s.runState = .ready) (h : step s = .next t)
    (ht : t.runState = .halted) : s.mem.read s.eip.toNat = 0xF4 ∨
      ¬ (t.bounds.textStart ≤ t.eip.toNat ∧ t.eip.toNat < t.bounds.textEnd) := by
  obtain ⟨-, rfl⟩ | ⟨-, f, -, rfl⟩ | ⟨-, i, u, hdecode, hexec, rfl⟩ := step_cases h
  · exact absurd ht nofun
  · exact absurd ht nofun
  · obtain ⟨hrun, -⟩ | ⟨rfl, -⟩ | ⟨hrun, -⟩ := (exec_effect hexec).control
    · refine .inr ?_
      rw [← State.eipInText_iff, State.haltCheck_eipInText]
      intro htext
      rw [State.haltCheck_running hrun] at ht
      simp [htext] at ht
    · exact .inl (Option.some.inj
        (State.read_eip_of_fetchDecode (s := s.enter) (hs.eip_in_memory hready).1 hdecode)).symm
    · rw [State.haltCheck_other (by simp [hrun]), hrun] at ht
      exact absurd ht nofun

/-- A step of a ready machine does not end `running` or `uninitialized`. -/
theorem step_runState {s t : State} (hready : s.runState = .ready) (h : step s = .next t) :
    t.runState = .ready ∨ t.runState = .halted ∨ t.runState = .faulted := by
  obtain ⟨hn, -⟩ | ⟨-, f, -, rfl⟩ | ⟨-, i, u, -, hexec, rfl⟩ := step_cases h
  · exact absurd hready hn
  · exact .inr (.inr rfl)
  · obtain ⟨hrun, -⟩ | ⟨-, hrun, -⟩ | ⟨hrun, -⟩ := (exec_effect hexec).control
    · rw [State.haltCheck_running hrun]
      dsimp only
      split
      · exact .inl rfl
      · exact .inr (.inl rfl)
    · exact .inr (.inl (by rw [State.haltCheck_other (by simp [hrun]), hrun]))
    · exact .inr (.inr (u.haltCheck_faulted_iff.mpr hrun))

/-! ### A jump to itself -/

theorem fetchDecode_self_jump {s : State} (hlo : s.bounds.memStart ≤ s.eip.toNat)
    (hhi : s.eip.toNat + 2 ≤ s.bounds.memEnd) (h0 : s.mem.read s.eip.toNat = 0xEB)
    (h1 : s.mem.read (s.eip.toNat + 1) = 0xFE) : s.fetchDecode = .ok (.jmpRel8 0xFE) := by
  refine State.fetchDecode_of_ok (n := 2) (rest := []) hlo hhi ?_
  rw [Memory.readRun, Memory.readRun, Memory.readRun, h0, h1]
  rfl

/-- The offset -2 undoes the advance by 2. -/
theorem exec_self_jump (s : State) : exec (.jmpRel8 0xFE) s = .next s := by
  have htarget : s.relativeTarget (sext32 0xFE) 2 = s.eip := by
    rw [State.relativeTarget, State.nextEip, BitVec.add_assoc, show BitVec.ofNat 32 2 + sext32 0xFE = 0#32 by decide,
      BitVec.add_zero]
  exact congrArg (fun e => Host.Outcome.next (s.setEip e)) htarget

theorem step_self_jump {s : State} (hs : s.Inv) (hready : s.runState = .ready)
    (h0 : s.mem.read s.eip.toNat = 0xEB) (h1 : s.mem.read (s.eip.toNat + 1) = 0xFE)
    (hhi : s.eip.toNat + 2 ≤ s.bounds.memEnd) : step s = .next s := by
  have hdecode := fetchDecode_self_jump (s := s.enter) (hs.eip_in_memory hready).1 hhi h0 h1
  have htext : s.enter.eipInText = true := s.enter.eipInText_iff.mpr (hs.readyInText hready)
  rw [step_ready_ok hready hdecode (exec_self_jump s.enter), State.haltCheck_running (s := s.enter) rfl, if_pos htext,
    ← hready]
  rfl

/-! ### The statements -/

/-- Settles O23: memory and bounds by the cases of the effect, the control state by the halt check. -/
theorem stepKeepsTheInvariant : Obligations.StepKeepsTheInvariant := fun _ _ hs h => step_inv hs h

/-- Settles O25, by induction on the run. -/
theorem runsKeepReservedFlagBitsAndBounds : Obligations.RunsKeepReservedFlagBitsAndBounds := fun _ _ _ hrun =>
  run_induction (R := fun s t => (∀ k, k ∉ [0, 2, 4, 6, 7, 11] → t.eflags.getLsbD k = s.eflags.getLsbD k) ∧
      t.bounds = s.bounds)
    (fun _ => ⟨fun _ _ => rfl, rfl⟩)
    (fun _ _ _ hstep ⟨hflags, hbounds⟩ =>
      ⟨fun k hk => (hflags k hk).trans (step_reserved_eq hstep hk), hbounds.trans (step_bounds_eq hstep)⟩)
    hrun

/-- Settles O26: an error is raised in the state itself, or in the one whose `esp` a `PUSH` or `CALL` decremented. -/
theorem errorsLeaveAtMostAPushedStackPointer : Obligations.ErrorsLeaveAtMostAPushedStackPointer := by
  refine ⟨fun s t hs hready hstep ht => ?_, fun n s t hs hrun => ?_⟩
  · have hkind : s.faultKind = none := hs.faultKind_eq_none (by simp [hready])
    obtain ⟨f, hf, rfl⟩ | ⟨rfl, hbyte⟩ := step_faulted_cases hs hready hstep ht
    · refine ⟨rfl, rfl, rfl, rfl, ?_, fun _ _ => rfl, .inl rfl⟩
      obtain rfl | rfl := hf <;> simp [hkind]
    · refine ⟨rfl, rfl, rfl, rfl, .inl ?_, fun r hr => s.setReg_reg_other _ hr, .inr ⟨?_, ?_, hbyte⟩⟩
      · simp [hkind]
      · exact s.setReg_reg_same .esp _
      · simp [hkind]
  · exact run_induction (R := fun s t => s.runState = .faulted → t.runState = .faulted) (fun _ h => h)
      (fun _ _ _ hstep ih h => ih (step_faulted hstep h)) hrun hs

/-- Settles O18: the decode phase finds the instruction, and the halt check is spelled out. -/
theorem stepRunsTheInstructionAtEip : Obligations.StepRunsTheInstructionAtEip := by
  intro s i hready hwf hlo hhi hbytes
  obtain ⟨t, ht⟩ := exec_next i s.enter
  refine ⟨t, ht, ?_⟩
  rw [step_ready_ok hready (State.fetchDecode_of_encode (s := s.enter) hwf hlo hhi hbytes) ht, State.haltCheck_eq]

/-- Settles O19: the first step outside `ready` takes the error, which no later step changes, and the host is told of it
by the run state alone. -/
theorem stepsOutsideReadyAreInvalid : Obligations.StepsOutsideReadyAreInvalid := by
  intro s n hs
  refine ⟨by rw [run_succ_not_ready n hs, State.raise_eq_faultedWith], fun t u hrun hstep => if_neg ?_⟩
  cases n with
  | zero => exact Host.Outcome.next.inj hrun ▸ hs
  | succ n =>
    obtain rfl := Host.Outcome.next.inj ((run_succ_not_ready n hs).symm.trans hrun)
    exact nofun

/-- Settles O20: the decoder's refusal of any bytes inside the memory is the error of the decode phase. -/
theorem undecodableBytesRaiseDecodeError : Obligations.UndecodableBytesRaiseDecodeError := by
  intro s bytes stop hs hready hdecode hstop hhi hbytes
  have hkind : s.faultKind = none := hs.faultKind_eq_none (by simp [hready])
  have hfetch : s.enter.fetchDecode = .error .decode := by
    rw [← faultOfStop_eq_decode hstop]
    refine State.fetchDecode_of_error (n := bytes.length) (hs.eip_in_memory hready).1 hhi ?_ hstop
    exact (congrArg decode (Memory.readRun_eq_of_read hbytes)).trans hdecode
  have hstep : step s = .next (s.raise .decode) := step_ready_error hready hfetch
  refine ⟨hstep.trans (by rw [State.raise_of_no_fault hkind]), ?_, fun n => ?_⟩
  · rw [stepResult, if_pos hready, ← State.raise_eq_faultedWith, State.raise_of_no_fault hkind]
  · rw [run_succ n hstep, run_raise, State.raise_of_no_fault hkind]

/-- Settles O21: bytes up to `memEnd` that do not settle the decode make the fetch pass the end. -/
theorem fetchPastTheMemoryIsOutOfBounds : Obligations.FetchPastTheMemoryIsOutOfBounds := by
  intro s n hs hready hend hdecode
  have hkind : s.faultKind = none := hs.faultKind_eq_none (by simp [hready])
  have hfetch := State.fetchDecode_of_short (s := s.enter) (hs.eip_in_memory hready).1 hend hdecode
  exact (step_ready_error hready hfetch).trans (congrArg _ (State.raise_of_no_fault (s := s.enter) hkind _))

/-- Settles O22: a step keeps the invariant, which has `ready` in the text; the other clauses are those of the halt
check and of `HLT`. -/
theorem haltCheckEndsEveryCompletedStep : Obligations.HaltCheckEndsEveryCompletedStep := by
  intro s t hs hready hstep
  refine ⟨step_runState hready hstep, (step_inv hs hstep).readyInText, step_halted hs hready hstep, fun hbyte => ?_, ?_⟩
  · obtain rfl := Host.Outcome.next.inj (hstep.symm.trans (step_hlt hs hready hbyte))
    exact ⟨rfl, rfl⟩
  · rw [step_bounds_eq hstep]
    exact ⟨rfl, rfl⟩

/-- Settles O27: a step of a ready machine ends in one of three run states, and by the invariant `faulted` has a kind. -/
theorem everyStepAnswersAndReports : Obligations.EveryStepAnswersAndReports := by
  refine ⟨step_next, fun s t hs hstep => ⟨fun hready => if_neg hready, fun hready => ?_⟩⟩
  rw [stepResult, if_pos hready]
  obtain ht | ht | ht := step_runState hready hstep
  · exact .inl ⟨ht, by rw [ht]⟩
  · exact .inr (.inl ⟨ht, by rw [ht]⟩)
  · obtain ⟨f, hf⟩ := Option.isSome_iff_exists.mp ((step_inv hs hstep).latched.mpr ht)
    exact .inr (.inr ⟨f, ht, hf, by rw [ht, hf]⟩)

/-- Settles O49: the step is the identity, so the run stays where it is. -/
theorem selfJumpNeverEnds : Obligations.SelfJumpNeverEnds := by
  intro s n hs hready h0 h1 hhi
  have hrun := run_eq_self (step_self_jump hs hready h0 h1 hhi)
  exact ⟨hrun n, fun k _ => ⟨s, hrun k, by simp [hready]⟩⟩

end Sys2Proof.Machine
end

section
/-! Proofs: what an instruction's effect depends on (10_state.md R29, 30_encoding.md R114, 40_alu_flags.md R150). Of
`eflags` it depends on the flags of the table alone; of the encoding, on the form, and on the length where `eip` is
concerned. -/

namespace Sys2Proof.Machine

/-! ### Another flags word -/

theorem State.setFlagsWord_readOp (s : State) (w : Word) (o : Operand) : (s.setFlagsWord w).readOp o = s.readOp o :=
  State.readOp_congr rfl rfl rfl o

theorem accessible_setFlagsWord {s : State} {w : Word} {o : Operand} :
    Accessible (s.setFlagsWord w) o ↔ Accessible s o := by
  rw [← State.readOp_ok_iff, ← State.readOp_ok_iff, State.setFlagsWord_readOp]

theorem State.setFlagsWord_put (s : State) (w : Word) (o : Operand) (v : Word) :
    (s.setFlagsWord w).put o v = (s.put o v).setFlagsWord w := by
  cases o <;> rfl

theorem shiftForm_setFlagsWord (s : State) (w : Word) (i : Instr) : shiftForm (s.setFlagsWord w) i = shiftForm s i := by
  cases i <;> rfl

theorem pushForm_setFlagsWord (s : State) (w : Word) (i : Instr) : pushForm (s.setFlagsWord w) i = pushForm s i := by
  cases i <;> rfl

theorem pushThen_setFlagsWord {k : State → State} {w : Word}
    (hk : ∀ t : State, k (t.setFlagsWord w) = (k t).setFlagsWord w) (v : Word) (s : State) :
    pushThen v k (s.setFlagsWord w) = (pushThen v k s).setFlagsWord w := by
  rw [pushThen_eq, pushThen_eq, apply_ite (State.setFlagsWord · w), ← hk]
  rfl

theorem popThen_setFlagsWord {k : Word → State → State} {w : Word}
    (hk : ∀ (v : Word) (t : State), k v (t.setFlagsWord w) = (k v t).setFlagsWord w) (s : State) :
    popThen k (s.setFlagsWord w) = (popThen k s).setFlagsWord w := by
  rw [popThen_eq, popThen_eq, apply_ite (State.setFlagsWord · w), ← hk]
  rfl

/-! ### The flags read (R29) -/

theorem forms_of_jccForm {i : Instr} {x} (h : jccForm i = some x) : aluForm i = none := by
  cases i <;> simp_all [aluForm, jccForm]

/-- The flags that a condition tests are those the table says its jumps read. -/
theorem condHolds_of_readFlags {i : Instr} {cc : Cond} {rel w w' : Word} (hi : jccForm i = some (cc, rel))
    (h : ∀ f ∈ readFlags i, flagOf w f = flagOf w' f) : condHolds cc w = condHolds cc w' := by
  simp only [readFlags, forms_of_jccForm hi, hi] at h
  cases cc <;> simp_all [condHolds]

/-- `ADC` and `SBB` alone have a core that reads a flag, and it is `CF`. -/
theorem aluCore_of_readFlags {i : Instr} {op : AluOp} {dst src : Operand} {s : State} {w : Word}
    (hi : aluForm i = some (op, dst, src)) (h : ∀ f ∈ readFlags i, flagOf w f = s.testFlag f) :
    aluCore (s.setFlagsWord w) op = aluCore s op := by
  simp only [readFlags, hi] at h
  cases op with
  | adc =>
    have hcf : (s.setFlagsWord w).testFlag .cf = s.testFlag .cf := h .cf List.mem_cons_self
    exact congrArg (fun c a b => addCore a b c) hcf
  | sbb =>
    have hcf : (s.setFlagsWord w).testFlag .cf = s.testFlag .cf := h .cf List.mem_cons_self
    exact congrArg (fun c a b => subCore a b c) hcf
  | add | or | and | sub | xor | cmp => rfl

/-! ### The flags written -/

theorem aluCore_names_all (s : State) (op : AluOp) (a b : Word) (f : Flag) : (aluCore s op a b).flags.get f ≠ none := by
  cases op <;> simp [aluCore, addCoreOf, orCoreOf, adcCoreWith, sbbCoreWith, andCoreOf, subCoreOf, xorCoreOf, cmpCoreOf,
    addCore, subCore, logicCore]

theorem shiftCore_names_all (op : ShiftOp) (a : Word) (c : Nat) (f : Flag) : (shiftCore op a c).flags.get f ≠ none := by
  cases op <;> simp [shiftCore, shlCore, shrCore, sarCore]

theorem unaryCore_names_written {s : State} {i : Instr} {op : UnaryOp} {dst : Operand}
    (hi : unaryForm i = some (op, dst)) (a : Word) {f : Flag} (hf : f ∈ writtenFlags s i) :
    (unaryCore op a).flags.get f ≠ none := by
  simp only [writtenFlags, forms_of_unaryForm hi, hi] at hf
  cases op with
  | not => exact absurd hf List.not_mem_nil
  | neg => simp [unaryCore, negCore, subCore]
  | inc | dec =>
    cases f with
    | cf => exact absurd hf (by simp)
    | _ => exact Option.some_ne_none _

theorem writtenFlags_eq_nil {s : State} {i : Instr}
    (h : (∃ v, pushForm s i = some v) ∨ (∃ rel, jmpForm i = some rel) ∨ ∃ x, jccForm i = some x) :
    writtenFlags s i = [] := by
  cases i <;> first | rfl | simp [pushForm, jmpForm, jccForm] at h

/-! ### Two runs that differ in `eflags` -/

/-- Two outcomes that are equal but for `eflags`, with the same value of every flag of `F` where they complete. -/
def Alike (F : List Flag) (t u : State) : Prop :=
  ∃ w, u = t.setFlagsWord w ∧ (t.runState ≠ .faulted → ∀ f ∈ F, flagOf w f = t.testFlag f)

theorem alike_nil (t : State) (w : Word) : Alike [] t (t.setFlagsWord w) :=
  ⟨w, rfl, fun _ _ hf => absurd hf List.not_mem_nil⟩

section
variable {F : List Flag}

theorem alike_raise (s : State) (w : Word) (f : Fault) : Alike F (s.raise f) ((s.setFlagsWord w).raise f) :=
  ⟨w, rfl, fun h => absurd rfl h⟩

theorem alike_attempt {α : Type} {k k' : α → State} (h : ∀ a, Alike F (k a) (k' a)) (s : State) (w : Word)
    (x : Except Fault α) : Alike F (s.attempt x k) ((s.setFlagsWord w).attempt x k') := by
  cases x with
  | error f => exact alike_raise s w f
  | ok a => exact h a

/-- A write-back of one map on two flags words agrees on every flag that the map names. -/
theorem alike_writeFlags {m : FlagMap} (hm : ∀ f ∈ F, m.get f ≠ none) (s : State) (w : Word) (len : Nat) :
    Alike F ((s.writeFlags m).advance len) (((s.setFlagsWord w).writeFlags m).advance len) := by
  refine ⟨m.apply w, rfl, fun _ f hf => ?_⟩
  obtain ⟨b, hb⟩ := Option.ne_none_iff_exists'.mp (hm f hf)
  rw [State.advance_testFlag, State.testFlag_writeFlags, flagOf_apply, hb, Option.getD_some, Option.getD_some]

/-- The end of a body with a result: the write of the destination looks at no flag. -/
theorem alike_result {m : FlagMap} (hm : ∀ f ∈ F, m.get f ≠ none) (o : Operand) (v : Word) (len : Nat) (s : State)
    (w : Word) : Alike F (s.attempt (s.writeOp o v) fun t => (t.writeFlags m).advance len)
      ((s.setFlagsWord w).attempt ((s.setFlagsWord w).writeOp o v) fun t => (t.writeFlags m).advance len) := by
  by_cases hacc : Accessible s o
  · rw [State.writeOp_ok hacc, State.writeOp_ok (accessible_setFlagsWord.mpr hacc), State.setFlagsWord_put]
    exact alike_writeFlags hm _ w len
  · rw [State.writeOp_error hacc, State.writeOp_error (mt accessible_setFlagsWord.mp hacc)]
    exact alike_raise s w _

theorem alike_twoOperand {core : Word → Word → AluResult} (hm : ∀ a b, ∀ f ∈ F, (core a b).flags.get f ≠ none)
    (dst src : Operand) (len : Nat) (s : State) (w : Word) :
    Alike F (twoOperand core dst src len s) (twoOperand core dst src len (s.setFlagsWord w)) := by
  unfold twoOperand
  rw [State.setFlagsWord_readOp, State.setFlagsWord_readOp]
  exact alike_attempt (fun a => alike_attempt (fun b => alike_result (hm a b) ..) ..) ..

theorem alike_compareOperands {core : Word → Word → AluResult} (hm : ∀ a b, ∀ f ∈ F, (core a b).flags.get f ≠ none)
    (fst snd : Operand) (len : Nat) (s : State) (w : Word) :
    Alike F (compareOperands core fst snd len s) (compareOperands core fst snd len (s.setFlagsWord w)) := by
  unfold compareOperands
  rw [State.setFlagsWord_readOp, State.setFlagsWord_readOp]
  exact alike_attempt (fun a => alike_attempt (fun b => alike_writeFlags (hm a b) ..) ..) ..

theorem alike_oneOperand {core : Word → AluResult} (hm : ∀ a, ∀ f ∈ F, (core a).flags.get f ≠ none)
    (dst : Operand) (len : Nat) (s : State) (w : Word) :
    Alike F (oneOperand core dst len s) (oneOperand core dst len (s.setFlagsWord w)) := by
  unfold oneOperand
  rw [State.setFlagsWord_readOp]
  exact alike_attempt (fun a => alike_result (hm a) ..) ..

/-- Of the count's source a shift sees the masked count alone, and a count of 0 writes no flag. -/
theorem alike_shiftOperand {core : Word → Nat → AluResult} {source source' : Word}
    (hc : shiftCount source' = shiftCount source) (hF : shiftCount source = 0 → F = [])
    (hm : ∀ a, ∀ f ∈ F, (core a (shiftCount source)).flags.get f ≠ none) (dst : Operand) (len : Nat) (s : State)
    (w : Word) : Alike F (shiftOperand core dst source len s) (shiftOperand core dst source' len (s.setFlagsWord w)) := by
  unfold shiftOperand
  rw [State.setFlagsWord_readOp, hc]
  refine alike_attempt (fun a => ?_) s w _
  split
  · next h0 => exact hF h0 ▸ alike_nil (s.advance len) w
  · exact alike_result (hm a) ..

theorem alike_moveOperand (dst src : Operand) (len : Nat) (s : State) (w : Word) :
    Alike [] (moveOperand dst src len s) (moveOperand dst src len (s.setFlagsWord w)) := by
  unfold moveOperand
  rw [State.setFlagsWord_readOp]
  exact alike_attempt (fun v => alike_result (m := {}) (fun _ hf => absurd hf List.not_mem_nil) dst v len s w) ..

end

/-- From `s` with the flags word `w` the instruction has the outcome `t` but for `eflags`, and where it completes the same
value of every flag it writes. -/
def LeadsToAlike (i : Instr) (s : State) (w : Word) (t : State) : Prop :=
  ∃ u, exec i (s.setFlagsWord w) = .next u ∧ Alike (writtenFlags s i) t u

theorem leadsToAlike_of_no_flags {i : Instr} {s t : State} {w : Word}
    (h : exec i (s.setFlagsWord w) = .next (t.setFlagsWord w)) (hw : writtenFlags s i = []) : LeadsToAlike i s w t :=
  ⟨_, h, hw ▸ alike_nil t w⟩

theorem leadsToAlike_alu {i : Instr} {op : AluOp} {dst src : Operand} {s t : State} {w : Word}
    (hi : aluForm i = some (op, dst, src)) (hread : ∀ f ∈ readFlags i, flagOf w f = s.testFlag f)
    (h : exec i s = .next t) : LeadsToAlike i s w t := by
  obtain rfl := Host.Outcome.next.inj ((exec_of_aluForm hi s).symm.trans h)
  refine ⟨_, exec_of_aluForm hi _, ?_⟩
  rw [aluCore_of_readFlags hi hread]
  split
  · exact alike_compareOperands (fun a b f _ => aluCore_names_all s op a b f) ..
  · exact alike_twoOperand (fun a b f _ => aluCore_names_all s op a b f) ..

theorem leadsToAlike_shift {i : Instr} {op : ShiftOp} {dst : Operand} {c : Nat} {s t : State} {w : Word}
    (hi : shiftForm s i = some (op, dst, c)) (h : exec i s = .next t) : LeadsToAlike i s w t := by
  obtain ⟨source, hc, hexec⟩ := exec_of_shiftForm hi
  obtain ⟨source', hc', hexec'⟩ := exec_of_shiftForm ((shiftForm_setFlagsWord s w i).trans hi)
  obtain rfl := Host.Outcome.next.inj (hexec.symm.trans h)
  refine ⟨_, hexec', alike_shiftOperand (hc'.trans hc.symm) (fun h0 => ?_)
    (fun a f _ => shiftCore_names_all op a _ f) ..⟩
  simp only [writtenFlags, forms_of_shiftForm hi, hi, hc.symm.trans h0, if_true]

theorem leadsToAlike {i : Instr} {s t : State} {w : Word} (hread : ∀ f ∈ readFlags i, flagOf w f = s.testFlag f)
    (h : exec i s = .next t) : LeadsToAlike i s w t := by
  obtain ⟨_, _, _, hi⟩ | ⟨_, _, hi⟩ | ⟨_, _, hi⟩ | ⟨_, _, _, hi⟩ | ⟨_, _, hi⟩ | ⟨v, hi⟩ | ⟨rel, hi⟩ | ⟨cc, rel, hi⟩ |
    ⟨r, rfl⟩ | ⟨rel, rfl⟩ | rfl | rfl | rfl := form_cases s i
  · exact leadsToAlike_alu hi hread h
  · obtain rfl := Host.Outcome.next.inj ((exec_of_testForm hi s).symm.trans h)
    exact ⟨_, exec_of_testForm hi _, alike_compareOperands (fun a b f _ => by simp [testCoreOf, logicCore]) ..⟩
  · obtain rfl := Host.Outcome.next.inj ((exec_of_unaryForm hi s).symm.trans h)
    exact ⟨_, exec_of_unaryForm hi _, alike_oneOperand (fun a _ hf => unaryCore_names_written hi a hf) ..⟩
  · exact leadsToAlike_shift hi h
  · obtain rfl := Host.Outcome.next.inj ((exec_of_moveForm hi s).symm.trans h)
    have hw : writtenFlags s i = [] := by simp only [writtenFlags, forms_of_moveForm (s := s) hi]
    exact ⟨_, exec_of_moveForm hi _, hw ▸ alike_moveOperand ..⟩
  · obtain rfl := Host.Outcome.next.inj ((exec_of_pushForm hi).symm.trans h)
    refine leadsToAlike_of_no_flags ?_ (writtenFlags_eq_nil (.inl ⟨v, hi⟩))
    rw [exec_of_pushForm ((pushForm_setFlagsWord s w i).trans hi), pushThen_setFlagsWord fun _ => rfl]
  · obtain rfl := Host.Outcome.next.inj ((exec_of_jmpForm hi s).symm.trans h)
    exact leadsToAlike_of_no_flags (exec_of_jmpForm hi _) (writtenFlags_eq_nil (.inr (.inl ⟨rel, hi⟩)))
  · obtain rfl := Host.Outcome.next.inj ((exec_of_jccForm hi s).symm.trans h)
    refine leadsToAlike_of_no_flags ?_ (writtenFlags_eq_nil (.inr (.inr ⟨_, hi⟩)))
    rw [exec_of_jccForm hi, jumpIf, jumpIf, State.setFlagsWord_eflags, condHolds_of_readFlags hi hread,
      apply_ite (State.setFlagsWord · w)]
    rfl
  · obtain rfl := Host.Outcome.next.inj ((exec_popR r s).symm.trans h)
    refine leadsToAlike_of_no_flags ?_ rfl
    rw [exec_popR, popThen_setFlagsWord fun _ _ => rfl]
  · obtain rfl := Host.Outcome.next.inj ((exec_callRel32 rel s).symm.trans h)
    refine leadsToAlike_of_no_flags ?_ rfl
    rw [exec_callRel32, pushThen_setFlagsWord fun _ => rfl]
    rfl
  · obtain rfl := Host.Outcome.next.inj ((exec_ret s).symm.trans h)
    refine leadsToAlike_of_no_flags ?_ rfl
    rw [exec_ret, popThen_setFlagsWord fun _ _ => rfl]
  · obtain rfl := Host.Outcome.next.inj ((exec_nop s).symm.trans h)
    exact leadsToAlike_of_no_flags rfl rfl
  · obtain rfl := Host.Outcome.next.inj ((exec_hlt s).symm.trans h)
    exact leadsToAlike_of_no_flags rfl rfl

/-! ### Two instructions of one form (R114) -/

/-- Two outcomes that are equal but for `eip`, with `eip` as far beyond the one's own length `m` as beyond the other's
`n` where they complete. -/
def SameButLength (m n : Nat) (t u : State) : Prop :=
  { t with eip := 0 } = { u with eip := 0 } ∧
    (t.runState ≠ .faulted → t.eip - BitVec.ofNat 32 m = u.eip - BitVec.ofNat 32 n)

section
variable {m n : Nat}

theorem sameButLength_raise (s : State) (f : Fault) : SameButLength m n (s.raise f) (s.raise f) :=
  ⟨rfl, fun h => absurd rfl h⟩

theorem sameButLength_relativeTarget (s : State) (offset : Word) :
    SameButLength m n (s.setEip (s.relativeTarget offset m)) (s.setEip (s.relativeTarget offset n)) := by
  refine ⟨rfl, fun _ => ?_⟩
  simp only [State.setEip_eip, State.relativeTarget, State.nextEip]
  ring

theorem sameButLength_advance (s : State) : SameButLength m n (s.advance m) (s.advance n) := by
  refine ⟨rfl, fun _ => ?_⟩
  simp only [State.advance_eip, State.nextEip, BitVec.add_sub_cancel]

theorem sameButLength_attempt {α : Type} {k k' : α → State} (h : ∀ a, SameButLength m n (k a) (k' a)) (s : State)
    (x : Except Fault α) : SameButLength m n (s.attempt x k) (s.attempt x k') := by
  cases x with
  | error f => exact sameButLength_raise s f
  | ok a => exact h a

theorem sameButLength_twoOperand (core : Word → Word → AluResult) (dst src : Operand) (s : State) :
    SameButLength m n (twoOperand core dst src m s) (twoOperand core dst src n s) :=
  sameButLength_attempt (fun _ => sameButLength_attempt (fun _ => sameButLength_attempt
    (fun _ => sameButLength_advance _) _ _) _ _) _ _

theorem sameButLength_compareOperands (core : Word → Word → AluResult) (fst snd : Operand) (s : State) :
    SameButLength m n (compareOperands core fst snd m s) (compareOperands core fst snd n s) :=
  sameButLength_attempt (fun _ => sameButLength_attempt (fun _ => sameButLength_advance _) _ _) _ _

theorem sameButLength_oneOperand (core : Word → AluResult) (dst : Operand) (s : State) :
    SameButLength m n (oneOperand core dst m s) (oneOperand core dst n s) :=
  sameButLength_attempt (fun _ => sameButLength_attempt (fun _ => sameButLength_advance _) _ _) _ _

/-- Of the count's source a shift sees the masked count alone. -/
theorem sameButLength_shiftOperand (core : Word → Nat → AluResult) (dst : Operand) {source source' : Word}
    (hc : shiftCount source = shiftCount source') (s : State) :
    SameButLength m n (shiftOperand core dst source m s) (shiftOperand core dst source' n s) := by
  refine sameButLength_attempt (fun a => ?_) _ _
  rw [hc]
  split
  · exact sameButLength_advance s
  · exact sameButLength_attempt (fun _ => sameButLength_advance _) _ _

theorem sameButLength_moveOperand (dst src : Operand) (s : State) :
    SameButLength m n (moveOperand dst src m s) (moveOperand dst src n s) :=
  sameButLength_attempt (fun _ => sameButLength_attempt (fun _ => sameButLength_advance _) _ _) _ _

theorem sameButLength_pushThen (v : Word) (s : State) :
    SameButLength m n (pushThen v (fun t => t.advance m) s) (pushThen v (fun t => t.advance n) s) :=
  sameButLength_attempt (fun _ => sameButLength_advance _) _ _

theorem sameButLength_jumpIf (cc : Cond) (offset : Word) (s : State) :
    SameButLength m n (jumpIf cc offset m s) (jumpIf cc offset n s) := by
  unfold jumpIf
  split
  · exact sameButLength_relativeTarget s offset
  · exact sameButLength_advance s

end

/-- Instructions whose outcomes are the same but for their lengths. -/
def SameEffect (i j : Instr) (s : State) : Prop :=
  ∃ t u, exec i s = .next t ∧ exec j s = .next u ∧ SameButLength (encode i).length (encode j).length t u

/-- Two instructions that one form gives the same value share whatever holds of two instructions with that value. -/
theorem of_form_eq {α : Type} {form : Instr → Option α} {i j : Instr} {P : Prop}
    (h : form i ≠ none ∧ form i = form j) (hP : ∀ x, form i = some x → form j = some x → P) : P := by
  obtain ⟨x, hx⟩ := Option.ne_none_iff_exists'.mp h.1
  exact hP x hx (h.2 ▸ hx)

theorem sameEffect_of_shiftForm {i j : Instr} {s : State} {op : ShiftOp} {dst : Operand} {c : Nat}
    (hi : shiftForm s i = some (op, dst, c)) (hj : shiftForm s j = some (op, dst, c)) : SameEffect i j s := by
  obtain ⟨source, hc, hexec⟩ := exec_of_shiftForm hi
  obtain ⟨source', hc', hexec'⟩ := exec_of_shiftForm hj
  exact ⟨_, _, hexec, hexec', sameButLength_shiftOperand _ dst (hc.trans hc'.symm) s⟩

theorem sameEffect_of_aluForm {i j : Instr} {op : AluOp} {dst src : Operand} (hi : aluForm i = some (op, dst, src))
    (hj : aluForm j = some (op, dst, src)) (s : State) : SameEffect i j s := by
  refine ⟨_, _, exec_of_aluForm hi s, exec_of_aluForm hj s, ?_⟩
  split
  · exact sameButLength_compareOperands ..
  · exact sameButLength_twoOperand ..

/-! ### The statements -/

/-- Settles O59, form by form: the cores and conditions read no other flag, and a full flag map forgets the old word. -/
theorem unreadFlagsDoNotMatter : Obligations.UnreadFlagsDoNotMatter := by
  intro i s t w hread hexec
  obtain ⟨_, hu, w', rfl, hflags⟩ := leadsToAlike hread hexec
  exact ⟨t.setFlagsWord w', hu, rfl, hflags⟩

/-- Settles O6: the shared bodies see the length in the last advance or the target alone. -/
theorem redundantEncodingsAgree : Obligations.RedundantEncodingsAgree := by
  refine ⟨fun i j s h => (?_ : SameEffect i j s), fun op _ _ => by cases op <;> rfl, fun _ _ => rfl,
    fun op _ => by cases op <;> rfl, fun op _ _ => by cases op <;> rfl, fun _ => ⟨rfl, rfl⟩, fun _ => ⟨rfl, rfl⟩,
    fun _ => rfl, fun cc rel => by rw [jccForm_jccRel8, jccForm_jccRel32]⟩
  obtain h | h | h | h | h | h | h | h := h
  · exact of_form_eq h fun x hi hj => sameEffect_of_aluForm hi hj s
  · exact of_form_eq h fun x hi hj => ⟨_, _, exec_of_testForm hi s, exec_of_testForm hj s,
      sameButLength_compareOperands ..⟩
  · exact of_form_eq h fun x hi hj => ⟨_, _, exec_of_unaryForm hi s, exec_of_unaryForm hj s,
      sameButLength_oneOperand ..⟩
  · exact of_form_eq h fun x hi hj => sameEffect_of_shiftForm hi hj
  · exact of_form_eq h fun x hi hj => ⟨_, _, exec_of_moveForm hi s, exec_of_moveForm hj s,
      sameButLength_moveOperand ..⟩
  · exact of_form_eq h fun x hi hj => ⟨_, _, exec_of_pushForm hi, exec_of_pushForm hj, sameButLength_pushThen ..⟩
  · exact of_form_eq h fun x hi hj => ⟨_, _, exec_of_jmpForm hi s, exec_of_jmpForm hj s,
      sameButLength_relativeTarget ..⟩
  · exact of_form_eq h fun x hi hj => ⟨_, _, exec_of_jccForm hi s, exec_of_jccForm hj s, sameButLength_jumpIf ..⟩

end Sys2Proof.Machine
end

section
/-! Proofs: `Initialize` and reset (20_memory.md R61 to R64, 10_state.md R35, 60_exceptions.md R306,
70_reset_and_hazards.md R340). A successful `Initialize` is the zeroed state
with its presets and the halt check (`hostInitialize_of_fits`); the presets move registers and `eflags` alone. -/

namespace Sys2Proof.Machine

/-! ### The tests and the presets -/

theorem InitOptions.fits_iff (o : InitOptions) (base : Nat) :
    o.fits base = true ↔ base + o.memSize ≤ 2 ^ 32 ∧ o.text.length + o.data.length + o.bss < o.memSize ∧
      o.text.length + o.data.length + o.bss + o.stack.length ≤ o.memSize := by
  simp [InitOptions.fits, and_assoc]

/-- The state before the presets: registers and `eflags` 0, `esp` the returned stack pointer. -/
def InitOptions.zeroed (o : InitOptions) (base : Nat) : State where
  regs := ⟨0, 0, 0, 0, BitVec.ofNat 32 (o.stackStart base), 0, 0, 0⟩
  eip := 0
  eflags := 0x00000000
  mem := o.memory base
  runState := .running
  faultKind := none
  bounds := o.layout base

theorem InitOptions.loaded_eq (o : InitOptions) (base : Nat) :
    o.loaded base = (o.regs.foldl State.preset (o.zeroed base)).setEip o.entryPoint := rfl

/-- What no single preset moves, a list of presets does not move. -/
theorem foldl_preset_eq {α : Type} {get : State → α} (h : ∀ s e, get (s.preset e) = get s)
    (l : List (ViewName × Word)) (s : State) : get (l.foldl State.preset s) = get s := by
  induction l generalizing s with
  | nil => rfl
  | cons e l ih => rw [List.foldl_cons, ih, h]

theorem State.preset_mem (s : State) (e : ViewName × Word) : (s.preset e).mem = s.mem := by
  obtain ⟨n, v⟩ := e
  cases n <;> rfl

theorem State.preset_bounds (s : State) (e : ViewName × Word) : (s.preset e).bounds = s.bounds := by
  obtain ⟨n, v⟩ := e
  cases n <;> rfl

theorem State.preset_runState (s : State) (e : ViewName × Word) : (s.preset e).runState = s.runState := by
  obtain ⟨n, v⟩ := e
  cases n <;> rfl

theorem State.preset_faultKind (s : State) (e : ViewName × Word) : (s.preset e).faultKind = s.faultKind := by
  obtain ⟨n, v⟩ := e
  cases n <;> rfl

theorem InitOptions.loaded_mem (o : InitOptions) (base : Nat) : (o.loaded base).mem = o.memory base :=
  foldl_preset_eq (get := State.mem) State.preset_mem o.regs (o.zeroed base)

theorem InitOptions.loaded_bounds (o : InitOptions) (base : Nat) : (o.loaded base).bounds = o.layout base :=
  foldl_preset_eq (get := State.bounds) State.preset_bounds o.regs (o.zeroed base)

theorem InitOptions.loaded_runState (o : InitOptions) (base : Nat) : (o.loaded base).runState = .running :=
  foldl_preset_eq (get := State.runState) State.preset_runState o.regs (o.zeroed base)

theorem InitOptions.loaded_faultKind (o : InitOptions) (base : Nat) : (o.loaded base).faultKind = none :=
  foldl_preset_eq (get := State.faultKind) State.preset_faultKind o.regs (o.zeroed base)

/-- A preset writes the register of its name and no other (`eip` apart). -/
theorem State.preset_view {n : ViewName} (hn : n ≠ .eip) (s : State) (m : ViewName) (v : Word) :
    (s.preset (m, v)).view n = if n = m then v else s.view n := by
  cases n with
  | eip => exact absurd rfl hn
  | _ => cases m <;> rfl

/-- With distinct names the order of the presets does not matter: each name has its entry. -/
theorem foldl_preset_view {n : ViewName} (hn : n ≠ .eip) {l : List (ViewName × Word)} (hl : (l.map Prod.fst).Nodup)
    (s : State) : (l.foldl State.preset s).view n = (l.lookup n).getD (s.view n) := by
  induction l generalizing s with
  | nil => rfl
  | cons e l ih =>
    obtain ⟨m, v⟩ := e
    obtain ⟨hm, hl⟩ := List.nodup_cons.mp hl
    rw [List.foldl_cons, ih hl, State.preset_view hn, List.lookup_cons]
    by_cases h : n = m
    · subst h
      have hnone : l.lookup n = none :=
        List.lookup_eq_none_iff.mpr fun p hp => bne_iff_ne.mpr fun e => hm (List.mem_map.mpr ⟨p, hp, e.symm⟩)
      simp [hnone]
    · rw [beq_false_of_ne h, if_neg h]

theorem InitOptions.zeroed_view (o : InitOptions) (base : Nat) {n : ViewName} (hn : n ≠ .eip) :
    (o.zeroed base).view n = if n = .esp then BitVec.ofNat 32 (base + o.memSize - o.stack.length) else 0 := by
  cases n with
  | eip => exact absurd rfl hn
  | _ => rfl

theorem State.setEip_view (s : State) (target : Word) {n : ViewName} (hn : n ≠ .eip) :
    (s.setEip target).view n = s.view n := by
  cases n with
  | eip => exact absurd rfl hn
  | _ => rfl

theorem State.haltCheck_view (s : State) (n : ViewName) : s.haltCheck.view n = s.view n := by
  rw [State.haltCheck_eq]
  cases n <;> rfl

/-! ### A successful and a failed `Initialize` -/

theorem hostInitialize_of_fits {base : Nat} {o : InitOptions} (h : o.fits base = true) (s : State) :
    hostInitialize base o s = (o.loaded base).haltCheck := if_pos h

theorem hostInitialize_of_not_fits {base : Nat} {o : InitOptions} (h : ¬ o.fits base = true) (s : State) :
    hostInitialize base o s = { s with runState := .faulted, faultKind := some .layoutOverflow } := if_neg h

section
variable {base : Nat} {o : InitOptions}

theorem hostInitialize_mem (h : o.fits base = true) (s : State) : (hostInitialize base o s).mem = o.memory base := by
  rw [hostInitialize_of_fits h, State.haltCheck_mem, o.loaded_mem]

theorem hostInitialize_bounds (h : o.fits base = true) (s : State) :
    (hostInitialize base o s).bounds = o.layout base := by
  rw [hostInitialize_of_fits h, State.haltCheck_bounds, o.loaded_bounds]

theorem hostInitialize_faultKind (h : o.fits base = true) (s : State) : (hostInitialize base o s).faultKind = none := by
  rw [hostInitialize_of_fits h, State.haltCheck_faultKind, o.loaded_faultKind]

theorem hostInitialize_view (h : o.fits base = true) (hnames : (o.regs.map Prod.fst).Nodup) {n : ViewName}
    (hn : n ≠ .eip) (s : State) : (hostInitialize base o s).view n = (o.regs.lookup n).getD
      (if n = .esp then BitVec.ofNat 32 (base + o.memSize - o.stack.length) else 0) := by
  rw [hostInitialize_of_fits h, State.haltCheck_view, o.loaded_eq, State.setEip_view _ _ hn,
    foldl_preset_view hn hnames, o.zeroed_view base hn]

theorem hostInitialize_eip (h : o.fits base = true) (s : State) : (hostInitialize base o s).eip = o.entryPoint := by
  rw [hostInitialize_of_fits h, State.haltCheck_eip, o.loaded_eq, State.setEip_eip]

theorem hostInitialize_runState (h : o.fits base = true) (s : State) : (hostInitialize base o s).runState =
    if base ≤ o.entryPoint.toNat ∧ o.entryPoint.toNat < base + o.text.length then .ready else .halted := by
  rw [hostInitialize_of_fits h, State.haltCheck_eq]
  dsimp only
  rw [if_pos (o.loaded_runState base), o.loaded_bounds]
  rfl

end

/-! ### The memory after `Initialize` -/

theorem Memory.nil_wf : Memory.wf [] := ⟨List.Pairwise.nil, nofun⟩

theorem InitOptions.memory_eq (o : InitOptions) (base : Nat) : o.memory base =
    ((Memory.writeRun [] base o.text).writeRun (base + o.text.length) o.data).writeRun
      (base + o.memSize - o.stack.length) o.stack := rfl

theorem InitOptions.memory_wf (o : InitOptions) (base : Nat) : (o.memory base).wf := by
  rw [o.memory_eq]
  exact Memory.writeRun_wf _ _ (Memory.writeRun_wf _ _ (Memory.writeRun_wf _ _ Memory.nil_wf))

/-- Below the stack image the memory is what `text` and `data` left. -/
theorem InitOptions.memory_read_below_stack (o : InitOptions) {base a : Nat}
    (ha : a < base + o.memSize - o.stack.length) :
    (o.memory base).read a =
      ((Memory.writeRun [] base o.text).writeRun (base + o.text.length) o.data).read a := by
  rw [o.memory_eq]
  exact Memory.read_writeRun_outside (Memory.writeRun_wf _ _ (Memory.writeRun_wf _ _ Memory.nil_wf)) (.inl ha)

theorem InitOptions.memory_read_stack (o : InitOptions) {base k : Nat} (hk : k < o.stack.length) :
    (o.memory base).read (base + o.memSize - o.stack.length + k) = o.stack[k] := by
  rw [o.memory_eq,
    Memory.read_writeRun_inside (Memory.writeRun_wf _ _ (Memory.writeRun_wf _ _ Memory.nil_wf)) _ hk]

/-- Bss and the gap below the stack image hold the byte that no one wrote. -/
theorem InitOptions.memory_read_gap (o : InitOptions) {base a : Nat} (hlo : base + o.text.length + o.data.length ≤ a)
    (hhi : a < base + o.memSize - o.stack.length) : (o.memory base).read a = 0x00 := by
  rw [o.memory_read_below_stack hhi,
    Memory.read_writeRun_outside (Memory.writeRun_wf _ _ Memory.nil_wf) (.inr hlo),
    Memory.read_writeRun_outside Memory.nil_wf (.inr (by omega))]
  rfl

section
variable {base : Nat} {o : InitOptions} (h : o.fits base = true)
include h

theorem memory_read_text {k : Nat} (hk : k < o.text.length) : (o.memory base).read (base + k) = o.text[k] := by
  have hfits := (o.fits_iff base).mp h
  rw [o.memory_read_below_stack (by omega),
    Memory.read_writeRun_outside (Memory.writeRun_wf _ _ Memory.nil_wf) (.inl (by omega)),
    Memory.read_writeRun_inside Memory.nil_wf base hk]

theorem memory_read_data {k : Nat} (hk : k < o.data.length) :
    (o.memory base).read (base + o.text.length + k) = o.data[k] := by
  have hfits := (o.fits_iff base).mp h
  rw [o.memory_read_below_stack (by omega),
    Memory.read_writeRun_inside (Memory.writeRun_wf _ _ Memory.nil_wf) _ hk]

theorem memory_inside : ∀ c ∈ o.memory base, base ≤ c.1 ∧ c.1 < base + o.memSize := by
  have hfits := (o.fits_iff base).mp h
  intro c hc
  rw [o.memory_eq] at hc
  obtain hc | hc := Memory.key_of_mem_writeRun hc
  · obtain hc | hc := Memory.key_of_mem_writeRun hc
    · obtain hc | hc := Memory.key_of_mem_writeRun hc
      · exact absurd hc List.not_mem_nil
      · omega
    · omega
  · omega

theorem layout_wf : (o.layout base).wf := by
  have hfits := (o.fits_iff base).mp h
  refine ⟨rfl, ?_, rfl, ?_, ?_, ?_, ?_⟩ <;> simp only [InitOptions.layout] <;> omega

theorem hostInitialize_inv (s : State) : (hostInitialize base o s).Inv := by
  rw [hostInitialize_of_fits h]
  refine State.inv_haltCheck ?_ ?_ ?_ ?_ ?_
  · rw [o.loaded_mem]
    exact o.memory_wf base
  · rw [o.loaded_mem, o.loaded_bounds]
    exact memory_inside h
  · rw [o.loaded_bounds]
    exact layout_wf h
  · rw [o.loaded_runState]
    nofun
  · rw [o.loaded_faultKind, o.loaded_runState]
    exact iff_of_false nofun nofun

end

/-- A failed `Initialize` keeps memory and bounds, and latches its kind. -/
theorem State.Inv.layoutOverflow {s : State} (hs : s.Inv) :
    State.Inv { s with runState := .faulted, faultKind := some .layoutOverflow } :=
  ⟨hs.memWf, hs.memInside, hs.boundsWf, nofun, nofun, iff_of_true rfl rfl⟩

/-- No step latches the kind of a failed `Initialize`. -/
theorem step_layoutOverflow {s t : State} (h : step s = .next t) (ht : t.faultKind = some .layoutOverflow) :
    s.faultKind = some .layoutOverflow := by
  have hraise {f : Fault} (hf : f ≠ .layoutOverflow) (hk : (s.faultKind <|> some f) = some .layoutOverflow) :
      s.faultKind = some .layoutOverflow := by
    cases hs : s.faultKind <;> simp_all
  obtain ⟨-, rfl⟩ | ⟨-, f, hdecode, rfl⟩ | ⟨-, i, u, -, hexec, rfl⟩ := step_cases h
  · exact hraise (f := .invalidState) (by decide) ht
  · refine hraise (f := f) ?_ ht
    obtain rfl | rfl := State.fetchDecode_error hdecode <;> decide
  · rw [State.haltCheck_faultKind] at ht
    obtain ⟨-, hk⟩ | ⟨-, -, hk⟩ | ⟨-, hk, -⟩ := (exec_effect hexec).control
    · exact hk.symm.trans ht
    · exact hk.symm.trans ht
    · exact hraise (f := .outOfBounds) (by decide) (hk.symm.trans ht)

/-! ### The statements on `Initialize` -/

/-- Settles O13: text, data and stack image are three runs of writes that do not overlap. -/
theorem initializeLaysOutTheSections : Obligations.InitializeLaysOutTheSections := by
  intro base o s h1 h2 h3 t sp
  have h : o.fits base = true := (o.fits_iff base).mpr ⟨h1, h2, h3⟩
  have hbounds : t.bounds = o.layout base := hostInitialize_bounds h s
  have hmem : t.mem = o.memory base := hostInitialize_mem h s
  rw [hbounds, hmem]
  refine ⟨rfl, fun k hk => memory_read_text h hk, fun k hk => memory_read_data h hk, fun k hk => o.memory_read_stack hk,
    fun a hlo hhi => o.memory_read_gap hlo hhi, fun hregs => ?_⟩
  have hview := hostInitialize_view h (by rw [hregs]; exact List.nodup_nil) (n := .esp) nofun s
  rw [hregs] at hview
  exact hview

/-- Settles O14: the presets are folded over the zeroed state, and the halt check decides the run state by `eip`. -/
theorem initializeSetsTheRegisters : Obligations.InitializeSetsTheRegisters := by
  intro base o s h1 h2 h3 hnames t
  have h : o.fits base = true := (o.fits_iff base).mpr ⟨h1, h2, h3⟩
  have hrun := hostInitialize_runState h s
  refine ⟨fun n hn => hostInitialize_view h hnames hn s, hostInitialize_eip h s, hostInitialize_faultKind h s, ?_⟩
  by_cases htext : base ≤ o.entryPoint.toNat ∧ o.entryPoint.toNat < base + o.text.length
  · have hready : t.runState = .ready := hrun.trans (if_pos htext)
    exact ⟨iff_of_true hready htext, fun hn => absurd hready hn, by simp [initializeResult, hready]⟩
  · have hhalted : t.runState = .halted := hrun.trans (if_neg htext)
    exact ⟨iff_of_false (by simp [hhalted]) htext, fun _ => hhalted, by simp [initializeResult, hhalted]⟩

/-- Settles O15: the state of a failed `Initialize` already has its kind, so a step changes nothing. -/
theorem layoutOverflowFaultsInitializeOnly : Obligations.LayoutOverflowFaultsInitializeOnly := by
  refine ⟨?_, fun s t hstep ht => step_layoutOverflow hstep ht⟩
  intro base o s _ hlegal hover t
  have hfits : ¬ o.fits base = true := fun h => by
    have := (o.fits_iff base).mp h
    omega
  have ht : t = { s with runState := .faulted, faultKind := some .layoutOverflow } := hostInitialize_of_not_fits hfits s
  rw [ht]
  exact ⟨rfl, rfl, rfl, run_eq_self (step_not_ready nofun), fun p hp => hostInitialize_faultKind hp _⟩

/-- Settles O16: the layout's runs lie inside its bounds, and a failed `Initialize` moves neither. -/
theorem initializeEstablishesTheInvariant : Obligations.InitializeEstablishesTheInvariant := by
  refine fun base o s => ⟨fun h => hostInitialize_inv h s, fun hs => ?_⟩
  by_cases h : o.fits base = true
  · exact hostInitialize_inv h s
  · rw [hostInitialize_of_not_fits h]
    exact hs.layoutOverflow

theorem reset_eq_hostInitialize (s : State) : State.reset = hostInitialize Config.memStart
    { memSize := Config.resetMemSize, entryPoint := BitVec.ofNat 32 Config.memStart, text := [] } s := rfl

/-- Settles O17: the options fit, and the empty text leaves the machine halted. -/
theorem resetIsAnInitializeOfEmptySections : Obligations.ResetIsAnInitializeOfEmptySections := by
  refine ⟨reset_eq_hostInitialize, fun r hr => ?_, rfl, rfl, rfl, rfl⟩
  cases r with
  | esp => exact absurd rfl hr
  | _ => rfl

/-- Settles O24: reset is an `Initialize` that fits. -/
theorem resetMeetsTheInvariant : Obligations.ResetMeetsTheInvariant := by
  rw [Obligations.ResetMeetsTheInvariant, reset_eq_hostInitialize State.reset]
  exact hostInitialize_inv (by decide) _

end Sys2Proof.Machine
end

section
/-! Proofs: the host's ports and the placing of a table word (20_memory.md R77, 10_state.md R36, 70_reset_and_hazards.md
R340). An open port answers what the access itself answers; a placed word is the run of bytes that the next step fetches. -/

namespace Sys2Proof.Machine

/-! ### The ports -/

theorem State.portsOpen_iff (s : State) :
    s.portsOpen = true ↔ s.runState = .ready ∨ s.runState = .halted ∨ s.runState = .faulted := by
  unfold State.portsOpen
  split <;> simp [*]

theorem hostLoad_of_load_ok {s : State} {a n : Nat} {bytes : List Byte} (ho : s.portsOpen = true)
    (h : s.load a n = .ok bytes) : hostLoad a n s = .next bytes := by
  rw [hostLoad, if_pos ho, h]

theorem hostLoad_of_load_error {s : State} {a n : Nat} {f : Fault} (ho : s.portsOpen = true)
    (h : s.load a n = .error f) : hostLoad a n s = .fault f := by
  rw [hostLoad, if_pos ho, h]

theorem hostStore_of_store_ok {s t : State} {a : Nat} {bytes : List Byte} (ho : s.portsOpen = true)
    (h : s.store a bytes = .ok t) : hostStore a bytes s = .next t := by
  rw [hostStore, if_pos ho, h]

theorem hostStore_of_store_error {s : State} {a : Nat} {bytes : List Byte} {f : Fault} (ho : s.portsOpen = true)
    (h : s.store a bytes = .error f) : hostStore a bytes s = .fault f := by
  rw [hostStore, if_pos ho, h]

theorem hostView_of_open {s : State} (ho : s.portsOpen = true) (n : ViewName) : hostView n s = .next (s.view n) :=
  if_pos ho

/-- A run of bytes written inside the memory keeps the invariant. -/
theorem State.Inv.writeRun {s : State} (hs : s.Inv) {a : Nat} {bytes : List Byte}
    (hcov : s.bounds.covers a bytes.length = true) : State.Inv { s with mem := s.mem.writeRun a bytes } where
  memWf := Memory.writeRun_wf a bytes hs.memWf
  memInside c hc := by
    rw [Bounds.covers_iff] at hcov
    obtain hc | hc := Memory.key_of_mem_writeRun hc
    · exact hs.memInside c hc
    · dsimp only
      omega
  boundsWf := hs.boundsWf
  notRunning := hs.notRunning
  readyInText := hs.readyInText
  latched := hs.latched

/-- What a port loads depends on the cells it reads, beside the bounds and the run state. -/
theorem hostLoad_congr {s : State} {m : Memory} {a n : Nat} (h : ∀ k < n, m.read (a + k) = s.mem.read (a + k)) :
    hostLoad a n { s with mem := m } = hostLoad a n s := by
  have hload : State.load { s with mem := m } a n = s.load a n := by
    simp only [State.load, Memory.readRun_congr h]
  rw [hostLoad, hostLoad, hload]
  rfl

/-! ### Placing -/

theorem tableBytes_length (nbits w : Nat) : (tableBytes nbits w).length = 10 := by
  rw [tableBytes, List.length_map, List.length_range, maxLength]

theorem decode_tableBytes {nbits w : Nat} {i : Instr} (h : decodeTableWord nbits w = some i) :
    ∃ rest, decode (tableBytes nbits w) = .ok (i, rest) := by
  unfold decodeTableWord at h
  split at h
  · next j rest hd =>
    obtain rfl := Option.some.inj h
    exact ⟨rest, hd⟩
  · exact absurd h nofun

/-- The bytes placed are inside the widened memory, and they are what the fetch reads. -/
theorem fetchDecode_withFetchWord {s : State} {nbits w : Nat} {i : Instr} (hwf : s.mem.wf)
    (h : decodeTableWord nbits w = some i) : (s.withFetchWord nbits w).enter.fetchDecode = .ok i := by
  obtain ⟨rest, hd⟩ := decode_tableBytes h
  refine State.fetchDecode_of_ok (n := (tableBytes nbits w).length) (rest := rest) ?_ ?_ ?_
  · exact Nat.min_le_right ..
  · exact (Nat.le_succ _).trans (Nat.le_max_right ..)
  · exact (congrArg decode (Memory.readRun_writeRun _ _ hwf)).trans hd

/-- From reset the widened bounds are the layout of the bytes as the text. -/
theorem reset_withText {bytes : List Byte} (h : bytes.length = 10) :
    State.reset.bounds.withText 0 (0 + bytes.length) = InitOptions.layout
      { memSize := Config.resetMemSize, entryPoint := BitVec.ofNat 32 Config.memStart, text := bytes } Config.memStart := by
  simp [Bounds.withText, State.reset, InitOptions.layout, Config.memStart, Config.resetMemSize, h]

theorem reset_withFetchWord (nbits w : Nat) (s : State) : State.reset.withFetchWord nbits w =
    hostInitialize Config.memStart
      { memSize := Config.resetMemSize, entryPoint := BitVec.ofNat 32 Config.memStart, text := tableBytes nbits w } s := by
  have hlen := tableBytes_length nbits w
  have hbounds := reset_withText hlen
  rw [hostInitialize_of_fits (by simp [InitOptions.fits, hlen, Config.memStart, Config.resetMemSize]),
    State.haltCheck_eq, if_pos (InitOptions.loaded_runState ..), InitOptions.loaded_bounds, if_pos ?_]
  · exact congrArg (fun b => { State.reset with
      mem := Memory.writeRun [] 0 (tableBytes nbits w), bounds := b, runState := .ready }) hbounds
  · simp [InitOptions.layout, InitOptions.loaded_eq, hlen, Config.memStart]

/-! ### The statements -/

/-- Settles O28: an open port answers the access itself, which is in bounds or changes nothing. -/
theorem hostPortsTouchMemoryAlone : Obligations.HostPortsTouchMemoryAlone := by
  refine ⟨fun s a bytes hs hrun => ?_, fun s a n bytes v hrun => ?_⟩
  · have ho : s.portsOpen = true := s.portsOpen_iff.mpr hrun
    have hview := hostView_of_open ho
    refine ⟨fun hin => ?_, fun hout => ?_, hview, hview .eax, hview .ecx, hview .edx, hview .ebx, hview .esp, hview .ebp,
      hview .esi, hview .edi, hview .eip, hview .eflags⟩
    · have hcov : s.bounds.covers a bytes.length = true := (Bounds.covers_iff ..).mpr hin
      refine ⟨{ s with mem := s.mem.writeRun a bytes }, hostStore_of_store_ok ho (State.store_eq_ok_iff.mpr ⟨hcov, rfl⟩),
        rfl, hs.writeRun hcov, hostLoad_of_load_ok ho ?_, fun x hx => hostLoad_congr fun k hk => ?_⟩
      · exact (State.load_of_covers (s := { s with mem := s.mem.writeRun a bytes }) hcov).trans
          (congrArg _ (Memory.readRun_writeRun a bytes hs.memWf))
      · exact Memory.read_writeRun_outside hs.memWf (by omega)
    · have hcov := (s.bounds.covers_eq_false_iff a bytes.length).mpr hout
      exact ⟨hostStore_of_store_error ho (State.store_of_not_covers hcov),
        hostLoad_of_load_error ho (State.load_of_not_covers hcov)⟩
  · have hclosed : ¬ s.portsOpen = true := by simp [s.portsOpen_iff, hrun]
    exact ⟨if_neg hclosed, if_neg hclosed, if_neg hclosed⟩

/-- Settles O29: the next step fetches the bytes just placed; from reset their layout is that of a text of ten bytes. -/
theorem placedTableWordIsRun : Obligations.PlacedTableWordIsRun := by
  refine ⟨fun s nbits w i hwf h => ?_, fun nbits w s => ?_⟩
  · obtain ⟨t, ht⟩ := exec_next i (s.withFetchWord nbits w).enter
    exact ⟨t, ht, step_ready_ok rfl (fetchDecode_withFetchWord hwf h) ht⟩
  · exact reset_withFetchWord nbits w s

end Sys2Proof.Machine
end

section
/-! Proofs: two pairs of instructions (44_stack.md R232, 45_control_flow.md R243). A pop undoes the push in front of it
(`State.pushed_setReg_esp_add_four`); the conditions behind a `CMP` read the borrow, the zero and the signed order of its
difference. -/

namespace Sys2Proof.Machine

/-! ### `PUSH` and `POP` -/

/-- A push that answers a state without an error had its slot in bounds. -/
theorem covers_of_pushForm_not_faulted {i : Instr} {s t : State} {v : Word} (hi : pushForm s i = some v)
    (hpush : exec i s = .next t) (ht : t.runState ≠ .faulted) : s.bounds.covers (s.reg .esp - 4).toNat 4 = true := by
  by_contra hslot
  obtain rfl := Host.Outcome.next.inj ((exec_pushForm_error hi hslot).symm.trans hpush)
  exact ht rfl

/-- What the pop reads is what the push wrote, into a register that held it, behind an `esp` that is back. -/
theorem exec_popR_after_pushR {r : Reg} {s t : State} (hwf : s.mem.wf) (hpush : exec (.pushR r) s = .next t)
    (ht : t.runState ≠ .faulted) :
    exec (.popR r) t = .next { s with eip := BitVec.ofNat 32 (s.eip.toNat + 2), mem := t.mem } := by
  have hslot := covers_of_pushForm_not_faulted rfl hpush ht
  obtain rfl := Host.Outcome.next.inj ((exec_pushForm_ok rfl hslot).symm.trans hpush)
  have hread : ((s.pushed (s.reg r)).advance 1).memRead (s.reg .esp - 4) = .ok (s.reg r) :=
    State.pushed_memRead (s.reg r) hwf hslot
  have heip : s.nextEip 1 + BitVec.ofNat 32 1 = BitVec.ofNat 32 (s.eip.toNat + 2) := by
    rw [State.nextEip]
    bv_omega
  have hregs : ((s.pushed (s.reg r)).setReg .esp ((s.pushed (s.reg r)).reg .esp + 4)).setReg r (s.reg r) =
      { s with mem := (s.pushed (s.reg r)).mem } := by
    rw [State.pushed_setReg_esp_add_four, State.setReg, State.reg, Regs.set_get_self]
  refine (exec_popR_ok hread).trans ?_
  exact congrArg Host.Outcome.next (congrArg₂ State.setEip hregs heip)

/-! ### Conditions behind `CMP` (R243) -/

/-- The difference is 0 exactly for equal operands. -/
theorem sub_eq_zero_decide (a b : Word) :
    decide ((BitVec.ofNat 32 (2 ^ 32 + a.toNat - b.toNat)).toNat = 0) = decide (a = b) := by
  rw [decide_eq_decide]
  constructor
  · intro h
    bv_omega
  · rintro rfl
    bv_omega

/-- The sign of the difference, inverted where it overflows, is the signed order. -/
theorem sub_sign_ne_overflow (a b : Word) :
    (decide (2 ^ 31 ≤ (BitVec.ofNat 32 (2 ^ 32 + a.toNat - b.toNat)).toNat) != signedOverflow (a.toInt - b.toInt)) =
      decide (a.toInt < b.toInt) := by
  have ha := a.isLt
  have hb := b.isLt
  rw [Bool.eq_iff_iff, signedOverflow, bne_iff_ne, ne_eq, decide_eq_decide, decide_eq_true_iff, BitVec.toNat_ofNat,
    BitVec.toInt_eq_toNat_cond, BitVec.toInt_eq_toNat_cond]
  omega

theorem condHolds_ae_eq_not_b (w : Word) : condHolds .ae w = !condHolds .b w := rfl

theorem condHolds_ne_eq_not_e (w : Word) : condHolds .ne w = !condHolds .e w := rfl

theorem condHolds_be (w : Word) : condHolds .be w = (condHolds .b w || condHolds .e w) := rfl

theorem condHolds_a_eq_not_be (w : Word) : condHolds .a w = !condHolds .be w := (Bool.not_or _ _).symm

theorem condHolds_le_eq (w : Word) : condHolds .le w = (condHolds .e w || condHolds .l w) := rfl

/-- The conditions that the others combine: overflow, the borrow, equality and the signed order. -/
theorem conditions_of_cmp {i : Instr} {fst snd : Operand} {s t : State} {a b : Word}
    (hi : aluForm i = some (.cmp, fst, snd)) (ha : s.readOp fst = .ok a) (hb : s.readOp snd = .ok b)
    (hexec : exec i s = .next t) :
    condHolds .o t.eflags = signedOverflow (a.toInt - b.toInt) ∧ condHolds .b t.eflags = decide (a.toNat < b.toNat) ∧
      condHolds .e t.eflags = decide (a = b) ∧ condHolds .l t.eflags = decide (a.toInt < b.toInt) := by
  have hcmp := exec_of_aluForm hi s
  rw [if_pos rfl, compareOperands_ok ha hb] at hcmp
  obtain rfl := Host.Outcome.next.inj (hcmp.symm.trans hexec)
  obtain ⟨⟨hz, hs, -⟩, hc, ho, -⟩ :=
    (holdsFlags_writeFlags s (subCore a b false).flags).of_eq_allFlags (subCore_flags_no_borrow a b)
  exact ⟨ho, hc, hz.trans (sub_eq_zero_decide a b), (congrArg₂ _ hs ho).trans (sub_sign_ne_overflow a b)⟩

/-! ### The statements -/

/-- Settles O47: the registers, the flags and the run state of the pop's state are those before the pair. -/
theorem pushThenPopRestoresRegisters : Obligations.PushThenPopRestoresRegisters :=
  fun _ _ _ hwf _ hpush ht => ⟨_, exec_popR_after_pushR hwf hpush ht, rfl, rfl, rfl, rfl⟩

/-- Settles O52: five of the conditions are flags or their combinations, and each of the others is the inverse of one. -/
theorem conditionsAfterCmpCompare : Obligations.ConditionsAfterCmpCompare := by
  intro i fst snd s t a b hi ha hb hexec
  obtain ⟨ho, hbelow, hequal, hless⟩ := conditions_of_cmp hi ha hb hexec
  have hbe : condHolds .be t.eflags = decide (a.toNat ≤ b.toNat) := by
    rw [condHolds_be, hbelow, hequal, ← Bool.decide_or, decide_eq_decide, ← BitVec.toNat_inj]
    omega
  have hle : condHolds .le t.eflags = decide (a.toInt ≤ b.toInt) := by
    rw [condHolds_le_eq, hequal, hless, ← Bool.decide_or, decide_eq_decide, ← BitVec.toInt_inj]
    omega
  refine ⟨hbelow, ?_, hequal, ?_, hbe, ?_, hless, ?_, hle, ?_, ho⟩
  · rw [condHolds_ae_eq_not_b, hbelow, ← decide_not, decide_eq_decide, Nat.not_lt]
  · rw [condHolds_ne_eq_not_e, hequal, ← decide_not]
  · rw [condHolds_a_eq_not_be, hbe, ← decide_not, decide_eq_decide, Nat.not_le]
  · rw [condHolds_ge_eq_not_l, hless, ← decide_not, decide_eq_decide, Int.not_lt]
  · rw [condHolds_g_eq_not_le, hle, ← decide_not, decide_eq_decide, Int.not_le]

end Sys2Proof.Machine
end
